-- ==== Sys2Proof/Word.lean ====
section
/-! DEFINITION. Word types of LZWCORE: bytes, codes, register words, patterns (spec/00_scope.md R9 to R11). -/

namespace Sys2Proof

/-- A byte, `BYTE_W` = 8 bits (R7, R10). -/
abbrev Byte := BitVec 8

/-- A code, `CODE_W` = 16 bits (R7, R11). -/
abbrev Code := BitVec 16

/-- A host-visible register word, `REG_W` = 32 bits (R7). -/
abbrev Word := BitVec 32

/-- A pattern: a finite sequence of bytes with explicit length; `ε` is `[]` (R10). -/
abbrev Pattern := List Byte

/-- `zext_16(b)`: the literal code of a byte (R92, R95). -/
abbrev codeOfByte (b : Byte) : Code := b.zeroExtend 16

/-- `k[7:0]`: the byte of a literal code (R92, R95). -/
abbrev byteOfCode (k : Code) : Byte := k.truncate 8

end Sys2Proof
end

