-- ==== Sys2Proof/Config.lean ====
section
/-! DEFINITION. Parameters of LZWCORE (spec/00_scope.md R7, R8; 20_memory.md R61) and the free values the spec leaves open. -/

namespace Sys2Proof

/-- `DICT_CAP`, the most live entries of one dictionary (R7). -/
abbrev dictCap : Nat := 4096

/-- `FIRST_MB_CODE`, the code of the first multi-byte entry (R7). -/
abbrev firstMbCode : Nat := 256

/-- `MAX_PAT`, the largest pattern length (R7, derived there from R121). -/
abbrev maxPat : Nat := 4096

/-- `ENC_OUT_MAX`, the number of code elements of `ENC_OBUF` (R7). -/
abbrev encOutMax : Nat := 4096

/-- The open parameters (R8, R61), which "the model takes as arguments": a machine of any size is one value of
this type. The machine carries it unchanged (R48; log 1). -/
structure Config where
  encInMax : Nat
  decInMax : Nat
  decOutMax : Nat
  lzwBase : Nat
deriving DecidableEq, Repr

/-- The constraints of R8 and R61 on the open parameters. -/
abbrev Config.ok (c : Config) : Prop :=
  (1 ≤ c.encInMax ∧ c.encInMax ≤ 2 ^ 24) ∧ (1 ≤ c.decInMax ∧ c.decInMax ≤ 2 ^ 23) ∧
    (1 ≤ c.decOutMax ∧ c.decOutMax ≤ 2 ^ 24) ∧ c.lzwBase % 2 ^ 27 = 0

/-- The suggested values of R8 and of the parameter table of 92_eei_decisions.md.
DESIGN CHOICE for the reset state (log 1). -/
def Config.suggested : Config :=
  { encInMax := 65536, decInMax := 4096, decOutMax := 65536, lzwBase := 0 }

/-- FREE VALUE: the arbitrary stored content of element `i` of `ENC_IBUF` after the `r`-th reset (R272, 93 U5; log 5). -/
opaque Config.encIbufFill : Nat → Nat → Byte

/-- FREE VALUE: the arbitrary stored content of element `i` of `DEC_IBUF` after the `r`-th reset (R272, 93 U5; log 5). -/
opaque Config.decIbufFill : Nat → Nat → Code

/-- FREE VALUE: what the `n`-th read of an unspecified element of `ENC_OBUF` returns (R68, 93 U2; log 6). -/
opaque Config.freeCode : Nat → Code

/-- FREE VALUE: what the `n`-th read of an unspecified element of `DEC_OBUF` returns (R68, 93 U2; log 6). -/
opaque Config.freeByte : Nat → Byte

/-- FREE VALUE: which of several entries with equal patterns a lookup by pattern answers (R125, 93 U3; log 10). -/
opaque Config.findpChoice : List Code → Nat

/-- FREE VALUE: which of several entries with equal codes a lookup by code answers (R126; log 10). -/
opaque Config.findcChoice : List Pattern → Nat

end Sys2Proof
end

