-- ==== Sys2Proof/Syntax.lean ====
section
/-! DEFINITION. The operations of LZWCORE: one constructor of `Instr` for each of the 28 rows of spec/opcode_table.json,
and what selects them: code words, bus accesses, and the conditions of the selection table R98. -/

namespace Sys2Proof

/-- The two engines (R3, R20). The same type names the dictionaries: DICT_E is ENC's and DICT_D is DEC's (R3). -/
inductive Engine
  | enc
  | dec
deriving DecidableEq, Repr

/-- The register operand of R200 and R201: one of the fourteen registers of R38, or a reserved offset of the REG window. -/
inductive Reg
  | id
  | encInMax
  | decInMax
  | decOutMax
  | ctrl (g : Engine)
  | status (g : Engine)
  | ilen (g : Engine)
  | ocnt (g : Engine)
  | errinfo (g : Engine)
  | reserved (offset : Nat)
deriving DecidableEq, Repr

/-- The four buffer spaces (R35, R60). -/
inductive Space
  | encIbuf
  | encObuf
  | decIbuf
  | decObuf
deriving DecidableEq, Repr

/-- One constructor per row of spec/opcode_table.json. -/
inductive Instr
  /-- `LIT` (R92): the code word `00000000 bbbbbbbb`. -/
  | lit (b : Byte)
  /-- `REF` (R93): a code word that is not `LIT`; the whole word is the code. -/
  | ref (c : Code)
  /-- `ENC.START` (R96, R140): a word with bit 0 = 1 written to `ENC_CTRL`; `x` is its ignored bits [31:1]. -/
  | encStart (x : BitVec 31)
  /-- `DEC.START` (R96, R170): a word with bit 0 = 1 written to `DEC_CTRL`; `x` is its ignored bits [31:1]. -/
  | decStart (x : BitVec 31)
  /-- `HOST.RDREG` (R200). -/
  | hostRdreg (r : Reg)
  /-- `HOST.WRREG` (R201). -/
  | hostWrreg (r : Reg) (v : Word)
  /-- `HOST.RDBUF` (R202). -/
  | hostRdbuf (S : Space) (i : Nat)
  /-- `HOST.WRBUF` (R203); a byte space takes the low 8 bits of `v`. -/
  | hostWrbuf (S : Space) (i : Nat) (v : BitVec 16)
  /-- `DICT.CLEAR` (R120). -/
  | dictClear (T : Engine)
  /-- `DICT.INSERT` (R121 to R124). -/
  | dictInsert (T : Engine) (p : Pattern)
  /-- `DICT.FINDP` (R125). -/
  | dictFindp (T : Engine) (p : Pattern)
  /-- `DICT.FINDC` (R126). -/
  | dictFindc (T : Engine) (k : Code)
  /-- `ENC.SCAN` (R141). -/
  | encScan
  /-- `ENC.SCANEND` (R142). -/
  | encScanEnd
  /-- `ENC.HIT` (R143). -/
  | encHit
  /-- `ENC.MISS` (R144). -/
  | encMiss
  /-- `ENC.FULL` (R145). -/
  | encFull
  /-- `ENC.EOI` (R146). -/
  | encEoi
  /-- `ENC.FLUSH` (R147). -/
  | encFlush
  /-- `DEC.SCAN` (R171). -/
  | decScan
  /-- `DEC.SCANEND` (R172). -/
  | decScanEnd
  /-- `DEC.FIRST` (R173). -/
  | decFirst
  /-- `DEC.BADFIRST` (R174). -/
  | decBadFirst
  /-- `DEC.KNOWN` (R175). -/
  | decKnown
  /-- `DEC.KWKWK` (R176). -/
  | decKwkwk
  /-- `DEC.FULL` (R177). -/
  | decFull
  /-- `DEC.OVF` (R178). -/
  | decOvf
  /-- `DEC.END` (R179). -/
  | decEnd
deriving DecidableEq, Repr

/-- The column `format` of spec/opcode_table.json (30_encoding.md). -/
inductive Format
  | code16
  | ctrl32
  | bus
  | dictOp
  | encFsm
  | decFsm
deriving DecidableEq, Repr

/-- The format of each row. -/
def Instr.format : Instr → Format
  | .lit _ | .ref _ => .code16
  | .encStart _ | .decStart _ => .ctrl32
  | .hostRdreg _ | .hostWrreg _ _ | .hostRdbuf _ _ | .hostWrbuf _ _ _ => .bus
  | .dictClear _ | .dictInsert _ _ | .dictFindp _ _ | .dictFindc _ _ => .dictOp
  | .encScan | .encScanEnd | .encHit | .encMiss | .encFull | .encEoi | .encFlush => .encFsm
  | .decScan | .decScanEnd | .decFirst | .decBadFirst | .decKnown | .decKwkwk | .decFull | .decOvf | .decEnd => .decFsm

/-- The kind of a bus access (R97). -/
inductive AccessKind
  | read
  | write
deriving DecidableEq, Repr

/-- One host access on the bus (R61, R63, R97): its kind, its width in bits, its byte address, and for a write its data
(an 8-bit or 16-bit write carries its value in the low bits). -/
structure BusAccess where
  kind : AccessKind
  bits : Nat
  addr : Nat
  data : Word
deriving DecidableEq, Repr

/-- Where the input cursor stands against the input length: the conditions `IPOS < ILEN` and `IPOS = ILEN` of R98, and the
case R23 rules out. -/
inductive Cursor
  | before
  | atEnd
  | past
deriving DecidableEq, Repr

/-- The conditions R98 selects an ENC step by: `STATE`, the cursor, whether `FINDP(P ++ [c]) ≠ none`, and whether `NENT` has
reached 4096. -/
structure EncCond where
  state : BitVec 3
  cursor : Cursor
  hit : Bool
  full : Bool
deriving DecidableEq, Repr

/-- The conditions R98 selects a DEC step by: `STATE`, whether `ILEN = 0`, the cursor, whether `FINDC` of the code at the
cursor is not `none` (in FIRST: of `DEC_IBUF:0`), whether `NENT` has reached 4096, and whether
`OPOS + len(next) ≤ DEC_OUT_MAX`. -/
structure DecCond where
  state : BitVec 3
  empty : Bool
  cursor : Cursor
  found : Bool
  full : Bool
  fits : Bool
deriving DecidableEq, Repr

/-- What selects an operation (R90, R96 to R98): a code word, a bus access, or the conditions of an engine. -/
inductive Selector
  | code (w : Code)
  | bus (a : BusAccess)
  | encFsm (c : EncCond)
  | decFsm (c : DecCond)
deriving DecidableEq, Repr

end Sys2Proof
end

