-- ==== Sys2Proof/WellFormed.lean ====
section
/-! DEFINITION. The operands each operation of spec/opcode_table.json admits, as a Boolean check. -/

namespace Sys2Proof

/-- The number of elements of a buffer space (R60). -/
def Space.count (cfg : Config) : Space → Nat
  | .encIbuf => cfg.encInMax
  | .encObuf => encOutMax
  | .decIbuf => cfg.decInMax
  | .decObuf => cfg.decOutMax

/-- Is the space an input buffer, the only ones the host may write (R203, R63)? -/
def Space.isInput : Space → Bool
  | .encIbuf | .decIbuf => true
  | .encObuf | .decObuf => false

/-- The offsets of the fourteen registers in the REG window (R38). -/
def Reg.listedOffsets : List Nat :=
  [0x000, 0x004, 0x008, 0x00C, 0x010, 0x014, 0x018, 0x01C, 0x020, 0x030, 0x034, 0x038, 0x03C, 0x040]

/-- A register operand: one of the fourteen, or an aligned offset of the REG window that R38 does not list. -/
def Reg.wellFormed : Reg → Bool
  | .reserved off => decide (off < 0x1000) && off % 4 == 0 && !(Reg.listedOffsets.contains off)
  | _ => true

/-- Is this register write the START command of R96, which the table gives a row of its own? -/
def Reg.isStartWrite (r : Reg) (v : Word) : Bool :=
  match r with
  | .ctrl _ => v.getLsbD 0
  | _ => false

/-- The operands the spec admits: `REF` codes are at least 256 (R93); a register write that is a START is the START row
(R96); buffer indices are below the element count (R202, R203); only input buffers are written, with a value of the element's
width (R203); `DICT.INSERT` takes 1 to 4096 bytes (its row of the table; R121 sets no upper bound). -/
def Instr.wellFormed (cfg : Config) : Instr → Bool
  | .ref c => decide (256 ≤ c.toNat)
  | .hostRdreg r => r.wellFormed
  | .hostWrreg r v => r.wellFormed && !(r.isStartWrite v)
  | .hostRdbuf S i => decide (i < S.count cfg)
  | .hostWrbuf S i v => S.isInput && decide (i < S.count cfg) && (S != .encIbuf || decide (v.toNat < 256))
  | .dictInsert _ p => decide (1 ≤ p.length) && decide (p.length ≤ maxPat)
  | .lit _ | .encStart _ | .decStart _ | .dictClear _ | .dictFindp _ _ | .dictFindc _ _ => true
  | .encScan | .encScanEnd | .encHit | .encMiss | .encFull | .encEoi | .encFlush => true
  | .decScan | .decScanEnd | .decFirst | .decBadFirst | .decKnown | .decKwkwk | .decFull | .decOvf | .decEnd => true

end Sys2Proof
end

