-- ==== Sys2Proof/Decode.lean ====
section
/-! DEFINITION. Decoding (spec/30_encoding.md): code words (R91 to R95), bus accesses with the START words among them
(R61, R63, R96, R97), and the step selection table (R98); then the encoder, written from the same tables. -/

namespace Sys2Proof

/-- Why bits select nothing: the invalid accesses of R63 and R205 by name, conditions of an engine under which R98 has no row,
and a code word cut short. -/
inductive DecodeError
  /-- An access of a width its space does not accept (R63). -/
  | wrongWidth
  /-- A misaligned access (R63). -/
  | misaligned
  /-- An offset in no window (R61, R63). -/
  | unmapped
  /-- An element index at or above the buffer's element count (R61, R205). -/
  | pastEnd
  /-- A write to an output buffer space (R63, R205). -/
  | readOnly
  /-- No row of R98 applies: an idle engine, a `STATE` of 4 to 7 (R22), or a cursor past the input (R23). -/
  | noStep
  /-- Fewer than the two bytes of a code word. -/
  | truncated
deriving DecidableEq, Repr

/-! ### Code words -/

/-- Is the code a literal code, `code ≤ 255`, `code[15:8] = 0` (R92)? -/
def isLitCode (w : Code) : Bool := w.toNat ≤ 255

/-- A code word is `LIT` or `REF`; no value is illegal (R91 to R93). -/
def decodeCode (w : Code) : Instr :=
  if isLitCode w then .lit (byteOfCode w) else .ref w

/-- A code word as the two bytes of its little-endian image (R62), with the bytes that follow it. -/
def decodeCodeBytes : List Byte → Except DecodeError (Instr × List Byte)
  | lo :: hi :: rest => .ok (decodeCode (hi.zeroExtend 16 <<< 8 ||| lo.zeroExtend 16), rest)
  | _ => .error .truncated

/-! ### Bus accesses -/

/-- The register at an offset of the REG window (R38). -/
def regAt (off : Nat) : Reg :=
  match off with
  | 0x000 => .id
  | 0x004 => .encInMax
  | 0x008 => .decInMax
  | 0x00C => .decOutMax
  | 0x010 => .ctrl .enc
  | 0x014 => .status .enc
  | 0x018 => .ilen .enc
  | 0x01C => .ocnt .enc
  | 0x020 => .errinfo .enc
  | 0x030 => .ctrl .dec
  | 0x034 => .status .dec
  | 0x038 => .ilen .dec
  | 0x03C => .ocnt .dec
  | 0x040 => .errinfo .dec
  | o => .reserved o

/-- A register write: a START word (R96), else `HOST.WRREG` (R201; log 14). -/
def decodeRegWrite (r : Reg) (v : Word) : Instr :=
  if r.isStartWrite v then
    match r with
    | .ctrl .enc => .encStart (v.extractLsb' 1 31)
    | .ctrl .dec => .decStart (v.extractLsb' 1 31)
    | _ => .hostWrreg r v
  else .hostWrreg r v

/-- An access in the REG window: 32 bits, offset a multiple of 4 (R63). -/
def decodeReg (a : BusAccess) (off : Nat) : Except DecodeError Instr :=
  if a.bits ≠ 32 then .error .wrongWidth
  else if off % 4 ≠ 0 then .error .misaligned
  else
    match a.kind with
    | .read => .ok (.hostRdreg (regAt off))
    | .write => .ok (decodeRegWrite (regAt off) a.data)

/-- The element width of a space in bytes (R60). -/
def Space.elemBytes : Space → Nat
  | .encIbuf | .decObuf => 1
  | .encObuf | .decIbuf => 2

/-- The first offset of a space's window (R61). -/
def Space.window : Space → Nat
  | .encIbuf => 0x1000000
  | .encObuf => 0x2000000
  | .decIbuf => 0x3000000
  | .decObuf => 0x4000000

/-- The value an element write carries, at the width of the space's element. -/
def busValue (S : Space) (v : Word) : BitVec 16 :=
  match S with
  | .encIbuf | .decObuf => (v.truncate 8).zeroExtend 16
  | .encObuf | .decIbuf => v.truncate 16

/-- An access at offset `rel` from the first offset of the window of `S` (R61, R63). -/
def decodeBuf (cfg : Config) (S : Space) (a : BusAccess) (rel : Nat) : Except DecodeError Instr :=
  if a.bits ≠ 8 * S.elemBytes then .error .wrongWidth
  else if rel % S.elemBytes ≠ 0 then .error .misaligned
  else if S.count cfg ≤ rel / S.elemBytes then .error .pastEnd
  else
    match a.kind with
    | .read => .ok (.hostRdbuf S (rel / S.elemBytes))
    | .write =>
      if S.isInput then .ok (.hostWrbuf S (rel / S.elemBytes) (busValue S a.data)) else .error .readOnly

/-- An access at an offset from `LZW_BASE`, by the windows of R61. -/
def decodeOffset (cfg : Config) (a : BusAccess) (off : Nat) : Except DecodeError Instr :=
  if off < 0x1000 then decodeReg a off
  else if off < 0x1000000 then .error .unmapped
  else if off < 0x2000000 then decodeBuf cfg .encIbuf a (off - 0x1000000)
  else if off < 0x2002000 then decodeBuf cfg .encObuf a (off - 0x2000000)
  else if off < 0x3000000 then .error .unmapped
  else if off < 0x4000000 then decodeBuf cfg .decIbuf a (off - 0x3000000)
  else if off < 0x5000000 then decodeBuf cfg .decObuf a (off - 0x4000000)
  else .error .unmapped

/-- A host access, or the reason it is invalid (R61, R63, R97; the reason's name is the model's, log 20). -/
def decodeBus (cfg : Config) (a : BusAccess) : Except DecodeError Instr :=
  if a.addr < cfg.lzwBase then .error .unmapped else decodeOffset cfg a (a.addr - cfg.lzwBase)

/-! ### Step selection -/

/-- The ENC rows of R98. -/
def decodeEncCond (c : EncCond) : Except DecodeError Instr :=
  match c.state, c.cursor with
  | 1#3, .before => .ok .encScan
  | 1#3, .atEnd => .ok .encScanEnd
  | 2#3, .before => .ok (if c.hit then .encHit else if c.full then .encFull else .encMiss)
  | 2#3, .atEnd => .ok .encEoi
  | 3#3, _ => .ok .encFlush
  | _, _ => .error .noStep

/-- The DEC rows of R98. -/
def decodeDecCond (c : DecCond) : Except DecodeError Instr :=
  match c.state, c.cursor with
  | 1#3, .before => .ok .decScan
  | 1#3, .atEnd => .ok .decScanEnd
  | 2#3, _ => .ok (if c.empty || !c.found then .decBadFirst else .decFirst)
  | 3#3, .atEnd => .ok .decEnd
  | 3#3, .before =>
    .ok (if c.full then .decFull else if !c.fits then .decOvf else if c.found then .decKnown else .decKwkwk)
  | _, _ => .error .noStep

/-- The operation anything that selects one selects; total, rejecting by name. -/
def decode (cfg : Config) : Selector → Except DecodeError Instr
  | .code w => .ok (decodeCode w)
  | .bus a => decodeBus cfg a
  | .encFsm c => decodeEncCond c
  | .decFsm c => decodeDecCond c

/-- The table's numbered words: 16 bits are a code word, given to the decoder as its two bytes (R62, R91); 32 bits are the
command word written to `ENC_CTRL` (R96). The rows `ENC.START` and `DEC.START` have the same word, match and mask, and differ
only in the register it is written to, so the word alone selects the first (log 15). The other rows have no bits. -/
def decodeTableWord (nbits w : Nat) : Option Instr :=
  match nbits with
  | 16 => (decodeCodeBytes [BitVec.ofNat 8 w, BitVec.ofNat 8 (w / 256)]).toOption.map Prod.fst
  | 32 => (decodeBus Config.suggested ⟨.write, 32, 0x010, BitVec.ofNat 32 w⟩).toOption
  | _ => none

/-! ### The encoder -/

/-- The offset of a register (R38). -/
def Reg.offset : Reg → Nat
  | .id => 0x000
  | .encInMax => 0x004
  | .decInMax => 0x008
  | .decOutMax => 0x00C
  | .ctrl .enc => 0x010
  | .status .enc => 0x014
  | .ilen .enc => 0x018
  | .ocnt .enc => 0x01C
  | .errinfo .enc => 0x020
  | .ctrl .dec => 0x030
  | .status .dec => 0x034
  | .ilen .dec => 0x038
  | .ocnt .dec => 0x03C
  | .errinfo .dec => 0x040
  | .reserved off => off

/-- The bus access that reads a register (R61, R63). -/
def readReg (cfg : Config) (r : Reg) : BusAccess := ⟨.read, 32, cfg.lzwBase + r.offset, 0⟩

/-- The bus access that writes a register (R61, R63). -/
def writeReg (cfg : Config) (r : Reg) (v : Word) : BusAccess := ⟨.write, 32, cfg.lzwBase + r.offset, v⟩

/-- The bus access that reads an element (R61, R63). -/
def readElem (cfg : Config) (S : Space) (i : Nat) : BusAccess :=
  ⟨.read, 8 * S.elemBytes, cfg.lzwBase + S.window + S.elemBytes * i, 0⟩

/-- The bus access that writes an element (R61, R63). -/
def writeElem (cfg : Config) (S : Space) (i : Nat) (v : BitVec 16) : BusAccess :=
  ⟨.write, 8 * S.elemBytes, cfg.lzwBase + S.window + S.elemBytes * i, v.zeroExtend 32⟩

/-- A START word: bit 0 is 1 and bits [31:1] are `x` (R96). -/
def startWord (x : BitVec 31) : Word := (x ++ 1#1).cast rfl

/-- What selects an operation, by the tables of 30_encoding.md; the dictionary operations are selected by nothing (R99).
For an engine step it is one set of conditions under which R98 selects it. -/
def encode (cfg : Config) : Instr → Option Selector
  | .lit b => some (.code (codeOfByte b))
  | .ref c => some (.code c)
  | .encStart x => some (.bus (writeReg cfg (.ctrl .enc) (startWord x)))
  | .decStart x => some (.bus (writeReg cfg (.ctrl .dec) (startWord x)))
  | .hostRdreg r => some (.bus (readReg cfg r))
  | .hostWrreg r v => some (.bus (writeReg cfg r v))
  | .hostRdbuf S i => some (.bus (readElem cfg S i))
  | .hostWrbuf S i v => some (.bus (writeElem cfg S i v))
  | .dictClear _ | .dictInsert _ _ | .dictFindp _ _ | .dictFindc _ _ => none
  | .encScan => some (.encFsm ⟨1, .before, false, false⟩)
  | .encScanEnd => some (.encFsm ⟨1, .atEnd, false, false⟩)
  | .encHit => some (.encFsm ⟨2, .before, true, false⟩)
  | .encMiss => some (.encFsm ⟨2, .before, false, false⟩)
  | .encFull => some (.encFsm ⟨2, .before, false, true⟩)
  | .encEoi => some (.encFsm ⟨2, .atEnd, false, false⟩)
  | .encFlush => some (.encFsm ⟨3, .atEnd, false, false⟩)
  | .decScan => some (.decFsm ⟨1, false, .before, false, false, false⟩)
  | .decScanEnd => some (.decFsm ⟨1, false, .atEnd, false, false, false⟩)
  | .decFirst => some (.decFsm ⟨2, false, .atEnd, true, false, false⟩)
  | .decBadFirst => some (.decFsm ⟨2, true, .atEnd, false, false, false⟩)
  | .decKnown => some (.decFsm ⟨3, false, .before, true, false, true⟩)
  | .decKwkwk => some (.decFsm ⟨3, false, .before, false, false, true⟩)
  | .decFull => some (.decFsm ⟨3, false, .before, false, true, false⟩)
  | .decOvf => some (.decFsm ⟨3, false, .before, false, false, false⟩)
  | .decEnd => some (.decFsm ⟨3, false, .atEnd, false, false, false⟩)

end Sys2Proof
end

