-- ==== Sys2Proof/Machine/State.lean ====
section
/-! DEFINITION. The state of LZWCORE (spec/10_state.md R21: "the following, and nothing else"), the reset state (R47), and
the reasons a step can stop. State is plain data. -/

namespace Sys2Proof.Machine

/-- `ENC.STATE` (R22). -/
inductive EncPhase
  | idle
  | scan
  | matching
  | flush
deriving DecidableEq, Repr

/-- `DEC.STATE` (R22). -/
inductive DecPhase
  | idle
  | scan
  | first
  | loop
deriving DecidableEq, Repr

/-- `G.ERRCODE` (R30, R240). -/
inductive ErrCode
  | none
  | capacity
  | malformed
  | overflow
  | badlen
deriving DecidableEq, Repr

/-- A dictionary entry (R31): a code and a pattern with its full content. -/
structure Entry where
  code : Code
  pat : Pattern
deriving DecidableEq, Repr

/-- A dictionary (R32, R33): `ENT` in insertion order, and `NEXT`. `NENT` "always equals the length of `T.ENT`" (R21) and is
read as that length, `Dict.nent` (log 7). -/
structure Dict where
  ent : List Entry
  next : Code
deriving DecidableEq, Repr

/-- A buffer memory (R35): the elements written since reset, by element index, indices strictly rising. An element that is not
listed has had no value written since reset. For a byte buffer this is a list of `Host.Cell`. -/
abbrev Buf (w : Nat) := List (Nat × BitVec w)

/-- The registers both engines have (R21): `ILEN`, `IPOS`, `OPOS`, `OCNT`, `DONE`, `ERR`, `ERRCODE`, `ERRINFO`. -/
structure CallRegs where
  ilen : Word
  ipos : Word
  opos : Word
  ocnt : Word
  done : Bool
  err : Bool
  errcode : ErrCode
  errinfo : Word
deriving DecidableEq, Repr

/-- ENC with its dictionary DICT_E and its buffers (R20, R21). -/
structure EncState where
  phase : EncPhase
  regs : CallRegs
  p : Pattern
  dict : Dict
  ibuf : Buf 8
  obuf : Buf 16
deriving DecidableEq, Repr

/-- DEC with its dictionary DICT_D and its buffers (R20, R21). -/
structure DecState where
  phase : DecPhase
  regs : CallRegs
  last : Pattern
  dict : Dict
  ibuf : Buf 16
  obuf : Buf 8
deriving DecidableEq, Repr

/-- One entry of the total order of steps (R70, R280): a host access, a turn of an engine, or RESET (R270). -/
inductive Event
  | host (a : BusAccess)
  | turn (g : Engine)
  | reset
deriving DecidableEq, Repr

/-- What the latest host access returned to the host (the model's own field, log 8): the value of a register read (R200) or of
an element read (R202), the acknowledgement of a write, or the bus error of an invalid access (R205). -/
inductive Reply
  | none
  | reg (v : Word)
  | elem (v : BitVec 16)
  | ack
  | busError (why : DecodeError)
deriving DecidableEq, Repr

/-- What the latest dictionary operation run as an instruction of its own returned (the model's own field, log 8):
nothing (R120), a code (R121), an optional code (R125), an optional pattern (R126), or the failure of R123. -/
inductive DictRet
  | none
  | code (k : Code)
  | optCode (k : Option Code)
  | optPattern (p : Option Pattern)
  | failed
deriving DecidableEq, Repr

/-- The machine. `cfg` is configuration (R48, log 1); `enc` and `dec` are the whole architectural state of R21; the other six
fields are the model's own (INVENTORY.md, State). `script` is the rest of the order of steps up to where `cycle` takes over:
what then repeats for ever, such as a host that polls and never stops (log 2, log 3). -/
structure State where
  cfg : Config
  enc : EncState
  dec : DecState
  script : List Event
  cycle : List Event
  reply : Reply
  dictRet : DictRet
  freeReads : Nat
  resets : Nat
deriving DecidableEq, Repr

/-- Why a step stops. No state that meets the invariant of Safety.lean stops; each of these is safe: the model answers nothing
where the spec gives no step. -/
inductive Fault
  /-- Raised by an engine step or a code word run in a state in which R98 does not select it, where the spec gives it no
  effect: "no step is enabled" (93_implementation_defined.md U16). Safe (log 11). -/
  | notEnabled
  /-- Raised by an engine step that would reach an element its buffer does not have; R64: "Every engine access is in range".
  Safe (log 12). -/
  | outOfRange
  /-- Raised by `ENC.MISS` and `ENC.FLUSH` when `ENC.P` is in no entry; R148: "a branch that no state of this hardware reaches".
  Safe (log 12). -/
  | patternAbsent
  /-- Raised by a DEC step that needs the first byte of an empty pattern, or by `DEC.FIRST` on a pattern that is not one byte;
  R28, R173 and R184 exclude both. Safe (log 12). -/
  | patternShape
  /-- Raised by `DICT.INSERT` of the empty pattern into a dictionary with room, an operand R121 does not admit ("`len(p) ≥ 1`").
  Safe (log 17). -/
  | illegalOperand
deriving DecidableEq, Repr

/-- Why an instruction has no meaning. -/
inductive Refusal
  /-- An instruction whose arm gives it no meaning yet; no arm of this model does. Safe. -/
  | notModelled (mnemonic : String)
deriving DecidableEq, Repr

/-! ### Reset -/

/-- The emptied dictionary (R47, R120). -/
def Dict.empty : Dict := { ent := [], next := 256 }

/-- Every call register at 0 (R47). -/
def CallRegs.zero : CallRegs :=
  { ilen := 0, ipos := 0, opos := 0, ocnt := 0, done := false, err := false, errcode := .none, errinfo := 0 }

/-- ENC after reset (R47); buffer content arbitrary (R272): no element listed. -/
def EncState.reset : EncState :=
  { phase := .idle, regs := .zero, p := [], dict := .empty, ibuf := [], obuf := [] }

/-- DEC after reset (R47); buffer content arbitrary (R272): no element listed. -/
def DecState.reset : DecState :=
  { phase := .idle, regs := .zero, last := [], dict := .empty, ibuf := [], obuf := [] }

/-- The machine right after reset (R47), for the suggested parameters (log 1), with nothing in the script and no cycle (log 4). -/
def State.reset : State :=
  { cfg := .suggested, enc := .reset, dec := .reset, script := [], cycle := [], reply := .none,
    dictRet := .none, freeReads := 0, resets := 0 }

/-! ### Named updates -/

/-- Replace ENC's state. -/
def State.withEnc (s : State) (e : EncState) : State := { s with enc := e }

/-- Replace DEC's state. -/
def State.withDec (s : State) (d : DecState) : State := { s with dec := d }

/-- Replace the rest of the order of steps. -/
def State.withScript (s : State) (l : List Event) : State := { s with script := l }

/-- Replace what repeats for ever when the script has ended. -/
def State.withCycle (s : State) (l : List Event) : State := { s with cycle := l }

/-- Replace what the host sees of its access. -/
def State.withReply (s : State) (r : Reply) : State := { s with reply := r }

/-- Replace the result of a dictionary operation. -/
def State.withDictRet (s : State) (r : DictRet) : State := { s with dictRet := r }

/-- Replace the counter of unspecified reads. -/
def State.withFreeReads (s : State) (n : Nat) : State := { s with freeReads := n }

end Sys2Proof.Machine
end

