-- ==== Sys2Proof/Machine/Flags.lean ====
section
/-! DEFINITION. The flags and status of an engine (spec/10_state.md R29, R30, R42; 60_exceptions.md R240): their numbers, the
status word, and the three ways a call writes them: START, a successful end, the error entry. -/

namespace Sys2Proof.Machine

/-- The number of `ENC.STATE` (R22). -/
def EncPhase.num : EncPhase → BitVec 3
  | .idle => 0
  | .scan => 1
  | .matching => 2
  | .flush => 3

/-- The number of `DEC.STATE` (R22). -/
def DecPhase.num : DecPhase → BitVec 3
  | .idle => 0
  | .scan => 1
  | .first => 2
  | .loop => 3

/-- The number of an error code (R240). -/
def ErrCode.num : ErrCode → BitVec 4
  | .none => 0
  | .capacity => 1
  | .malformed => 2
  | .overflow => 3
  | .badlen => 4

/-- `G_STATUS` (R42, R200): STATE in [2:0], DONE in [4], ERR in [5], ERRCODE in [11:8], the other bits 0. -/
def CallRegs.statusWord (c : CallRegs) (phase : BitVec 3) : Word :=
  phase.zeroExtend 32 ||| (BitVec.ofBool c.done).zeroExtend 32 <<< 4 ||| (BitVec.ofBool c.err).zeroExtend 32 <<< 5 |||
    c.errcode.num.zeroExtend 32 <<< 8

/-- START (R140, R170): flags, error, count and cursors cleared; `ILEN` kept. -/
def CallRegs.cleared (c : CallRegs) : CallRegs :=
  { c with done := false, err := false, errcode := .none, errinfo := 0, ocnt := 0, opos := 0, ipos := 0 }

/-- The error entry (R250): `IPOS` and `ILEN` keep their values. -/
def CallRegs.failed (c : CallRegs) (code : ErrCode) (info : Word) : CallRegs :=
  { c with done := false, err := true, errcode := code, errinfo := info, ocnt := 0, opos := 0 }

/-- A START refused for its length (R140, R170, R247). -/
def CallRegs.badLen (c : CallRegs) : CallRegs :=
  { c.cleared with err := true, errcode := .badlen, errinfo := c.ilen }

/-- A successful end with `n` output elements (R147, R179). -/
def CallRegs.finished (c : CallRegs) (n : Word) : CallRegs := { c with ocnt := n, opos := n, done := true }

end Sys2Proof.Machine
end

