-- ==== Sys2Proof/Machine/Ops.lean ====
section
/-! DEFINITION. The named operations the meanings share: elements of buffers, the four dictionary operations
(spec/40_dictionary.md), START (R140, R170), the error entry (R250) and RESET (R270). -/

namespace Sys2Proof.Machine

/-! ### Buffers -/

/-- The value written to element `i` since reset, if any. -/
def Buf.get? {w : Nat} : Buf w → Nat → Option (BitVec w)
  | [], _ => none
  | (j, v) :: b, i => if j = i then some v else Buf.get? b i

/-- `MemWrite(S:i, 1, v)` (R12): one element written, indices kept strictly rising. -/
def Buf.set {w : Nat} : Buf w → Nat → BitVec w → Buf w
  | [], i, v => [(i, v)]
  | (j, u) :: b, i, v =>
    if i < j then (i, v) :: (j, u) :: b else if i = j then (i, v) :: b else (j, u) :: Buf.set b i v

/-- `MemWrite(S:i, n, v)` (R12): consecutive elements from index `i`. -/
def Buf.setMany {w : Nat} : Buf w → Nat → List (BitVec w) → Buf w
  | b, _, [] => b
  | b, i, v :: vs => Buf.setMany (Buf.set b i v) (i + 1) vs

/-- The canonical form: every index greater than those before it and below the element count `n`. -/
def Buf.wfFrom {w : Nat} (n : Nat) : Nat → Buf w → Bool
  | _, [] => true
  | lo, (j, _) :: b => decide (lo ≤ j) && decide (j < n) && Buf.wfFrom n (j + 1) b

/-- The canonical form of a buffer of `n` elements: indices strictly rising, all below `n`. No entry can equal what an unlisted
element reads as, since that is no value. -/
abbrev Buf.wf {w : Nat} (n : Nat) (b : Buf w) : Prop := Buf.wfFrom n 0 b = true

/-- The canonical form of the machine's memory: all four buffers. -/
abbrev Memory.wf (s : State) : Prop :=
  Buf.wf s.cfg.encInMax s.enc.ibuf ∧ Buf.wf encOutMax s.enc.obuf ∧
    Buf.wf s.cfg.decInMax s.dec.ibuf ∧ Buf.wf s.cfg.decOutMax s.dec.obuf

/-! ### The dictionary -/

/-- `T.NENT` (R32): the number of entries. -/
def Dict.nent (d : Dict) : Nat := d.ent.length

/-- Has the dictionary no room for one more entry (R123)? `NENT` never exceeds 4096 (R34 item 4, log 16). -/
def Dict.full (d : Dict) : Bool := decide (dictCap ≤ d.nent)

/-- One of several matches, by a free choice; a single match whatever the choice (log 10). -/
def pickMatch {α : Type} (choice : List α → Nat) : List α → Option α
  | [] => none
  | [x] => some x
  | x :: y :: rest => some ((x :: y :: rest).getD (choice (x :: y :: rest) % (rest.length + 2)) x)

/-- The codes of the entries whose pattern is `p`. -/
def Dict.codesOf (d : Dict) (p : Pattern) : List Code := (d.ent.filter (fun e => e.pat == p)).map Entry.code

/-- The patterns of the entries whose code is `k`. -/
def Dict.patternsOf (d : Dict) (k : Code) : List Pattern := (d.ent.filter (fun e => e.code == k)).map Entry.pat

/-- `DICT.FINDP` (R125): by equality of the whole pattern; how an entry is found is not architectural (R127). -/
def Dict.findP (d : Dict) (p : Pattern) : Option Code := pickMatch Config.findpChoice (d.codesOf p)

/-- `DICT.FINDC` (R126): by equality of the whole code; how an entry is found is not architectural (R127). -/
def Dict.findC (d : Dict) (k : Code) : Option Pattern := pickMatch Config.findcChoice (d.patternsOf k)

/-- `DICT.INSERT` (R121): the code assigned and the dictionary after it, or `none` for CAPACITY, which changes nothing (R123).
A one-byte pattern takes its byte's value and leaves `NEXT` (R122); no duplicate check (R124). -/
def Dict.insert (d : Dict) (p : Pattern) : Option (Code × Dict) :=
  if d.full then none
  else
    match p with
    | [b] => some (codeOfByte b, { d with ent := d.ent ++ [⟨codeOfByte b, [b]⟩] })
    | p => some (d.next, { ent := d.ent ++ [⟨d.next, p⟩], next := d.next + 1 })

/-- The dictionary of an engine (R3). -/
def State.dictOf (s : State) : Engine → Dict
  | .enc => s.enc.dict
  | .dec => s.dec.dict

/-- Replace the dictionary of an engine. -/
def State.setDict (s : State) (g : Engine) (d : Dict) : State :=
  match g with
  | .enc => s.withEnc { s.enc with dict := d }
  | .dec => s.withDec { s.dec with dict := d }

/-! ### Taking an error, starting, resetting -/

/-- `raise Fail(code, info)` in ENC (R250): the whole effect of the step. There is no handler and no return; recovery is the
next START (R252). -/
def EncState.fail (e : EncState) (code : ErrCode) (info : Word) : EncState :=
  { e with phase := .idle, regs := e.regs.failed code info, p := [], dict := .empty }

/-- `raise Fail(code, info)` in DEC (R250). -/
def DecState.fail (d : DecState) (code : ErrCode) (info : Word) : DecState :=
  { d with phase := .idle, regs := d.regs.failed code info, last := [], dict := .empty }

/-- `raise Fail(code, info)` in either engine (R250). -/
def State.fail (s : State) (g : Engine) (code : ErrCode) : State :=
  match g with
  | .enc => s.withEnc (s.enc.fail code s.enc.regs.ipos)
  | .dec => s.withDec (s.dec.fail code s.dec.regs.ipos)

/-- `ENC.START` (R140, R247): refused for a length beyond the input buffer; no effect while busy (R41). -/
def EncState.start (cfg : Config) (e : EncState) : EncState :=
  if e.phase = .idle then
    if cfg.encInMax < e.regs.ilen.toNat then { e with regs := e.regs.badLen, p := [], dict := .empty }
    else { e with phase := .scan, regs := e.regs.cleared, p := [], dict := .empty }
  else e

/-- `DEC.START` (R170, R247): refused for a length beyond the input buffer; no effect while busy (R41). -/
def DecState.start (cfg : Config) (d : DecState) : DecState :=
  if d.phase = .idle then
    if cfg.decInMax < d.regs.ilen.toNat then { d with regs := d.regs.badLen, last := [], dict := .empty }
    else { d with phase := .scan, regs := d.regs.cleared, last := [], dict := .empty }
  else d

/-- The START command of an engine. -/
def State.start (s : State) : Engine → State
  | .enc => s.withEnc (s.enc.start s.cfg)
  | .dec => s.withDec (s.dec.start s.cfg)

/-- RESET (R270): every piece of the block's state at its value of R47; buffer content not preserved and again arbitrary
(R272), so the counter its free value is drawn by advances. The configuration, the rest of the script and what the host has seen
are no state of the block (log 18). -/
def State.resetBlock (s : State) : State :=
  { s with enc := .reset, dec := .reset, resets := s.resets + 1 }

/-- Continue with ENC's new state, or stop. -/
def State.endEnc (s : State) : Except Fault EncState → Host.Outcome State Fault Refusal
  | .ok e => .next (s.withEnc e)
  | .error f => .fault f

/-- Continue with DEC's new state, or stop. -/
def State.endDec (s : State) : Except Fault DecState → Host.Outcome State Fault Refusal
  | .ok d => .next (s.withDec d)
  | .error f => .fault f

end Sys2Proof.Machine
end

