-- ==== Sys2Proof/Machine/Operands.lean ====
section
/-! DEFINITION. The operand forms: registers as the host reads them (spec/10_state.md R38 to R45, 43_host_interface.md R200),
elements of the buffer spaces (20_memory.md R68), the input element at an engine's cursor (R64), the decoder's `next` (R98), the
conditions of R98, and the byte image of R62. -/

namespace Sys2Proof.Machine

/-! ### Registers as read -/

/-- The call registers of an engine. -/
def State.regsOf (s : State) : Engine → CallRegs
  | .enc => s.enc.regs
  | .dec => s.dec.regs

/-- `G.STATE` as a number (R22). -/
def State.stateNum (s : State) : Engine → BitVec 3
  | .enc => s.enc.phase.num
  | .dec => s.dec.phase.num

/-- Is the engine idle (R22)? -/
def State.isIdle (s : State) (g : Engine) : Bool := s.stateNum g == 0

/-- The value a register reads as (R200). -/
def State.readReg (s : State) : Reg → Word
  | .id => 0x4C5A5701
  | .encInMax => BitVec.ofNat 32 s.cfg.encInMax
  | .decInMax => BitVec.ofNat 32 s.cfg.decInMax
  | .decOutMax => BitVec.ofNat 32 s.cfg.decOutMax
  | .ctrl _ => 0
  | .status g => (s.regsOf g).statusWord (s.stateNum g)
  | .ilen g => (s.regsOf g).ilen
  | .ocnt g => (s.regsOf g).ocnt
  | .errinfo g => (s.regsOf g).errinfo
  | .reserved _ => 0

/-! ### Elements of the buffer spaces -/

/-- The stored element `ENC_IBUF:i` (R68): the value last written, else its arbitrary stored reset content (log 5). -/
def EncState.inByte (resets : Nat) (e : EncState) (i : Nat) : Byte :=
  (e.ibuf.get? i).getD (Config.encIbufFill resets i)

/-- The stored element `DEC_IBUF:i` (R68): the value last written, else its arbitrary stored reset content (log 5). -/
def DecState.inCode (resets : Nat) (d : DecState) (i : Nat) : Code :=
  (d.ibuf.get? i).getD (Config.decIbufFill resets i)

/-- The value a host read of element `i` of `S` returns, when the spec gives it one; `none` where it is unspecified (R68, R202):
an output element at or beyond `OCNT`. -/
def State.specifiedElem (s : State) (S : Space) (i : Nat) : Option (BitVec 16) :=
  match S with
  | .encIbuf => some ((s.enc.inByte s.resets i).zeroExtend 16)
  | .decIbuf => some (s.dec.inCode s.resets i)
  | .encObuf => if i < s.enc.regs.ocnt.toNat then s.enc.obuf.get? i else none
  | .decObuf => if i < s.dec.regs.ocnt.toNat then (s.dec.obuf.get? i).map (·.zeroExtend 16) else none

/-- The free value the next unspecified read of `S` returns, of the width of its element (R68, log 6). -/
def State.unspecifiedElem (s : State) (S : Space) : BitVec 16 :=
  match S with
  | .encIbuf | .decObuf => (Config.freeByte s.freeReads).zeroExtend 16
  | .encObuf | .decIbuf => Config.freeCode s.freeReads

/-- A host read of an element (R202): no state of the block changes; an unspecified read advances the model's counter. -/
def State.readElem (s : State) (S : Space) (i : Nat) : State :=
  match s.specifiedElem S i with
  | some v => s.withReply (.elem v)
  | none => (s.withReply (.elem (s.unspecifiedElem S))).withFreeReads (s.freeReads + 1)

/-- A host write of an element of an input buffer (R203): stored while the engine is idle, else ignored (R69, R204). -/
def State.writeElem (s : State) (S : Space) (i : Nat) (v : BitVec 16) : State :=
  match S with
  | .encIbuf => if s.enc.phase = .idle then s.withEnc { s.enc with ibuf := s.enc.ibuf.set i (v.truncate 8) } else s
  | .decIbuf => if s.dec.phase = .idle then s.withDec { s.dec with ibuf := s.dec.ibuf.set i v } else s
  | .encObuf | .decObuf => s

/-! ### The element at an engine's cursor -/

/-- `IPOS` against `ILEN` (R98). -/
def CallRegs.cursor (c : CallRegs) : Cursor :=
  if c.ipos < c.ilen then .before else if c.ipos = c.ilen then .atEnd else .past

/-- `MemRead(ENC_IBUF:IPOS, 1)`, if the buffer has that element (R64). -/
def EncState.element (cfg : Config) (resets : Nat) (e : EncState) : Option Byte :=
  if e.regs.ipos.toNat < cfg.encInMax then some (e.inByte resets e.regs.ipos.toNat) else none

/-- The index of the code DEC's next step reads, in R23's words "the index of the next input element the current phase will read":
0 in FIRST (R173), where `IPOS` itself still is `ILEN` (R172, log 21), else `IPOS`. -/
def DecState.codeIndex (d : DecState) : Nat := if d.phase = .first then 0 else d.regs.ipos.toNat

/-- `MemRead(DEC_IBUF:i, 1)` at DEC's cursor, if the buffer has that element (R64). -/
def DecState.element (cfg : Config) (resets : Nat) (d : DecState) : Option Code :=
  if d.codeIndex < cfg.decInMax then some (d.inCode resets d.codeIndex) else none

/-- `len(next)` (R98): the length of the found pattern, or of `LAST` and one byte. -/
def DecState.nextLen (d : DecState) (k : Code) : Nat :=
  match d.dict.findC k with
  | some r => r.length
  | none => d.last.length + 1

/-- `OPOS + len(next) ≤ DEC_OUT_MAX` (R98), as an exact sum (R12). -/
def DecState.fits (cfg : Config) (d : DecState) (k : Code) : Bool := d.regs.opos.toNat + d.nextLen k ≤ cfg.decOutMax

/-- Does DEC's next step consume a code word: SCAN or LOOP with input left, FIRST with `ILEN ≥ 1` (R171, R173 to R178)? -/
def DecState.consumesCode (d : DecState) : Bool :=
  match d.phase with
  | .idle => false
  | .scan | .loop => d.regs.cursor == .before
  | .first => d.regs.ilen != 0

/-! ### The conditions of the selection table R98 -/

/-- ENC's conditions. -/
def EncState.cond (cfg : Config) (resets : Nat) (e : EncState) : EncCond :=
  { state := e.phase.num
    cursor := e.regs.cursor
    hit := match e.element cfg resets with
      | some c => (e.dict.findP (e.p ++ [c])).isSome
      | none => false
    full := e.dict.full }

/-- DEC's conditions. -/
def DecState.cond (cfg : Config) (resets : Nat) (d : DecState) : DecCond :=
  { state := d.phase.num
    empty := d.regs.ilen == 0
    cursor := d.regs.cursor
    found := match d.element cfg resets with
      | some k => (d.dict.findC k).isSome
      | none => false
    full := d.dict.full
    fits := match d.element cfg resets with
      | some k => d.fits cfg k
      | none => false }

/-- ENC's next step (R98). -/
def State.selectEnc (s : State) : Except DecodeError Instr := decodeEncCond (s.enc.cond s.cfg s.resets)

/-- DEC's next step (R98). -/
def State.selectDec (s : State) : Except DecodeError Instr := decodeDecCond (s.dec.cond s.cfg s.resets)

/-- The code word DEC's next step consumes, if it consumes one. -/
def State.fetchedCode (s : State) : Option Code :=
  if s.dec.consumesCode then s.dec.element s.cfg s.resets else none

/-! ### The byte image of a platform bridge -/

/-- Byte `n` of a value, little-endian (R62). -/
def byteOf {w : Nat} (v : BitVec w) (n : Nat) : Byte := v.extractLsb' (8 * n) 8

/-- The byte image of the block at an offset from `LZW_BASE` (R61, R62), where the spec gives it a value: `none` at unmapped
offsets and in elements whose value is unspecified. Observable only outside the block. -/
def State.byteImage (s : State) (off : Nat) : Option Byte :=
  if off < 0x1000 then some (byteOf (s.readReg (regAt (off / 4 * 4))) (off % 4))
  else if 0x1000000 ≤ off ∧ off < 0x1000000 + s.cfg.encInMax then
    (s.specifiedElem .encIbuf (off - 0x1000000)).map (byteOf · 0)
  else if 0x2000000 ≤ off ∧ off < 0x2000000 + 2 * encOutMax then
    (s.specifiedElem .encObuf ((off - 0x2000000) / 2)).map (byteOf · (off % 2))
  else if 0x3000000 ≤ off ∧ off < 0x3000000 + 2 * s.cfg.decInMax then
    (s.specifiedElem .decIbuf ((off - 0x3000000) / 2)).map (byteOf · (off % 2))
  else if 0x4000000 ≤ off ∧ off < 0x4000000 + s.cfg.decOutMax then
    (s.specifiedElem .decObuf (off - 0x4000000)).map (byteOf · 0)
  else none

end Sys2Proof.Machine
end

