-- ==== Sys2Proof/Machine/Decoder.lean ====
section
/-! DEFINITION. The decoder: `DEC.START`, the DEC_FSM rows (spec/42_decoder.md R170 to R179), and the code words `LIT` and `REF`
DEC consumes (30_encoding.md R92 to R94). Each step is written as its rule's pseudocode on DEC's own state (R20, R236), for the
code `k` it processes; as an engine step `k` is read from `DEC_IBUF` at the cursor, as a code word `k` is the word itself
(log 13). -/

namespace Sys2Proof.Machine

/-- `DEC.SCAN` on the code `k` (R171). -/
def DecState.scanStep (k : Code) (d : DecState) : Except Fault DecState :=
  if d.phase = .scan ∧ d.regs.cursor = .before then
    if isLitCode k && (d.dict.findC k).isNone then
      match d.dict.insert [byteOfCode k] with
      | some (_, t) => .ok { d with dict := t, regs := { d.regs with ipos := d.regs.ipos + 1 } }
      | none => .ok (d.fail .capacity d.regs.ipos)
    else .ok { d with regs := { d.regs with ipos := d.regs.ipos + 1 } }
  else .error .notEnabled

/-- `DEC.SCANEND` (R172): `IPOS` is left at `ILEN`; the step after it does not use the cursor and sets it to 1 (R173). the
traces of V3, V5 and V7 show `IPOS` = `ILEN` before FIRST. R23's "and again when SCAN ends" is the cursor of ENC, R142 (log 21). -/
def DecState.scanEndStep (d : DecState) : Except Fault DecState :=
  if d.phase = .scan ∧ d.regs.cursor = .atEnd then .ok { d with phase := .first } else .error .notEnabled

/-- `DEC.FIRST` on the code `k` (R173): resolved by the value of the code. -/
def DecState.firstStep (cfg : Config) (k : Code) (d : DecState) : Except Fault DecState :=
  if d.phase = .first ∧ d.regs.ilen ≠ 0 then
    match d.dict.findC k with
    | none => .error .notEnabled
    | some [b] =>
      if 0 < cfg.decOutMax then
        .ok { d with phase := .loop, regs := { d.regs with opos := 1, ipos := 1 }, last := [b], obuf := d.obuf.set 0 b }
      else .error .outOfRange
    | some _ => .error .patternShape
  else .error .notEnabled

/-- `DEC.BADFIRST` on a first code, or on none when `ILEN = 0` (R174): MALFORMED (R242). -/
def DecState.badFirstStep (k : Option Code) (d : DecState) : Except Fault DecState :=
  if d.phase = .first ∧ (d.regs.ilen = 0 ∨ (k.bind d.dict.findC).isNone) then .ok (d.fail .malformed 0)
  else .error .notEnabled

/-- The loop's tail (R175, R176): insert `new`, append `next`, move the cursors. -/
def DecState.append (new next : Pattern) (d : DecState) : Except Fault DecState :=
  match d.dict.insert new with
  | none => .error .notEnabled
  | some (_, t) =>
    .ok { d with
      dict := t
      obuf := d.obuf.setMany d.regs.opos.toNat next
      last := next
      regs := { d.regs with opos := d.regs.opos + BitVec.ofNat 32 next.length, ipos := d.regs.ipos + 1 } }

/-- `DEC.KNOWN` on the code `k` (R175): the lookup is before the insertion. -/
def DecState.knownStep (cfg : Config) (k : Code) (d : DecState) : Except Fault DecState :=
  if d.phase = .loop ∧ d.regs.cursor = .before ∧ d.dict.full = false ∧ d.fits cfg k = true then
    match d.dict.findC k with
    | none => .error .notEnabled
    | some [] => .error .patternShape
    | some (r0 :: r) => d.append (d.last ++ [r0]) (r0 :: r)
  else .error .notEnabled

/-- `DEC.KWKWK` on the code `k` (R176): any absent code, whatever its value (R183). -/
def DecState.kwkwkStep (cfg : Config) (k : Code) (d : DecState) : Except Fault DecState :=
  if d.phase = .loop ∧ d.regs.cursor = .before ∧ d.dict.full = false ∧ d.fits cfg k = true then
    match d.dict.findC k, d.last with
    | some _, _ => .error .notEnabled
    | none, [] => .error .patternShape
    | none, l0 :: l => d.append (l0 :: l ++ [l0]) (l0 :: l ++ [l0])
  else .error .notEnabled

/-- `DEC.FULL` (R177): CAPACITY at the index of the code being processed (R241); before the output bound (R248). -/
def DecState.fullStep (d : DecState) : Except Fault DecState :=
  if d.phase = .loop ∧ d.regs.cursor = .before ∧ d.dict.full = true then .ok (d.fail .capacity d.regs.ipos)
  else .error .notEnabled

/-- `DEC.OVF` on the code `k` (R178): OVERFLOW before any write (R243). -/
def DecState.ovfStep (cfg : Config) (k : Code) (d : DecState) : Except Fault DecState :=
  if d.phase = .loop ∧ d.regs.cursor = .before ∧ d.dict.full = false ∧ d.fits cfg k = false then
    .ok (d.fail .overflow d.regs.ipos)
  else .error .notEnabled

/-- `DEC.END` (R179). -/
def DecState.endStep (d : DecState) : Except Fault DecState :=
  if d.phase = .loop ∧ d.regs.cursor = .atEnd then
    .ok { d with phase := .idle, regs := d.regs.finished d.regs.opos, last := [], dict := .empty }
  else .error .notEnabled

/-- A step that processes the code at DEC's cursor, if the input buffer has that element (R64). -/
def DecState.withElement (cfg : Config) (resets : Nat) (d : DecState) (f : Code → DecState → Except Fault DecState) :
    Except Fault DecState :=
  match d.element cfg resets with
  | some k => f k d
  | none => .error .outOfRange

/-- What DEC does with the code word `k`: the step R98 selects for it in DEC's phase (R94). -/
def DecState.consume (cfg : Config) (k : Code) (d : DecState) : Except Fault DecState :=
  match d.phase with
  | .idle => .error .notEnabled
  | .scan => d.scanStep k
  | .first =>
    if d.regs.ilen = 0 then .error .notEnabled
    else if (d.dict.findC k).isSome then d.firstStep cfg k else d.badFirstStep (some k)
  | .loop =>
    if d.dict.full then d.fullStep
    else if !d.fits cfg k then d.ovfStep cfg k
    else if (d.dict.findC k).isSome then d.knownStep cfg k else d.kwkwkStep cfg k

/-! ### The meanings -/

/-- `LIT` (R92): DEC consumes the literal code of the byte `b` (R94; log 13). -/
def execLit (b : Byte) (s : State) : Host.Outcome State Fault Refusal := s.endDec (s.dec.consume s.cfg (codeOfByte b))

/-- `REF` (R93): DEC consumes the code `c` (R94; log 13). -/
def execRef (c : Code) (s : State) : Host.Outcome State Fault Refusal := s.endDec (s.dec.consume s.cfg c)

/-- `DEC.START` (R170): a step of HOST. -/
def execDecStart (_x : BitVec 31) (s : State) : Host.Outcome State Fault Refusal :=
  .next ((s.start .dec).withReply .ack)

/-- `DEC.SCAN` (R171). -/
def execDecScan (s : State) : Host.Outcome State Fault Refusal :=
  s.endDec (s.dec.withElement s.cfg s.resets DecState.scanStep)

/-- `DEC.SCANEND` (R172). -/
def execDecScanEnd (s : State) : Host.Outcome State Fault Refusal := s.endDec s.dec.scanEndStep

/-- `DEC.FIRST` (R173). -/
def execDecFirst (s : State) : Host.Outcome State Fault Refusal :=
  s.endDec (s.dec.withElement s.cfg s.resets (DecState.firstStep s.cfg))

/-- `DEC.BADFIRST` (R174). -/
def execDecBadFirst (s : State) : Host.Outcome State Fault Refusal :=
  s.endDec
    (if s.dec.regs.ilen = 0 then s.dec.badFirstStep none
     else s.dec.withElement s.cfg s.resets (fun k => DecState.badFirstStep (some k)))

/-- `DEC.KNOWN` (R175). -/
def execDecKnown (s : State) : Host.Outcome State Fault Refusal :=
  s.endDec (s.dec.withElement s.cfg s.resets (DecState.knownStep s.cfg))

/-- `DEC.KWKWK` (R176). -/
def execDecKwkwk (s : State) : Host.Outcome State Fault Refusal :=
  s.endDec (s.dec.withElement s.cfg s.resets (DecState.kwkwkStep s.cfg))

/-- `DEC.FULL` (R177). -/
def execDecFull (s : State) : Host.Outcome State Fault Refusal := s.endDec s.dec.fullStep

/-- `DEC.OVF` (R178). -/
def execDecOvf (s : State) : Host.Outcome State Fault Refusal :=
  s.endDec (s.dec.withElement s.cfg s.resets (DecState.ovfStep s.cfg))

/-- `DEC.END` (R179). -/
def execDecEnd (s : State) : Host.Outcome State Fault Refusal := s.endDec s.dec.endStep

end Sys2Proof.Machine
end

