-- ==== Sys2Proof/Machine/Dictionary.lean ====
section
/-! DEFINITION. The dictionary operations as instructions of their own (spec/40_dictionary.md, rows DICT_OP). The engine steps
use the same operations of Ops.lean; as instructions they leave their result in `dictRet` (log 8, log 17). -/

namespace Sys2Proof.Machine

/-- `DICT.CLEAR(T)` (R120). -/
def execDictClear (T : Engine) (s : State) : Host.Outcome State Fault Refusal :=
  .next ((s.setDict T .empty).withDictRet .none)

/-- `DICT.INSERT(T, p)` (R121 to R124). The capacity test comes first (R123): on a full table any pattern raises
`Fail(CAPACITY, IPOS)` in the owning engine (R250). The one operand R121 does not admit is the empty pattern (log 17). -/
def execDictInsert (T : Engine) (p : Pattern) (s : State) : Host.Outcome State Fault Refusal :=
  match (s.dictOf T).insert p with
  | none => .next ((s.fail T .capacity).withDictRet .failed)
  | some (k, d) => if p = [] then .fault .illegalOperand else .next ((s.setDict T d).withDictRet (.code k))

/-- `DICT.FINDP(T, p)` (R125): no state changes. -/
def execDictFindp (T : Engine) (p : Pattern) (s : State) : Host.Outcome State Fault Refusal :=
  .next (s.withDictRet (.optCode ((s.dictOf T).findP p)))

/-- `DICT.FINDC(T, k)` (R126): no state changes. -/
def execDictFindc (T : Engine) (k : Code) (s : State) : Host.Outcome State Fault Refusal :=
  .next (s.withDictRet (.optPattern ((s.dictOf T).findC k)))

end Sys2Proof.Machine
end

