-- ==== Sys2Proof/Machine/Encoder.lean ====
section
/-! DEFINITION. The encoder: `ENC.START` and the ENC_FSM rows (spec/41_encoder.md R140 to R147). Each step is written as its
rule's pseudocode on ENC's own state, which is all it reads and writes (R20, R236), under the conditions its rule is selected
by (R98); where they do not hold there is no such step (log 11). -/

namespace Sys2Proof.Machine

/-- `MemWrite(ENC_OBUF:OPOS, 1, k)` and the cursor after it (R144, R147), for an index the buffer has (R64). -/
def EncState.emit (e : EncState) (k : Code) : Except Fault EncState :=
  if e.regs.opos.toNat < encOutMax then
    .ok { e with obuf := e.obuf.set e.regs.opos.toNat k, regs := { e.regs with opos := e.regs.opos + 1 } }
  else .error .outOfRange

/-- `ENC.SCAN` (R141). -/
def EncState.scanStep (cfg : Config) (resets : Nat) (e : EncState) : Except Fault EncState :=
  if e.phase = .scan ∧ e.regs.cursor = .before then
    match e.element cfg resets with
    | none => .error .outOfRange
    | some b =>
      if (e.dict.findC (codeOfByte b)).isSome then
        .ok { e with regs := { e.regs with ipos := e.regs.ipos + 1 } }
      else
        match e.dict.insert [b] with
        | some (_, d) => .ok { e with dict := d, regs := { e.regs with ipos := e.regs.ipos + 1 } }
        | none => .ok (e.fail .capacity e.regs.ipos)
  else .error .notEnabled

/-- `ENC.SCANEND` (R142). -/
def EncState.scanEndStep (e : EncState) : Except Fault EncState :=
  if e.phase = .scan ∧ e.regs.cursor = .atEnd then
    .ok { e with phase := .matching, regs := { e.regs with ipos := 0 } }
  else .error .notEnabled

/-- `ENC.HIT` (R143). -/
def EncState.hitStep (cfg : Config) (resets : Nat) (e : EncState) : Except Fault EncState :=
  if e.phase = .matching ∧ e.regs.cursor = .before then
    match e.element cfg resets with
    | none => .error .outOfRange
    | some c =>
      if (e.dict.findP (e.p ++ [c])).isSome then
        .ok { e with p := e.p ++ [c], regs := { e.regs with ipos := e.regs.ipos + 1 } }
      else .error .notEnabled
  else .error .notEnabled

/-- `ENC.MISS` (R144). The code of `P` is looked up after the insertion, in the document's order. -/
def EncState.missStep (cfg : Config) (resets : Nat) (e : EncState) : Except Fault EncState :=
  if e.phase = .matching ∧ e.regs.cursor = .before then
    match e.element cfg resets with
    | none => .error .outOfRange
    | some c =>
      if (e.dict.findP (e.p ++ [c])).isSome then .error .notEnabled
      else
        match e.dict.insert (e.p ++ [c]) with
        | none => .error .notEnabled
        | some (_, d) =>
          match d.findP e.p with
          | none => .error .patternAbsent
          | some k =>
            EncState.emit { e with dict := d, p := [c], regs := { e.regs with ipos := e.regs.ipos + 1 } } k
  else .error .notEnabled

/-- `ENC.FULL` (R145): CAPACITY at the index of the byte whose mismatch needs the 4097th entry (R241). -/
def EncState.fullStep (cfg : Config) (resets : Nat) (e : EncState) : Except Fault EncState :=
  if e.phase = .matching ∧ e.regs.cursor = .before then
    match e.element cfg resets with
    | none => .error .outOfRange
    | some c =>
      if (e.dict.findP (e.p ++ [c])).isNone ∧ e.dict.full = true then .ok (e.fail .capacity e.regs.ipos)
      else .error .notEnabled
  else .error .notEnabled

/-- `ENC.EOI` (R146). -/
def EncState.eoiStep (e : EncState) : Except Fault EncState :=
  if e.phase = .matching ∧ e.regs.cursor = .atEnd then .ok { e with phase := .flush } else .error .notEnabled

/-- The end of a successful call (R147): `OCNT`, `DONE`, `P`, the dictionary and `STATE` together. -/
def EncState.finish (e : EncState) : EncState :=
  { e with phase := .idle, regs := e.regs.finished e.regs.opos, p := [], dict := .empty }

/-- `ENC.FLUSH` (R147). It has no branch for a pattern that is absent (R148). -/
def EncState.flushStep (e : EncState) : Except Fault EncState :=
  if e.phase = .flush then
    if e.p = [] then .ok e.finish
    else
      match e.dict.findP e.p with
      | none => .error .patternAbsent
      | some k =>
        match e.emit k with
        | .ok e' => .ok e'.finish
        | .error f => .error f
  else .error .notEnabled

/-! ### The meanings -/

/-- `ENC.START` (R140): a step of HOST. -/
def execEncStart (_x : BitVec 31) (s : State) : Host.Outcome State Fault Refusal :=
  .next ((s.start .enc).withReply .ack)

/-- `ENC.SCAN` (R141). -/
def execEncScan (s : State) : Host.Outcome State Fault Refusal := s.endEnc (s.enc.scanStep s.cfg s.resets)

/-- `ENC.SCANEND` (R142). -/
def execEncScanEnd (s : State) : Host.Outcome State Fault Refusal := s.endEnc s.enc.scanEndStep

/-- `ENC.HIT` (R143). -/
def execEncHit (s : State) : Host.Outcome State Fault Refusal := s.endEnc (s.enc.hitStep s.cfg s.resets)

/-- `ENC.MISS` (R144). -/
def execEncMiss (s : State) : Host.Outcome State Fault Refusal := s.endEnc (s.enc.missStep s.cfg s.resets)

/-- `ENC.FULL` (R145). -/
def execEncFull (s : State) : Host.Outcome State Fault Refusal := s.endEnc (s.enc.fullStep s.cfg s.resets)

/-- `ENC.EOI` (R146). -/
def execEncEoi (s : State) : Host.Outcome State Fault Refusal := s.endEnc s.enc.eoiStep

/-- `ENC.FLUSH` (R147). -/
def execEncFlush (s : State) : Host.Outcome State Fault Refusal := s.endEnc s.enc.flushStep

end Sys2Proof.Machine
end

