-- ==== Sys2Proof/Machine/HostOps.lean ====
section
/-! DEFINITION. The host operations (spec/43_host_interface.md R200 to R205, rows BUS). What the host sees of its access is left
in `reply` (log 8). -/

namespace Sys2Proof.Machine

/-- `G_ILEN <- v` while the engine is idle, else ignored (R201, R204). -/
def State.writeIlen (s : State) (g : Engine) (v : Word) : State :=
  match g with
  | .enc => if s.enc.phase = .idle then s.withEnc { s.enc with regs := { s.enc.regs with ilen := v } } else s
  | .dec => if s.dec.phase = .idle then s.withDec { s.dec with regs := { s.dec.regs with ilen := v } } else s

/-- A register write (R201): `G_ILEN`, the START bit of `G_CTRL`, and nothing else. -/
def State.writeReg (s : State) (r : Reg) (v : Word) : State :=
  match r with
  | .ilen g => s.writeIlen g v
  | .ctrl g => if v.getLsbD 0 then s.start g else s
  | .id | .encInMax | .decInMax | .decOutMax | .status _ | .ocnt _ | .errinfo _ | .reserved _ => s

/-- An invalid access (R63, R205): no state of the block changes; the block signals a bus error (log 9). -/
def State.invalidAccess (s : State) (why : DecodeError) : State := s.withReply (.busError why)

/-- `HOST.RDREG` (R200). -/
def execHostRdreg (r : Reg) (s : State) : Host.Outcome State Fault Refusal := .next (s.withReply (.reg (s.readReg r)))

/-- `HOST.WRREG` (R201). -/
def execHostWrreg (r : Reg) (v : Word) (s : State) : Host.Outcome State Fault Refusal :=
  .next ((s.writeReg r v).withReply .ack)

/-- `HOST.RDBUF` (R202). An index at or above the element count is an invalid access (R205). -/
def execHostRdbuf (S : Space) (i : Nat) (s : State) : Host.Outcome State Fault Refusal :=
  if i < S.count s.cfg then .next (s.readElem S i) else .next (s.invalidAccess .pastEnd)

/-- `HOST.WRBUF` (R203). A write to an output buffer and an index at or above the element count are invalid accesses (R205). -/
def execHostWrbuf (S : Space) (i : Nat) (v : BitVec 16) (s : State) : Host.Outcome State Fault Refusal :=
  if S.isInput then
    if i < S.count s.cfg then .next ((s.writeElem S i v).withReply .ack) else .next (s.invalidAccess .pastEnd)
  else .next (s.invalidAccess .readOnly)

end Sys2Proof.Machine
end

