-- ==== Sys2Proof/Machine/Dispatch.lean ====
section
/-! DEFINITION. The dispatch of spec/opcode_table.json: one arm per row, each a direct call of its meaning. -/

namespace Sys2Proof.Machine

def exec (i : Instr) (s : State) : Host.Outcome State Fault Refusal :=
  match i with
  | .lit b => Sys2Proof.Machine.execLit b s
  | .ref c => Sys2Proof.Machine.execRef c s
  | .encStart x => Sys2Proof.Machine.execEncStart x s
  | .decStart x => Sys2Proof.Machine.execDecStart x s
  | .hostRdreg r => Sys2Proof.Machine.execHostRdreg r s
  | .hostWrreg r v => Sys2Proof.Machine.execHostWrreg r v s
  | .hostRdbuf S n => Sys2Proof.Machine.execHostRdbuf S n s
  | .hostWrbuf S n v => Sys2Proof.Machine.execHostWrbuf S n v s
  | .dictClear T => Sys2Proof.Machine.execDictClear T s
  | .dictInsert T p => Sys2Proof.Machine.execDictInsert T p s
  | .dictFindp T p => Sys2Proof.Machine.execDictFindp T p s
  | .dictFindc T k => Sys2Proof.Machine.execDictFindc T k s
  | .encScan => Sys2Proof.Machine.execEncScan s
  | .encScanEnd => Sys2Proof.Machine.execEncScanEnd s
  | .encHit => Sys2Proof.Machine.execEncHit s
  | .encMiss => Sys2Proof.Machine.execEncMiss s
  | .encFull => Sys2Proof.Machine.execEncFull s
  | .encEoi => Sys2Proof.Machine.execEncEoi s
  | .encFlush => Sys2Proof.Machine.execEncFlush s
  | .decScan => Sys2Proof.Machine.execDecScan s
  | .decScanEnd => Sys2Proof.Machine.execDecScanEnd s
  | .decFirst => Sys2Proof.Machine.execDecFirst s
  | .decBadFirst => Sys2Proof.Machine.execDecBadFirst s
  | .decKnown => Sys2Proof.Machine.execDecKnown s
  | .decKwkwk => Sys2Proof.Machine.execDecKwkwk s
  | .decFull => Sys2Proof.Machine.execDecFull s
  | .decOvf => Sys2Proof.Machine.execDecOvf s
  | .decEnd => Sys2Proof.Machine.execDecEnd s

end Sys2Proof.Machine
end

