-- ==== Sys2Proof/Machine/Events.lean ====
section
/-! DEFINITION. What one entry of the order of steps does (spec/70_reset_and_hazards.md R280, R281), and where the next
instruction is fetched from: a host access is decoded (R61, R96), an engine's step is selected (R98), a code word DEC consumes is
read at its cursor (R94). Which entry comes next is `State.nextEvent`. -/

namespace Sys2Proof.Machine

/-- Run what was decoded; conditions under which R98 has no row enable nothing. -/
def State.runDecoded (s : State) : Except DecodeError Instr → Host.Outcome State Fault Refusal
  | .ok i => exec i s
  | .error _ => .fault .notEnabled

/-- A host access: the operation it decodes to, or an invalid access (R205). -/
def State.hostAccess (s : State) (a : BusAccess) : Host.Outcome State Fault Refusal :=
  match decodeBus s.cfg a with
  | .ok i => exec i s
  | .error why => .next (s.invalidAccess why)

/-- A turn of ENC: an idle engine has no enabled step and the turn passes (R22, log 2). -/
def State.encTurn (s : State) : Host.Outcome State Fault Refusal :=
  if s.enc.phase = .idle then .next s else s.runDecoded s.selectEnc

/-- A turn of DEC: the code word it consumes, where it consumes one, else the step R98 selects; an idle engine's turn passes. -/
def State.decTurn (s : State) : Host.Outcome State Fault Refusal :=
  if s.dec.phase = .idle then .next s
  else
    match s.fetchedCode with
    | some k => exec (decodeCode k) s
    | none => s.runDecoded s.selectDec

/-- One entry of the order of steps. -/
def State.runEvent (s : State) : Event → Host.Outcome State Fault Refusal
  | .host a => s.hostAccess a
  | .turn .enc => s.encTurn
  | .turn .dec => s.decTurn
  | .reset => .next s.resetBlock

/-- The next entry of the order of steps, and the script after it. When the script has ended the order goes on in rounds: what
`cycle` repeats, then a turn of each engine, so that no busy engine is starved, whatever the host goes on doing (R282, log 3). -/
def State.nextEvent (s : State) : Event × List Event :=
  match s.script, s.cycle with
  | ev :: rest, _ => (ev, rest)
  | [], ev :: rest => (ev, rest ++ [.turn .enc, .turn .dec])
  | [], [] => (.turn .enc, [.turn .dec])

/-- Put a code word where DEC's next step reads it, with DEC in a phase that consumes one (log 4). -/
def DecState.placeCode (d : DecState) (k : Code) : DecState :=
  match d.phase with
  | .idle =>
    { d with phase := .scan, regs := { d.regs with ipos := 0, ilen := if d.regs.ilen = 0 then 1 else d.regs.ilen },
             ibuf := d.ibuf.set 0 k }
  | .first => { d with regs := { d.regs with ilen := if d.regs.ilen = 0 then 1 else d.regs.ilen }, ibuf := d.ibuf.set 0 k }
  | .scan | .loop =>
    { d with regs := { d.regs with ilen := if d.regs.cursor = .before then d.regs.ilen else d.regs.ipos + 1 },
             ibuf := d.ibuf.set d.regs.ipos.toNat k }

end Sys2Proof.Machine
end

