-- ==== Sys2Proof/Machine/Step.lean ====
section
/-! DEFINITION. One step of the machine: the next entry of the total order of steps (spec/20_memory.md R70,
70_reset_and_hazards.md R280), and how a table word is placed as the next instruction. -/

namespace Sys2Proof.Machine

/-- One step: the next entry of the order of steps, with what follows it left for the steps after it (log 2, log 3). -/
def step (s : State) : Host.Outcome State Fault Refusal := (s.withScript s.nextEvent.2).runEvent s.nextEvent.1

/-- The word `w` of `nbits` bits placed as the next instruction: a code word at DEC's cursor with DEC's turn next, or a command
word as the host's next access, a write to `ENC_CTRL` (log 4, log 15). -/
def State.withFetchWord (s : State) (nbits w : Nat) : State :=
  match nbits with
  | 16 => (s.withDec (s.dec.placeCode (BitVec.ofNat 16 w))).withScript (.turn .dec :: s.script)
  | 32 => s.withScript (.host (Sys2Proof.writeReg s.cfg (.ctrl .enc) (BitVec.ofNat 32 w)) :: s.script)
  | _ => s

end Sys2Proof.Machine
end

