-- ==== Sys2Proof/Machine/Codec.lean ====
section
/-! DEFINITION. The pure functions `encode` (spec/41_encoder.md R149) and `decode` (42_decoder.md R180), over the dictionary
operations of Ops.lean. An error carries its class and the input index it is raised at. -/

namespace Sys2Proof.Machine

/-- `INSERT(T, p)` where the function has checked the capacity first. -/
def Dict.add (d : Dict) (p : Pattern) : Dict := ((d.insert p).map Prod.snd).getD d

/-- The SCAN lines of R149. -/
def encodeScan : Dict → List Byte → Dict
  | T, [] => T
  | T, b :: s => encodeScan (if (T.findC (codeOfByte b)).isSome then T else T.add [b]) s

/-- The MATCH and FLUSH lines of R149, from the pattern `P`, the input index `i` and the codes emitted so far. -/
def encodeLoop : Dict → Pattern → Nat → List Code → List Byte → Except (ErrCode × Nat) (List Code)
  | T, P, _, out, [] => .ok (if P = [] then out else out ++ (T.findP P).toList)
  | T, P, i, out, c :: s =>
    if (T.findP (P ++ [c])).isSome then encodeLoop T (P ++ [c]) (i + 1) out s
    else if T.full then .error (.capacity, i)
    else encodeLoop (T.add (P ++ [c])) [c] (i + 1) (out ++ ((T.add (P ++ [c])).findP P).toList) s

/-- `encode(s)` (R149). -/
def lzwEncode (s : List Byte) : Except (ErrCode × Nat) (List Code) := encodeLoop (encodeScan .empty s) [] 0 [] s

/-- The SCAN lines of R180. -/
def decodeScan : Dict → List Code → Dict
  | T, [] => T
  | T, k :: cs => decodeScan (if isLitCode k && (T.findC k).isNone then T.add [byteOfCode k] else T) cs

/-- `next` and `new` of R180 for the code `k` after the pattern `last`. -/
def decodeNext (T : Dict) (last : Pattern) (k : Code) : Pattern × Pattern :=
  match T.findC k with
  | some r => (r, last ++ r.take 1)
  | none => (last ++ last.take 1, last ++ last.take 1)

/-- The LOOP lines of R180: capacity before the output bound (R248). -/
def decodeLoop (B : Nat) : Dict → Pattern → Nat → List Byte → List Code → Except (ErrCode × Nat) (List Byte)
  | _, _, _, out, [] => .ok out
  | T, last, i, out, k :: cs =>
    if T.full then .error (.capacity, i)
    else if B < out.length + (decodeNext T last k).1.length then .error (.overflow, i)
    else
      decodeLoop B (T.add (decodeNext T last k).2) (decodeNext T last k).1 (i + 1) (out ++ (decodeNext T last k).1) cs

/-- `decode(cs)` with the output bound `B` (R180). -/
def lzwDecode (B : Nat) : List Code → Except (ErrCode × Nat) (List Byte)
  | [] => .error (.malformed, 0)
  | k :: cs =>
    match (decodeScan .empty (k :: cs)).findC k with
    | none => .error (.malformed, 0)
    | some r => decodeLoop B (decodeScan .empty (k :: cs)) r 1 r cs

end Sys2Proof.Machine
end

