-- ==== Sys2Proof/Safety.lean ====
section
/-! DEFINITION. What a safe run is: the invariant of every reachable state, put together from the sentences of the spec that
begin "in every reachable state", and the words the statements use for runs, schedules and inputs. -/

namespace Sys2Proof.Machine

/-! ### Dictionaries -/

/-- Is the entry a literal entry, code at most 255 (R34 item 2)? -/
def Entry.isLiteral (e : Entry) : Bool := isLitCode e.code

/-- The multi-byte entries, in list order (R34 item 3). -/
def Dict.multi (d : Dict) : List Entry := d.ent.filter (fun e => !e.isLiteral)

/-- The literal entries, in list order. -/
def Dict.literals (d : Dict) : List Entry := d.ent.filter Entry.isLiteral

/-- The patterns of the dictionary, in list order. -/
def Dict.patterns (d : Dict) : List Pattern := d.ent.map Entry.pat

/-- The dictionary invariants of R34 items 1 to 4, with the bounds of R33, R37 and R229 they give. -/
structure DictInv (d : Dict) : Prop where
  /-- R34 item 4. -/
  capacity : d.nent ≤ dictCap
  /-- R34 item 2: a literal entry has the one-byte pattern of its code. -/
  literalPattern : ∀ e ∈ d.literals, e.pat = [byteOfCode e.code]
  /-- R34 item 1 for the literal entries: no code twice. -/
  literalOnce : (d.literals.map Entry.code).Nodup
  /-- R34 item 3: the multi-byte entries have the codes 256, 257, ... in list order. -/
  multiCodes : d.multi.map (fun e => e.code.toNat) = List.range' firstMbCode d.multi.length
  /-- R33: `NEXT` is 256 plus the number of multi-byte entries. -/
  next : d.next.toNat = firstMbCode + d.multi.length
  /-- R34 item 3 and R229: the entry with code `256 + j` has 2 to `j + 2` bytes. -/
  multiLength : ∀ e ∈ d.multi, 2 ≤ e.pat.length ∧ e.pat.length + 254 ≤ e.code.toNat
  /-- R37: a dictionary with multi-byte entries has a literal entry. -/
  literalFirst : d.multi ≠ [] → d.literals ≠ []

/-! ### The registers both engines have -/

/-- Flags, error, count and cursor of an engine with `n` output elements (R26, R29, R30, R42, R204). -/
structure RegsInv (idle : Bool) (n : Nat) (c : CallRegs) : Prop where
  /-- R29: "never both 1". -/
  notBoth : ¬ (c.done = true ∧ c.err = true)
  /-- R30: the error code is 0 exactly when the last call did not fail. -/
  errcode : c.err = true ↔ c.errcode ≠ .none
  /-- R30: `ERRINFO` is 0 unless the last call failed. -/
  errinfo : c.err = false → c.errinfo = 0
  /-- R26: `OCNT` is 0 unless the last call succeeded, and then it is `OPOS`. -/
  ocnt : c.ocnt = if c.done then c.opos else 0
  /-- R37: the output cursor stays within the output buffer. -/
  opos : c.opos.toNat ≤ n
  /-- R42, R204: while busy DONE = ERR = 0. -/
  busy : idle = false → c.done = false ∧ c.err = false

/-! ### The engines -/

/-- Every literal of the first `n` input bytes is in the dictionary (R141, R153). -/
def EncState.Covered (resets : Nat) (e : EncState) (n : Nat) : Prop :=
  ∀ i < n, (codeOfByte (e.inByte resets i)) ∈ e.dict.ent.map Entry.code

/-- Every literal code among the first `n` input codes is in the dictionary (R171). -/
def DecState.Covered (resets : Nat) (d : DecState) (n : Nat) : Prop :=
  ∀ i < n, isLitCode (d.inCode resets i) = true → d.inCode resets i ∈ d.dict.ent.map Entry.code

/-- ENC in every reachable state. -/
structure EncInv (cfg : Config) (resets : Nat) (e : EncState) : Prop where
  ibuf : Buf.wf cfg.encInMax e.ibuf
  obuf : Buf.wf encOutMax e.obuf
  regs : RegsInv (e.phase == .idle) encOutMax e.regs
  dict : DictInv e.dict
  /-- R34 item 5, R226: no two entries share a pattern. -/
  unique : e.dict.patterns.Nodup
  /-- R240: ENC raises CAPACITY and BADLEN only. -/
  errors : e.regs.errcode = .none ∨ e.regs.errcode = .capacity ∨ e.regs.errcode = .badlen
  /-- Every output element below the cursor has been written. -/
  written : ∀ j < e.regs.opos.toNat, (e.obuf.get? j).isSome = true
  /-- R65, R228: no code above 4350 is ever written. -/
  codes : ∀ j v, e.obuf.get? j = some v → v.toNat ≤ 4350
  /-- R32, R27: an idle engine holds no call data. -/
  idle : e.phase = .idle → e.dict = .empty ∧ e.p = []
  /-- R23, R37: of a busy engine. -/
  cursor : e.phase ≠ .idle → e.regs.ipos.toNat ≤ e.regs.ilen.toNat ∧ e.regs.ilen.toNat ≤ cfg.encInMax
  /-- R141: in SCAN only literals have been inserted, those of the bytes read so far. -/
  scan : e.phase = .scan → e.dict.multi = [] ∧ e.p = [] ∧ e.regs.opos = 0 ∧ e.Covered resets e.regs.ipos.toNat
  /-- R142, R153, R154: in MATCH every byte of the input is a literal, `P` is ε only before the first byte and an entry after
  it, and there is one output element per multi-byte entry. -/
  matching : e.phase = .matching → e.Covered resets e.regs.ilen.toNat ∧ e.regs.opos.toNat = e.dict.multi.length ∧
    (e.regs.ipos = 0 → e.p = [] ∧ e.dict.multi = []) ∧ (e.regs.ipos ≠ 0 → e.p ∈ e.dict.patterns)
  /-- R146, R147, R153: in FLUSH the input is consumed and `P` is ε only for the empty input. -/
  flush : e.phase = .flush → e.regs.ipos = e.regs.ilen ∧ e.regs.opos.toNat = e.dict.multi.length ∧
    (e.regs.ilen = 0 → e.p = [] ∧ e.dict.multi = []) ∧ (e.regs.ilen ≠ 0 → e.p ∈ e.dict.patterns)

/-- DEC in every reachable state. -/
structure DecInv (cfg : Config) (resets : Nat) (d : DecState) : Prop where
  ibuf : Buf.wf cfg.decInMax d.ibuf
  obuf : Buf.wf cfg.decOutMax d.obuf
  regs : RegsInv (d.phase == .idle) cfg.decOutMax d.regs
  dict : DictInv d.dict
  /-- Every output element below the cursor has been written. -/
  written : ∀ j < d.regs.opos.toNat, (d.obuf.get? j).isSome = true
  /-- R32, R28: an idle engine holds no call data. -/
  idle : d.phase = .idle → d.dict = .empty ∧ d.last = []
  /-- R23, R37: of a busy engine. -/
  cursor : d.phase ≠ .idle → d.regs.ipos.toNat ≤ d.regs.ilen.toNat ∧ d.regs.ilen.toNat ≤ cfg.decInMax
  /-- R171: in SCAN only literals have been inserted, those of the codes read so far. -/
  scan : d.phase = .scan → d.dict.multi = [] ∧ d.last = [] ∧ d.regs.opos = 0 ∧ d.Covered resets d.regs.ipos.toNat
  /-- R172, R184: in FIRST the dictionary holds the literals of the whole stream and nothing else. -/
  first : d.phase = .first → d.regs.ipos = d.regs.ilen ∧ d.dict.multi = [] ∧ d.last = [] ∧ d.regs.opos = 0 ∧
    d.Covered resets d.regs.ilen.toNat
  /-- R28, R175 to R177: in LOOP `LAST` is the pattern of an entry, there is one multi-byte entry per code after the first, and
  the output is not empty. -/
  loop : d.phase = .loop → d.last ∈ d.dict.patterns ∧ d.regs.ipos.toNat = d.dict.multi.length + 1 ∧ 1 ≤ d.regs.opos.toNat ∧
    d.Covered resets d.regs.ilen.toNat

/-- The invariant of every reachable state. -/
structure Inv (s : State) : Prop where
  config : s.cfg.ok
  enc : EncInv s.cfg s.resets s.enc
  dec : DecInv s.cfg s.resets s.dec

/-! ### Runs, schedules, inputs -/

/-- Does the event start ENC: a write of a START word to `ENC_CTRL` (R96)? -/
def Event.startsEnc (cfg : Config) : Event → Bool
  | .host a => match decodeBus cfg a with
    | .ok (.encStart _) => true
    | _ => false
  | _ => false

/-- Does the event start DEC: a write of a START word to `DEC_CTRL` (R96)? -/
def Event.startsDec (cfg : Config) : Event → Bool
  | .host a => match decodeBus cfg a with
    | .ok (.decStart _) => true
    | _ => false
  | _ => false

/-- Does the event start the engine? -/
def Event.starts (cfg : Config) (g : Engine) (ev : Event) : Bool :=
  match g with
  | .enc => ev.startsEnc cfg
  | .dec => ev.startsDec cfg

/-- Does the event poll the engine, a read of `G_STATUS` (R42, R206)? -/
def Event.polls (cfg : Config) (g : Engine) : Event → Bool
  | .host a => match decodeBus cfg a with
    | .ok (.hostRdreg (.status h)) => decide (h = g)
    | _ => false
  | _ => false

/-- An infinite run (R281, R282): `r n` is the state after `n` steps and `ev n` is the entry of the order of steps taken then. The
order is any infinite sequence: the script a state carries is no limit to it, so the host may go on for ever and choose each
access by what it has read. -/
def InfiniteRun (ev : Nat → Event) (r : Nat → State) : Prop :=
  ∀ n, ∃ rest, step ((r n).withScript (ev n :: rest)) = .next (r (n + 1))

/-- The fairness of R282 (92_eei_decisions.md D22): an engine that is busy eventually takes its step, unless a RESET makes it
idle. -/
def FairRun (ev : Nat → Event) (r : Nat → State) : Prop :=
  ∀ g n, ∃ m, n ≤ m ∧ (ev m = .turn g ∨ (r m).stateNum g = 0)

/-- A schedule in which `HOST` and the other engine do anything, ENC takes `n` turns, and neither an `ENC.START` nor a RESET
occurs (R150). -/
def EncSchedule (cfg : Config) (n : Nat) (l : List Event) : Prop :=
  l.count (.turn .enc) = n ∧ ∀ ev ∈ l, ev ≠ .reset ∧ ev.startsEnc cfg = false

/-- A schedule in which `HOST` and the other engine do anything, DEC takes `n` turns, and neither a `DEC.START` nor a RESET
occurs (R181). -/
def DecSchedule (cfg : Config) (n : Nat) (l : List Event) : Prop :=
  l.count (.turn .dec) = n ∧ ∀ ev ∈ l, ev ≠ .reset ∧ ev.startsDec cfg = false

/-- `ENC.ILEN` and `ENC_IBUF` hold the input `bs` (R150). -/
def State.EncInput (s : State) (bs : List Byte) : Prop :=
  s.enc.regs.ilen.toNat = bs.length ∧ ∀ i (h : i < bs.length), s.enc.inByte s.resets i = bs[i]

/-- `DEC.ILEN` and `DEC_IBUF` hold the input `cs` (R181). -/
def State.DecInput (s : State) (cs : List Code) : Prop :=
  s.dec.regs.ilen.toNat = cs.length ∧ ∀ i (h : i < cs.length), s.dec.inCode s.resets i = cs[i]

end Sys2Proof.Machine
end

