-- ==== Sys2Proof/Certificates/Slice0/Obligations.lean ====
section
/-! DEFINITION. The statements for the provers. Each docstring names the rule of spec/ it formalises; where a clause rests on a
choice of the model, the docstring names the log entry. -/

open Sys2Proof Sys2Proof.Machine

/-! ### Encodings -/

/-- Words written out bit by bit from the tables of 30_encoding.md (R91 to R93, R96) and 10_state.md R38, and what they decode to
(95_test_vectors.md K1, K3, P1). -/
def Obligations.TableWordsDecode : Prop :=
  decodeCode 0b0000000000000000#16 = .lit 0x00#8 ∧
  decodeCode 0b0000000001100001#16 = .lit 0x61#8 ∧
  decodeCode 0b0000000011111111#16 = .lit 0xFF#8 ∧
  decodeCode 0b0000000100000000#16 = .ref 0x0100#16 ∧
  decodeCode 0b0001000011111110#16 = .ref 0x10FE#16 ∧
  decodeCode 0b1111111111111111#16 = .ref 0xFFFF#16 ∧
  decodeBus .suggested ⟨.write, 32, 0x010, 0x00000001#32⟩ = .ok (.encStart 0) ∧
  decodeBus .suggested ⟨.write, 32, 0x010, 0x80000001#32⟩ = .ok (.encStart 0x40000000#31) ∧
  decodeBus .suggested ⟨.write, 32, 0x030, 0x00000003#32⟩ = .ok (.decStart 1) ∧
  decodeBus .suggested ⟨.write, 32, 0x010, 0xFFFFFFFE#32⟩ = .ok (.hostWrreg (.ctrl .enc) 0xFFFFFFFE#32) ∧
  decodeBus .suggested ⟨.write, 32, 0x018, 0x00000008#32⟩ = .ok (.hostWrreg (.ilen .enc) 8) ∧
  decodeBus .suggested ⟨.read, 32, 0x034, 0⟩ = .ok (.hostRdreg (.status .dec)) ∧
  decodeBus .suggested ⟨.read, 32, 0x024, 0⟩ = .ok (.hostRdreg (.reserved 0x024)) ∧
  decodeBus .suggested ⟨.write, 8, 0x1000007, 0x61⟩ = .ok (.hostWrbuf .encIbuf 7 0x61) ∧
  decodeBus .suggested ⟨.read, 16, 0x2000006, 0⟩ = .ok (.hostRdbuf .encObuf 3) ∧
  decodeBus .suggested ⟨.write, 16, 0x3000002, 0x0100⟩ = .ok (.hostWrbuf .decIbuf 1 0x0100) ∧
  decodeBus .suggested ⟨.read, 8, 0x4000007, 0⟩ = .ok (.hostRdbuf .decObuf 7) ∧
  decodeBus .suggested ⟨.write, 16, 0x2000000, 1⟩ = .error .readOnly ∧
  decodeBus .suggested ⟨.read, 16, 0x2002000, 0⟩ = .error .unmapped ∧
  decodeBus .suggested ⟨.read, 8, 0x014, 0⟩ = .error .wrongWidth

/-- Decoding what a well-formed operation is encoded as gives the operation back, with every operand at every value the encoding
admits, for any sizes and base the spec allows; and the dictionary operations, and only they, have no encoding (R99). -/
def Obligations.DecodeOfEncodeIsIdentity : Prop :=
  ∀ (cfg : Config) (i : Instr), cfg.ok → i.wellFormed cfg = true →
    (encode cfg i = none ↔ i.format = .dictOp) ∧ ∀ sel, encode cfg i = some sel → decode cfg sel = .ok i

/-- Every bus access that decodes gives a well-formed operation: no reserved or out-of-range operand gets past the decoder. -/
def Obligations.DecodedAccessIsWellFormed : Prop :=
  ∀ (cfg : Config) (a : BusAccess) (i : Instr), cfg.ok → decodeBus cfg a = .ok i → i.wellFormed cfg = true

/-- R63, R61 and R205: the accesses that decode are exactly the ones of R63's table at offsets of R61's windows, output buffers
read-only; every other access leaves the block as it was and is answered a bus error. -/
def Obligations.InvalidAccessChangesNothing : Prop :=
  ∀ (s : State) (a : BusAccess) (rest : List Event), s.cfg.ok → s.script = .host a :: rest →
    ((∃ i, decodeBus s.cfg a = .ok i) ↔
      s.cfg.lzwBase ≤ a.addr ∧
        ((a.addr - s.cfg.lzwBase < 0x1000 ∧ a.bits = 32 ∧ (a.addr - s.cfg.lzwBase) % 4 = 0) ∨
         (∃ n < s.cfg.encInMax, a.addr - s.cfg.lzwBase = 0x1000000 + n ∧ a.bits = 8) ∨
         (∃ n < 4096, a.addr - s.cfg.lzwBase = 0x2000000 + 2 * n ∧ a.bits = 16 ∧ a.kind = .read) ∨
         (∃ n < s.cfg.decInMax, a.addr - s.cfg.lzwBase = 0x3000000 + 2 * n ∧ a.bits = 16) ∨
         (∃ n < s.cfg.decOutMax, a.addr - s.cfg.lzwBase = 0x4000000 + n ∧ a.bits = 8 ∧ a.kind = .read))) ∧
    ∀ why, decodeBus s.cfg a = .error why → step s = .next ((s.withScript rest).withReply (.busError why))

/-! ### A step runs the decoded instruction -/

/-- A host access that decodes to an operation is a step of that operation, with the access taken off the order of steps. -/
def Obligations.StepRunsTheDecodedAccess : Prop :=
  ∀ (s : State) (a : BusAccess) (rest : List Event) (i : Instr),
    s.script = .host a :: rest → decodeBus s.cfg a = .ok i → step s = exec i (s.withScript rest)

/-- A turn of DEC that consumes a code word is a step of the instruction the word decodes to (R94), with the turn taken off the
order of steps: the word at the cursor in SCAN and LOOP, the word at index 0 in FIRST. -/
def Obligations.StepRunsTheCodeWordAtTheCursor : Prop :=
  ∀ (s : State) (rest : List Event), s.script = .turn .dec :: rest →
    ((s.dec.phase = .scan ∨ s.dec.phase = .loop) → s.dec.regs.ipos < s.dec.regs.ilen →
      s.dec.regs.ipos.toNat < s.cfg.decInMax →
      step s = exec (decodeCode (s.dec.inCode s.resets s.dec.regs.ipos.toNat)) (s.withScript rest)) ∧
    (s.dec.phase = .first → s.dec.regs.ilen ≠ 0 → 0 < s.cfg.decInMax →
      step s = exec (decodeCode (s.dec.inCode s.resets 0)) (s.withScript rest))

/-- R98, the ENC table: a turn of busy ENC is the step of the one row whose condition holds. -/
def Obligations.EncTurnIsTheSelectedRow : Prop :=
  ∀ (s : State) (rest : List Event), s.script = .turn .enc :: rest → s.enc.regs.ilen.toNat ≤ s.cfg.encInMax →
    let e := s.enc
    let c := e.inByte s.resets e.regs.ipos.toNat
    (e.phase = .scan → e.regs.ipos < e.regs.ilen → step s = exec .encScan (s.withScript rest)) ∧
    (e.phase = .scan → e.regs.ipos = e.regs.ilen → step s = exec .encScanEnd (s.withScript rest)) ∧
    (e.phase = .matching → e.regs.ipos < e.regs.ilen → e.dict.findP (e.p ++ [c]) ≠ none →
      step s = exec .encHit (s.withScript rest)) ∧
    (e.phase = .matching → e.regs.ipos < e.regs.ilen → e.dict.findP (e.p ++ [c]) = none → e.dict.nent < 4096 →
      step s = exec .encMiss (s.withScript rest)) ∧
    (e.phase = .matching → e.regs.ipos < e.regs.ilen → e.dict.findP (e.p ++ [c]) = none → e.dict.nent = 4096 →
      step s = exec .encFull (s.withScript rest)) ∧
    (e.phase = .matching → e.regs.ipos = e.regs.ilen → step s = exec .encEoi (s.withScript rest)) ∧
    (e.phase = .flush → step s = exec .encFlush (s.withScript rest))

/-- R98, the DEC table: a turn of busy DEC is the step of the one row whose condition holds; `nextLen` is the length of
`next`: of the found pattern, or of `LAST` and one byte. -/
def Obligations.DecTurnIsTheSelectedRow : Prop :=
  ∀ (s : State) (rest : List Event), s.script = .turn .dec :: rest → s.dec.regs.ilen.toNat ≤ s.cfg.decInMax →
    let d := s.dec
    let k := d.inCode s.resets d.regs.ipos.toNat
    (d.phase = .scan → d.regs.ipos < d.regs.ilen → step s = exec .decScan (s.withScript rest)) ∧
    (d.phase = .scan → d.regs.ipos = d.regs.ilen → step s = exec .decScanEnd (s.withScript rest)) ∧
    (d.phase = .first → d.regs.ilen ≠ 0 → d.dict.findC (d.inCode s.resets 0) ≠ none →
      step s = exec .decFirst (s.withScript rest)) ∧
    (d.phase = .first → (d.regs.ilen = 0 ∨ d.dict.findC (d.inCode s.resets 0) = none) →
      step s = exec .decBadFirst (s.withScript rest)) ∧
    (d.phase = .loop → d.regs.ipos = d.regs.ilen → step s = exec .decEnd (s.withScript rest)) ∧
    (d.phase = .loop → d.regs.ipos < d.regs.ilen → d.dict.nent = 4096 → step s = exec .decFull (s.withScript rest)) ∧
    (d.phase = .loop → d.regs.ipos < d.regs.ilen → d.dict.nent < 4096 → s.cfg.decOutMax < d.regs.opos.toNat + d.nextLen k →
      step s = exec .decOvf (s.withScript rest)) ∧
    (d.phase = .loop → d.regs.ipos < d.regs.ilen → d.dict.nent < 4096 → d.regs.opos.toNat + d.nextLen k ≤ s.cfg.decOutMax →
      d.dict.findC k ≠ none → step s = exec .decKnown (s.withScript rest)) ∧
    (d.phase = .loop → d.regs.ipos < d.regs.ilen → d.dict.nent < 4096 → d.regs.opos.toNat + d.nextLen k ≤ s.cfg.decOutMax →
      d.dict.findC k = none → step s = exec .decKwkwk (s.withScript rest))

/-- R22 and R259: an idle engine has no enabled step. A turn of an idle engine changes nothing but the order of steps (log 2). When
the script has ended the order goes on in rounds, what `cycle` repeats and then a turn of each engine (log 3), so that a block
with both engines idle and nothing to repeat waits and keeps its state. -/
def Obligations.IdleEnginesWait : Prop :=
  ∀ (s : State) (rest : List Event),
    (s.script = .turn .enc :: rest → s.enc.phase = .idle → step s = .next (s.withScript rest)) ∧
    (s.script = .turn .dec :: rest → s.dec.phase = .idle → step s = .next (s.withScript rest)) ∧
    (s.script = [] → step s = step (s.withScript (s.cycle ++ [.turn .enc, .turn .dec]))) ∧
    (s.script = [] → s.cycle = [] → s.enc.phase = .idle → s.dec.phase = .idle → core.run 2 s = .next s)

/-! ### Host operations -/

/-- R200: what each register reads as, and that a read changes no state of the block. -/
def Obligations.ReadRegisterReturnsItsValue : Prop :=
  ∀ (r : Reg) (s : State), ∃ v, exec (.hostRdreg r) s = .next (s.withReply (.reg v)) ∧
    (r = .id → v = 0x4C5A5701) ∧
    (r = .encInMax → v = BitVec.ofNat 32 s.cfg.encInMax) ∧
    (r = .decInMax → v = BitVec.ofNat 32 s.cfg.decInMax) ∧
    (r = .decOutMax → v = BitVec.ofNat 32 s.cfg.decOutMax) ∧
    (∀ g, r = .ctrl g → v = 0) ∧
    (∀ g, r = .status g → v.toNat = (s.stateNum g).toNat + 16 * (s.regsOf g).done.toNat + 32 * (s.regsOf g).err.toNat +
      256 * (s.regsOf g).errcode.num.toNat) ∧
    (∀ g, r = .ilen g → v = (s.regsOf g).ilen) ∧
    (∀ g, r = .ocnt g → v = (s.regsOf g).ocnt) ∧
    (∀ g, r = .errinfo g → v = (s.regsOf g).errinfo) ∧
    (∀ off, r = .reserved off → v = 0)

/-- R42: the fields of the status word, bit by bit, at any time; while busy DONE = ERR = 0 and ERRCODE = 0; it reads 0 at reset; a
read has no side effect and a write is ignored. -/
def Obligations.StatusWordFields : Prop :=
  ∀ (s : State) (g : Engine),
    let v := s.readReg (.status g)
    v.extractLsb' 0 3 = s.stateNum g ∧ v.getLsbD 3 = false ∧
    v.getLsbD 4 = (s.regsOf g).done ∧ v.getLsbD 5 = (s.regsOf g).err ∧
    v.extractLsb' 6 2 = 0 ∧ v.extractLsb' 8 4 = (s.regsOf g).errcode.num ∧ v.extractLsb' 12 20 = 0 ∧
    (Inv s → s.stateNum g ≠ 0 → v.getLsbD 4 = false ∧ v.getLsbD 5 = false ∧ v.extractLsb' 8 4 = 0) ∧
    State.reset.readReg (.status g) = 0 ∧ exec (.hostRdreg (.status g)) s = .next (s.withReply (.reg v)) ∧
    ∀ w, exec (.hostWrreg (.status g) w) s = .next (s.withReply .ack)

/-- R201: a register write always completes. `G_ILEN` takes all 32 bits while its engine is idle; a word with bit 0 set written to
`G_CTRL` is the START of its engine; every other write, and every write to a busy engine, has no effect (R204). -/
def Obligations.WriteRegisterEffect : Prop :=
  ∀ (r : Reg) (v : Word) (s : State), ∃ t, exec (.hostWrreg r v) s = .next t ∧
    (r = .ilen .enc → s.enc.phase = .idle →
      t = (s.withEnc { s.enc with regs := { s.enc.regs with ilen := v } }).withReply .ack) ∧
    (r = .ilen .dec → s.dec.phase = .idle →
      t = (s.withDec { s.dec with regs := { s.dec.regs with ilen := v } }).withReply .ack) ∧
    (r = .ctrl .enc → v.getLsbD 0 = true → s.enc.phase = .idle → exec (.encStart (v.extractLsb' 1 31)) s = .next t) ∧
    (r = .ctrl .dec → v.getLsbD 0 = true → s.dec.phase = .idle → exec (.decStart (v.extractLsb' 1 31)) s = .next t) ∧
    ((∀ g, r ≠ .ilen g ∧ r ≠ .ctrl g) ∨ (∃ g, r = .ctrl g ∧ v.getLsbD 0 = false) ∨
        (∃ g, (r = .ilen g ∨ r = .ctrl g) ∧ s.stateNum g ≠ 0) →
      t = s.withReply .ack)

/-- R202, R68 and R205: a buffer read. The element written, its arbitrary stored reset content in an input buffer (log 5), the
element of the result below `OCNT`, or the free value of the read (log 6); a read beyond the buffer is a bus error. The block
never changes. -/
def Obligations.ReadBufferReturnsTheElement : Prop :=
  ∀ (S : Space) (i : Nat) (s : State), ∃ t, exec (.hostRdbuf S i) s = .next t ∧
    t.cfg = s.cfg ∧ t.enc = s.enc ∧ t.dec = s.dec ∧ t.script = s.script ∧ t.resets = s.resets ∧
    (S.count s.cfg ≤ i → t = s.withReply (.busError .pastEnd)) ∧
    (i < S.count s.cfg →
      (S = .encIbuf → t = s.withReply (.elem ((s.enc.inByte s.resets i).zeroExtend 16))) ∧
      (S = .decIbuf → t = s.withReply (.elem (s.dec.inCode s.resets i))) ∧
      (S = .encObuf → i < s.enc.regs.ocnt.toNat → ∀ v, s.enc.obuf.get? i = some v → t = s.withReply (.elem v)) ∧
      (S = .decObuf → i < s.dec.regs.ocnt.toNat → ∀ v, s.dec.obuf.get? i = some v →
        t = s.withReply (.elem (v.zeroExtend 16))) ∧
      (S = .encObuf → s.enc.regs.ocnt.toNat ≤ i →
        t.reply = .elem (Config.freeCode s.freeReads) ∧ t.freeReads = s.freeReads + 1) ∧
      (S = .decObuf → s.dec.regs.ocnt.toNat ≤ i →
        t.reply = .elem ((Config.freeByte s.freeReads).zeroExtend 16) ∧ t.freeReads = s.freeReads + 1))

/-- R203, R69 and R205: a buffer write. While the owning engine is idle it stores the one element and leaves every other element,
and everything else of the block, as it was; while it is busy the write is ignored; a write to an output buffer or beyond the
buffer, an invalid access (R205), changes nothing of the block and is answered a bus error (that it is a step at all is log 9). -/
def Obligations.WriteBufferStoresOneElement : Prop :=
  ∀ (S : Space) (i : Nat) (v : BitVec 16) (s : State), ∃ t, exec (.hostWrbuf S i v) s = .next t ∧
    (S = .encIbuf → i < s.cfg.encInMax → s.enc.phase = .idle → ∃ b, t = (s.withEnc { s.enc with ibuf := b }).withReply .ack ∧
      b.get? i = some (v.truncate 8) ∧ ∀ j, j ≠ i → b.get? j = s.enc.ibuf.get? j) ∧
    (S = .decIbuf → i < s.cfg.decInMax → s.dec.phase = .idle → ∃ b, t = (s.withDec { s.dec with ibuf := b }).withReply .ack ∧
      b.get? i = some v ∧ ∀ j, j ≠ i → b.get? j = s.dec.ibuf.get? j) ∧
    (S = .encIbuf → i < s.cfg.encInMax → s.enc.phase ≠ .idle → t = s.withReply .ack) ∧
    (S = .decIbuf → i < s.cfg.decInMax → s.dec.phase ≠ .idle → t = s.withReply .ack) ∧
    (S = .encObuf ∨ S = .decObuf → t = s.withReply (.busError .readOnly)) ∧
    (S = .encIbuf ∨ S = .decIbuf → S.count s.cfg ≤ i → t = s.withReply (.busError .pastEnd))

/-- R204: whatever the host does to a busy engine, the engine's state does not change; its `OCNT` and `ERRINFO` read 0 and its
status shows DONE = ERR = 0; its `ILEN` and input elements read their values; its output elements are unspecified. -/
def Obligations.BusyEngineIgnoresTheHost : Prop :=
  ∀ (s t : State) (a : BusAccess) (rest : List Event), Inv s → s.script = .host a :: rest → step s = .next t →
    (s.enc.phase ≠ .idle → t.enc = s.enc ∧ s.readReg (.ocnt .enc) = 0 ∧ s.readReg (.errinfo .enc) = 0 ∧
      s.readReg (.ilen .enc) = s.enc.regs.ilen ∧ (s.readReg (.status .enc)).toNat = s.enc.phase.num.toNat ∧
      (∀ i, s.specifiedElem .encObuf i = none) ∧
      ∀ i, s.specifiedElem .encIbuf i = some ((s.enc.inByte s.resets i).zeroExtend 16)) ∧
    (s.dec.phase ≠ .idle → t.dec = s.dec ∧ s.readReg (.ocnt .dec) = 0 ∧ s.readReg (.errinfo .dec) = 0 ∧
      s.readReg (.ilen .dec) = s.dec.regs.ilen ∧ (s.readReg (.status .dec)).toNat = s.dec.phase.num.toNat ∧
      (∀ i, s.specifiedElem .decObuf i = none) ∧ ∀ i, s.specifiedElem .decIbuf i = some (s.dec.inCode s.resets i))

/-- R66: every read of every space is free of side effects and idempotent: two reads in a row change nothing of the block, and
return the same unless the element read is unspecified. -/
def Obligations.ReadsAreFreeOfSideEffects : Prop :=
  ∀ (s : State) (a : BusAccess) (rest : List Event), a.kind = .read → s.script = .host a :: .host a :: rest →
    ∃ t u, step s = .next t ∧ step t = .next u ∧
      t.cfg = s.cfg ∧ t.enc = s.enc ∧ t.dec = s.dec ∧ t.resets = s.resets ∧
      u.cfg = s.cfg ∧ u.enc = s.enc ∧ u.dec = s.dec ∧ u.resets = s.resets ∧
      ((∀ S i, decodeBus s.cfg a = .ok (.hostRdbuf S i) → s.specifiedElem S i ≠ none) → u.reply = t.reply)

/-! ### The START commands -/

/-- R140: `ENC.START`. Idle, it clears the flags, the error, the count, the cursors, `P` and the dictionary, keeps `ILEN` and both
buffers, and either makes ENC busy or, for a length beyond the input buffer, records BADLEN (R247); busy, it has no effect. The
31 ignored bits do not matter (R96). -/
def Obligations.EncStartBeginsACall : Prop :=
  ∀ (x : BitVec 31) (s : State), ∃ e, exec (.encStart x) s = .next ((s.withEnc e).withReply .ack) ∧
    (s.enc.phase ≠ .idle → e = s.enc) ∧
    (s.enc.phase = .idle →
      e.regs.done = false ∧ e.regs.ocnt = 0 ∧ e.regs.opos = 0 ∧ e.regs.ipos = 0 ∧ e.regs.ilen = s.enc.regs.ilen ∧
      e.p = [] ∧ e.dict.ent = [] ∧ e.dict.next = 256 ∧ e.ibuf = s.enc.ibuf ∧ e.obuf = s.enc.obuf ∧
      (s.enc.regs.ilen.toNat ≤ s.cfg.encInMax →
        e.phase = .scan ∧ e.regs.err = false ∧ e.regs.errcode = .none ∧ e.regs.errinfo = 0) ∧
      (s.cfg.encInMax < s.enc.regs.ilen.toNat →
        e.phase = .idle ∧ e.regs.err = true ∧ e.regs.errcode = .badlen ∧ e.regs.errinfo = s.enc.regs.ilen))

/-- R170: `DEC.START`, the same for DEC (R247). -/
def Obligations.DecStartBeginsACall : Prop :=
  ∀ (x : BitVec 31) (s : State), ∃ d, exec (.decStart x) s = .next ((s.withDec d).withReply .ack) ∧
    (s.dec.phase ≠ .idle → d = s.dec) ∧
    (s.dec.phase = .idle →
      d.regs.done = false ∧ d.regs.ocnt = 0 ∧ d.regs.opos = 0 ∧ d.regs.ipos = 0 ∧ d.regs.ilen = s.dec.regs.ilen ∧
      d.last = [] ∧ d.dict.ent = [] ∧ d.dict.next = 256 ∧ d.ibuf = s.dec.ibuf ∧ d.obuf = s.dec.obuf ∧
      (s.dec.regs.ilen.toNat ≤ s.cfg.decInMax →
        d.phase = .scan ∧ d.regs.err = false ∧ d.regs.errcode = .none ∧ d.regs.errinfo = 0) ∧
      (s.cfg.decInMax < s.dec.regs.ilen.toNat →
        d.phase = .idle ∧ d.regs.err = true ∧ d.regs.errcode = .badlen ∧ d.regs.errinfo = s.dec.regs.ilen))

/-! ### The dictionary operations -/

/-- R120: `DICT.CLEAR` empties the dictionary and sets its counter to 256; everything else of both engines is unchanged. -/
def Obligations.DictClearEmpties : Prop :=
  ∀ (T : Engine) (s : State), ∃ t, exec (.dictClear T) s = .next t ∧
    (t.dictOf T).ent = [] ∧ (t.dictOf T).nent = 0 ∧ (t.dictOf T).next = 256 ∧
    (∀ d, t.setDict T d = (s.setDict T d).withDictRet .none)

/-- R121 to R124: `DICT.INSERT` into a dictionary with room appends one entry, with the byte's value as code and the counter
unmoved for one byte (R122), with the counter as code and the counter moved for more; it makes no duplicate check (R124). On a
full dictionary any pattern raises CAPACITY in the owning engine (R123, R250; 95_test_vectors.md T22). The empty pattern, which
R121 does not admit, stops where there is room (log 17). -/
def Obligations.DictInsertAppendsOneEntry : Prop :=
  ∀ (T : Engine) (p : Pattern) (s : State),
    (1 ≤ p.length → (s.dictOf T).nent < 4096 →
      ∃ k d, exec (.dictInsert T p) s = .next ((s.setDict T d).withDictRet (.code k)) ∧
        d.ent = (s.dictOf T).ent ++ [⟨k, p⟩] ∧ d.nent = (s.dictOf T).nent + 1 ∧
        (∀ b, p = [b] → k = b.zeroExtend 16 ∧ d.next = (s.dictOf T).next) ∧
        (2 ≤ p.length → k = (s.dictOf T).next ∧ d.next = (s.dictOf T).next + 1)) ∧
    ((s.dictOf T).nent = 4096 → exec (.dictInsert T p) s = .next ((s.fail T .capacity).withDictRet .failed)) ∧
    (p.length = 0 → (s.dictOf T).nent < 4096 → exec (.dictInsert T p) s = .fault .illegalOperand)

/-- R125: `DICT.FINDP` answers the code of an entry whose pattern is exactly `p`, or none when there is no such entry, and changes
nothing. Where several entries have the pattern, which of their codes is a free value (log 10). R127: lookup is by full content
equality and by nothing else: with no pattern twice, any way of holding the same entries gives the same answer. -/
def Obligations.DictFindpIsExactMatch : Prop :=
  ∀ (T : Engine) (p : Pattern) (s : State), ∃ r, exec (.dictFindp T p) s = .next (s.withDictRet (.optCode r)) ∧
    (r = none ↔ ∀ e ∈ (s.dictOf T).ent, e.pat ≠ p) ∧ (∀ k, r = some k → ⟨k, p⟩ ∈ (s.dictOf T).ent) ∧
    ((s.dictOf T).patterns.Nodup → ∀ s' : State, (∀ e, e ∈ (s'.dictOf T).ent ↔ e ∈ (s.dictOf T).ent) →
      exec (.dictFindp T p) s' = .next (s'.withDictRet (.optCode r)))

/-- R126: `DICT.FINDC` answers the pattern of an entry whose code is `k`, or none when there is no such entry, and changes nothing.
In a dictionary that meets R34, a multi-byte code is found exactly when `256 ≤ k < NEXT`, and the entry found is the only one with
the code, so that any way of holding the same entries gives the same answer (R127). -/
def Obligations.DictFindcIsExactMatch : Prop :=
  ∀ (T : Engine) (k : Code) (s : State), ∃ r, exec (.dictFindc T k) s = .next (s.withDictRet (.optPattern r)) ∧
    (r = none ↔ ∀ e ∈ (s.dictOf T).ent, e.code ≠ k) ∧ (∀ p, r = some p → ⟨k, p⟩ ∈ (s.dictOf T).ent) ∧
    (DictInv (s.dictOf T) → 256 ≤ k.toNat → (r ≠ none ↔ k.toNat < (s.dictOf T).next.toNat)) ∧
    (DictInv (s.dictOf T) → ∀ p q, ⟨k, p⟩ ∈ (s.dictOf T).ent → ⟨k, q⟩ ∈ (s.dictOf T).ent → p = q) ∧
    (DictInv (s.dictOf T) → ∀ s' : State, (∀ e, e ∈ (s'.dictOf T).ent ↔ e ∈ (s.dictOf T).ent) →
      exec (.dictFindc T k) s' = .next (s'.withDictRet (.optPattern r)))

/-! ### The encoder's steps -/

/-- R141: `ENC.SCAN` moves the cursor by one and inserts the byte at it as a literal exactly when no entry has its code; nothing else
changes. -/
def Obligations.EncScanInsertsNewLiterals : Prop :=
  ∀ s : State, s.enc.phase = .scan → s.enc.regs.ipos < s.enc.regs.ilen → s.enc.regs.ipos.toNat < s.cfg.encInMax →
    let b := s.enc.inByte s.resets s.enc.regs.ipos.toNat
    ((∃ e ∈ s.enc.dict.ent, e.code = b.zeroExtend 16) →
      exec .encScan s = .next (s.withEnc { s.enc with regs := { s.enc.regs with ipos := s.enc.regs.ipos + 1 } })) ∧
    ((∀ e ∈ s.enc.dict.ent, e.code ≠ b.zeroExtend 16) → s.enc.dict.nent < 4096 →
      exec .encScan s = .next (s.withEnc { s.enc with
        regs := { s.enc.regs with ipos := s.enc.regs.ipos + 1 }
        dict := { s.enc.dict with ent := s.enc.dict.ent ++ [⟨b.zeroExtend 16, [b]⟩] } }))

/-- R142 and R146: `ENC.SCANEND` sets the cursor to 0 and enters MATCH; `ENC.EOI` enters FLUSH; nothing else changes. -/
def Obligations.EncPhaseChanges : Prop :=
  ∀ s : State,
    (s.enc.phase = .scan → s.enc.regs.ipos = s.enc.regs.ilen →
      exec .encScanEnd s = .next (s.withEnc { s.enc with phase := .matching, regs := { s.enc.regs with ipos := 0 } })) ∧
    (s.enc.phase = .matching → s.enc.regs.ipos = s.enc.regs.ilen →
      exec .encEoi s = .next (s.withEnc { s.enc with phase := .flush }))

/-- R143: `ENC.HIT` extends `P` by the byte at the cursor and moves the cursor by one; nothing is emitted and DICT_E does not
change. -/
def Obligations.EncHitExtendsThePattern : Prop :=
  ∀ s : State, s.enc.phase = .matching → s.enc.regs.ipos < s.enc.regs.ilen → s.enc.regs.ipos.toNat < s.cfg.encInMax →
    s.enc.dict.findP (s.enc.p ++ [s.enc.inByte s.resets s.enc.regs.ipos.toNat]) ≠ none →
    exec .encHit s = .next (s.withEnc { s.enc with
      p := s.enc.p ++ [s.enc.inByte s.resets s.enc.regs.ipos.toNat]
      regs := { s.enc.regs with ipos := s.enc.regs.ipos + 1 } })

/-- R144: `ENC.MISS` inserts `P ++ [c]` with the code `NEXT`, which moves by one, emits the code of `P` at `OPOS`, and restarts the
pattern at `[c]`; both cursors move by one; every other output element, the input and everything else are unchanged. -/
def Obligations.EncMissLearnsAndEmits : Prop :=
  ∀ s : State, Inv s → s.enc.phase = .matching → s.enc.regs.ipos < s.enc.regs.ilen →
    s.enc.dict.findP (s.enc.p ++ [s.enc.inByte s.resets s.enc.regs.ipos.toNat]) = none → s.enc.dict.nent < 4096 →
    ∃ e k, exec .encMiss s = .next (s.withEnc e) ∧
      s.enc.dict.findP s.enc.p = some k ∧ s.enc.regs.opos.toNat < 4096 ∧
      e.dict.ent = s.enc.dict.ent ++
        [⟨s.enc.dict.next, s.enc.p ++ [s.enc.inByte s.resets s.enc.regs.ipos.toNat]⟩] ∧
      e.dict.next.toNat = s.enc.dict.next.toNat + 1 ∧
      e.obuf.get? s.enc.regs.opos.toNat = some k ∧
      (∀ j, j ≠ s.enc.regs.opos.toNat → e.obuf.get? j = s.enc.obuf.get? j) ∧
      e.p = [s.enc.inByte s.resets s.enc.regs.ipos.toNat] ∧
      e.regs = { s.enc.regs with opos := s.enc.regs.opos + 1, ipos := s.enc.regs.ipos + 1 } ∧
      e.phase = s.enc.phase ∧ e.ibuf = s.enc.ibuf

/-- R147: `ENC.FLUSH` emits the code of a non-empty `P`, publishes the count, sets DONE, and empties `P` and the dictionary; the
other output elements, the input and everything else are unchanged. -/
def Obligations.EncFlushFinishesTheCall : Prop :=
  ∀ s : State, Inv s → s.enc.phase = .flush →
    ∃ e, exec .encFlush s = .next (s.withEnc e) ∧
      e.phase = .idle ∧ e.p = [] ∧ e.dict.ent = [] ∧ e.dict.next = 256 ∧ e.ibuf = s.enc.ibuf ∧
      e.regs.done = true ∧ e.regs.err = s.enc.regs.err ∧ e.regs.errcode = s.enc.regs.errcode ∧
      e.regs.errinfo = s.enc.regs.errinfo ∧ e.regs.ilen = s.enc.regs.ilen ∧ e.regs.ipos = s.enc.regs.ipos ∧
      e.regs.ocnt = e.regs.opos ∧
      (s.enc.p = [] → e.regs.opos = s.enc.regs.opos ∧ e.regs.opos = 0 ∧ e.obuf = s.enc.obuf) ∧
      (s.enc.p ≠ [] → e.regs.opos.toNat = s.enc.regs.opos.toNat + 1 ∧ s.enc.regs.opos.toNat < 4096 ∧
        (∃ k, s.enc.dict.findP s.enc.p = some k ∧ e.obuf.get? s.enc.regs.opos.toNat = some k) ∧
        ∀ j, j ≠ s.enc.regs.opos.toNat → e.obuf.get? j = s.enc.obuf.get? j)

/-! ### The decoder's steps -/

/-- R171: `DEC.SCAN` moves the cursor by one and inserts the code at it as a literal exactly when it is at most 255 and no entry has
it; nothing else changes. -/
def Obligations.DecScanInsertsNewLiterals : Prop :=
  ∀ s : State, s.dec.phase = .scan → s.dec.regs.ipos < s.dec.regs.ilen → s.dec.regs.ipos.toNat < s.cfg.decInMax →
    let k := s.dec.inCode s.resets s.dec.regs.ipos.toNat
    (255 < k.toNat ∨ (∃ e ∈ s.dec.dict.ent, e.code = k) →
      exec .decScan s = .next (s.withDec { s.dec with regs := { s.dec.regs with ipos := s.dec.regs.ipos + 1 } })) ∧
    (k.toNat ≤ 255 → (∀ e ∈ s.dec.dict.ent, e.code ≠ k) → s.dec.dict.nent < 4096 →
      exec .decScan s = .next (s.withDec { s.dec with
        regs := { s.dec.regs with ipos := s.dec.regs.ipos + 1 }
        dict := { s.dec.dict with ent := s.dec.dict.ent ++ [⟨k, [k.truncate 8]⟩] } }))

/-- R173: `DEC.FIRST` resolves the first code by its value: it writes the one byte of its pattern at element 0, sets `LAST` to it,
both cursors to 1, and enters LOOP; no entry is inserted; the other output elements and everything else are unchanged. -/
def Obligations.DecFirstResolvesTheFirstCode : Prop :=
  ∀ s : State, Inv s → s.dec.phase = .first → s.dec.regs.ilen ≠ 0 →
    s.dec.dict.findC (s.dec.inCode s.resets 0) ≠ none →
    ∃ d, exec .decFirst s = .next (s.withDec d) ∧
      s.dec.dict.findC (s.dec.inCode s.resets 0) = some [(s.dec.inCode s.resets 0).truncate 8] ∧
      d.obuf.get? 0 = some ((s.dec.inCode s.resets 0).truncate 8) ∧
      (∀ j, j ≠ 0 → d.obuf.get? j = s.dec.obuf.get? j) ∧
      d.last = [(s.dec.inCode s.resets 0).truncate 8] ∧
      d.regs = { s.dec.regs with opos := 1, ipos := 1 } ∧ d.phase = .loop ∧
      d.dict = s.dec.dict ∧ d.ibuf = s.dec.ibuf

/-- R174 and R242: `DEC.BADFIRST` fails with MALFORMED and `ERRINFO` 0; its condition is `ILEN = 0` or a first code of at least
256. -/
def Obligations.DecBadFirstIsMalformed : Prop :=
  ∀ s : State, Inv s → s.dec.phase = .first →
    (s.dec.regs.ilen = 0 ∨ s.dec.dict.findC (s.dec.inCode s.resets 0) = none →
      exec .decBadFirst s = .next (s.withDec { s.dec with
        phase := .idle, last := [], dict := ⟨[], 256⟩
        regs := { s.dec.regs with
          err := true, done := false, errcode := .malformed, errinfo := 0, ocnt := 0, opos := 0 } })) ∧
    ((s.dec.regs.ilen = 0 ∨ s.dec.dict.findC (s.dec.inCode s.resets 0) = none) ↔
      (s.dec.regs.ilen = 0 ∨ 256 ≤ (s.dec.inCode s.resets 0).toNat))

/-- R175: `DEC.KNOWN` inserts `LAST` and the first byte of the found pattern with the code `NEXT`, which moves by one, appends the
found pattern at `OPOS`, and makes it `LAST`; the other output elements and everything else are unchanged. -/
def Obligations.DecKnownAppendsTheFoundPattern : Prop :=
  ∀ (s : State) (r0 : Byte) (r : Pattern), Inv s → s.dec.phase = .loop → s.dec.regs.ipos < s.dec.regs.ilen →
    s.dec.dict.findC (s.dec.inCode s.resets s.dec.regs.ipos.toNat) = some (r0 :: r) → s.dec.dict.nent < 4096 →
    s.dec.regs.opos.toNat + (r0 :: r).length ≤ s.cfg.decOutMax →
    ∃ d, exec .decKnown s = .next (s.withDec d) ∧
      d.dict.ent = s.dec.dict.ent ++ [⟨s.dec.dict.next, s.dec.last ++ [r0]⟩] ∧
      d.dict.next.toNat = s.dec.dict.next.toNat + 1 ∧
      (∀ n (h : n < (r0 :: r).length), d.obuf.get? (s.dec.regs.opos.toNat + n) = some ((r0 :: r)[n])) ∧
      (∀ j, j < s.dec.regs.opos.toNat ∨ s.dec.regs.opos.toNat + (r0 :: r).length ≤ j →
        d.obuf.get? j = s.dec.obuf.get? j) ∧
      d.last = r0 :: r ∧ d.regs.opos.toNat = s.dec.regs.opos.toNat + (r0 :: r).length ∧
      d.regs = { s.dec.regs with opos := d.regs.opos, ipos := s.dec.regs.ipos + 1 } ∧
      d.phase = s.dec.phase ∧ d.ibuf = s.dec.ibuf

/-- R176 and R183: `DEC.KWKWK`, for any absent code whatever its value: it inserts `LAST` and its own first byte with the code
`NEXT`, appends that pattern at `OPOS`, and makes it `LAST`; the other output elements and everything else are unchanged. -/
def Obligations.DecKwkwkExtendsLast : Prop :=
  ∀ (s : State) (l0 : Byte) (l : Pattern), Inv s → s.dec.phase = .loop → s.dec.regs.ipos < s.dec.regs.ilen →
    s.dec.dict.findC (s.dec.inCode s.resets s.dec.regs.ipos.toNat) = none → s.dec.dict.nent < 4096 →
    s.dec.last = l0 :: l → s.dec.regs.opos.toNat + s.dec.last.length + 1 ≤ s.cfg.decOutMax →
    ∃ d, exec .decKwkwk s = .next (s.withDec d) ∧
      d.dict.ent = s.dec.dict.ent ++ [⟨s.dec.dict.next, s.dec.last ++ [l0]⟩] ∧
      d.dict.next.toNat = s.dec.dict.next.toNat + 1 ∧
      (∀ n, n ≤ s.dec.last.length → d.obuf.get? (s.dec.regs.opos.toNat + n) = (s.dec.last ++ [l0])[n]?) ∧
      (∀ j, j < s.dec.regs.opos.toNat ∨ s.dec.regs.opos.toNat + s.dec.last.length + 1 ≤ j →
        d.obuf.get? j = s.dec.obuf.get? j) ∧
      d.last = s.dec.last ++ [l0] ∧ d.regs.opos.toNat = s.dec.regs.opos.toNat + s.dec.last.length + 1 ∧
      d.regs = { s.dec.regs with opos := d.regs.opos, ipos := s.dec.regs.ipos + 1 } ∧
      d.phase = s.dec.phase ∧ d.ibuf = s.dec.ibuf

/-- R172 and R179: `DEC.SCANEND` enters FIRST and leaves the cursor at `ILEN` (log 21), and the element the FIRST phase reads next
is element 0 (R23's "index of the next input element the current phase will read", R173); `DEC.END` publishes the count, sets DONE, and empties
`LAST` and the dictionary; the output buffer, the input and everything else are unchanged. -/
def Obligations.DecPhaseChanges : Prop :=
  ∀ s : State,
    (s.dec.phase = .scan → s.dec.regs.ipos = s.dec.regs.ilen →
      exec .decScanEnd s = .next (s.withDec { s.dec with phase := .first }) ∧
        DecState.codeIndex { s.dec with phase := .first } = 0) ∧
    (s.dec.phase = .loop → s.dec.regs.ipos = s.dec.regs.ilen →
      exec .decEnd s = .next (s.withDec { s.dec with
        phase := .idle, last := [], dict := ⟨[], 256⟩
        regs := { s.dec.regs with ocnt := s.dec.regs.opos, done := true } }))

/-- R92 to R94 and R183: what DEC does with a code word `k`, a `LIT` or a `REF`, by its phase and the dictionary alone; the step
always completes. SCAN: a new literal is inserted, any other word only moves the cursor. FIRST: a word in the dictionary is
resolved, any other is MALFORMED. LOOP: a full table is CAPACITY, an output too long is OVERFLOW (R248), else the found pattern, or
`LAST` and its first byte, is appended. Nothing else changes. (That a code word acts as the step R98 selects is log 13.) -/
def Obligations.CodeWordIsConsumed : Prop :=
  ∀ (s : State) (i : Instr) (k : Code), Inv s → s.dec.consumesCode = true →
    ((∃ b : Byte, i = .lit b ∧ k = b.zeroExtend 16) ∨ (i = .ref k ∧ 256 ≤ k.toNat)) →
    ∃ d, exec i s = .next (s.withDec d) ∧ d.ibuf = s.dec.ibuf ∧
      (s.dec.phase = .scan →
        d.phase = .scan ∧ d.regs = { s.dec.regs with ipos := s.dec.regs.ipos + 1 } ∧ d.obuf = s.dec.obuf ∧
        d.last = s.dec.last ∧ d.dict.next = s.dec.dict.next ∧
        (k.toNat ≤ 255 → (∀ e ∈ s.dec.dict.ent, e.code ≠ k) →
          d.dict.ent = s.dec.dict.ent ++ [⟨k, [k.truncate 8]⟩]) ∧
        (256 ≤ k.toNat ∨ (∃ e ∈ s.dec.dict.ent, e.code = k) → d.dict = s.dec.dict)) ∧
      (s.dec.phase = .first → s.dec.dict.findC k = none → d = s.dec.fail .malformed 0) ∧
      (s.dec.phase = .first → s.dec.dict.findC k ≠ none →
        d.phase = .loop ∧ d.last = [k.truncate 8] ∧ d.regs = { s.dec.regs with opos := 1, ipos := 1 } ∧
        d.dict = s.dec.dict ∧ d.obuf.get? 0 = some (k.truncate 8) ∧ ∀ j, j ≠ 0 → d.obuf.get? j = s.dec.obuf.get? j) ∧
      (s.dec.phase = .loop → s.dec.dict.nent = 4096 → d = s.dec.fail .capacity s.dec.regs.ipos) ∧
      (s.dec.phase = .loop → s.dec.dict.nent < 4096 →
        s.cfg.decOutMax < s.dec.regs.opos.toNat + (decodeNext s.dec.dict s.dec.last k).1.length →
        d = s.dec.fail .overflow s.dec.regs.ipos) ∧
      (s.dec.phase = .loop → s.dec.dict.nent < 4096 →
        s.dec.regs.opos.toNat + (decodeNext s.dec.dict s.dec.last k).1.length ≤ s.cfg.decOutMax →
        d.phase = .loop ∧ d.last = (decodeNext s.dec.dict s.dec.last k).1 ∧
        d.dict.ent = s.dec.dict.ent ++ [⟨s.dec.dict.next, (decodeNext s.dec.dict s.dec.last k).2⟩] ∧
        d.dict.next = s.dec.dict.next + 1 ∧
        d.regs = { s.dec.regs with opos := d.regs.opos, ipos := s.dec.regs.ipos + 1 } ∧
        d.regs.opos.toNat = s.dec.regs.opos.toNat + (decodeNext s.dec.dict s.dec.last k).1.length ∧
        (∀ n (h : n < (decodeNext s.dec.dict s.dec.last k).1.length),
          d.obuf.get? (s.dec.regs.opos.toNat + n) = some (decodeNext s.dec.dict s.dec.last k).1[n]) ∧
        ∀ j, j < s.dec.regs.opos.toNat ∨ s.dec.regs.opos.toNat + (decodeNext s.dec.dict s.dec.last k).1.length ≤ j →
          d.obuf.get? j = s.dec.obuf.get? j)

/-! ### Errors -/

/-- R250, with R145, R177, R178 and R246: the error entry of the three steps that fail at an input index. Each step completes with
exactly the effect of R250 and its own error code, `ERRINFO` the index; `IPOS`, `ILEN`, the buffers and the other engine keep
their values. (`DEC.BADFIRST` is `DecBadFirstIsMalformed`.) -/
def Obligations.FailingStepsTakeTheErrorEntry : Prop :=
  ∀ s : State,
    (s.enc.phase = .matching → s.enc.regs.ipos < s.enc.regs.ilen → s.enc.regs.ipos.toNat < s.cfg.encInMax →
      s.enc.dict.findP (s.enc.p ++ [s.enc.inByte s.resets s.enc.regs.ipos.toNat]) = none → s.enc.dict.nent = 4096 →
      exec .encFull s = .next (s.withEnc { s.enc with
        phase := .idle, p := [], dict := ⟨[], 256⟩
        regs := { s.enc.regs with
          err := true, done := false, errcode := .capacity, errinfo := s.enc.regs.ipos, ocnt := 0, opos := 0 } })) ∧
    (s.dec.phase = .loop → s.dec.regs.ipos < s.dec.regs.ilen → s.dec.dict.nent = 4096 →
      exec .decFull s = .next (s.withDec { s.dec with
        phase := .idle, last := [], dict := ⟨[], 256⟩
        regs := { s.dec.regs with
          err := true, done := false, errcode := .capacity, errinfo := s.dec.regs.ipos, ocnt := 0, opos := 0 } })) ∧
    (s.dec.phase = .loop → s.dec.regs.ipos < s.dec.regs.ilen → s.dec.regs.ipos.toNat < s.cfg.decInMax →
      s.dec.dict.nent < 4096 →
      s.cfg.decOutMax < s.dec.regs.opos.toNat + s.dec.nextLen (s.dec.inCode s.resets s.dec.regs.ipos.toNat) →
      exec .decOvf s = .next (s.withDec { s.dec with
        phase := .idle, last := [], dict := ⟨[], 256⟩
        regs := { s.dec.regs with
          err := true, done := false, errcode := .overflow, errinfo := s.dec.regs.ipos, ocnt := 0, opos := 0 } }))

/-- R98, R22 and 93_implementation_defined.md U16, in the model's form (log 11): an engine step or a code word run as an instruction
in a state in which R98 does not select it stops with a fault, `notEnabled` where its engine is idle (of the DEC steps that read
an element: where the buffer has the element at the cursor). Row by row of R98's two tables, the condition of the row is what the
step needs; the rows of a full table are read with `4096 ≤ NENT` (log 16). -/
def Obligations.UnselectedStepStops : Prop :=
  ∀ s : State,
    let e := s.enc
    let c := e.inByte s.resets e.regs.ipos.toNat
    let d := s.dec
    let k := d.inCode s.resets d.regs.ipos.toNat
    (e.phase = .idle → ∀ i, i.format = .encFsm → exec i s = .fault .notEnabled) ∧
    (d.phase = .idle → ∀ i, i.format = .decFsm ∨ i.format = .code16 →
      ∃ f, exec i s = .fault f ∧ (d.regs.ipos.toNat < s.cfg.decInMax → f = .notEnabled)) ∧
    (¬ (e.phase = .scan ∧ e.regs.ipos < e.regs.ilen) → ∃ f, exec .encScan s = .fault f) ∧
    (¬ (e.phase = .scan ∧ e.regs.ipos = e.regs.ilen) → ∃ f, exec .encScanEnd s = .fault f) ∧
    (¬ (e.phase = .matching ∧ e.regs.ipos < e.regs.ilen ∧ e.dict.findP (e.p ++ [c]) ≠ none) →
      ∃ f, exec .encHit s = .fault f) ∧
    (¬ (e.phase = .matching ∧ e.regs.ipos < e.regs.ilen ∧ e.dict.findP (e.p ++ [c]) = none ∧ e.dict.nent < 4096) →
      ∃ f, exec .encMiss s = .fault f) ∧
    (¬ (e.phase = .matching ∧ e.regs.ipos < e.regs.ilen ∧ e.dict.findP (e.p ++ [c]) = none ∧ 4096 ≤ e.dict.nent) →
      ∃ f, exec .encFull s = .fault f) ∧
    (¬ (e.phase = .matching ∧ e.regs.ipos = e.regs.ilen) → ∃ f, exec .encEoi s = .fault f) ∧
    (e.phase ≠ .flush → ∃ f, exec .encFlush s = .fault f) ∧
    (¬ (d.phase = .scan ∧ d.regs.ipos < d.regs.ilen) → ∃ f, exec .decScan s = .fault f) ∧
    (¬ (d.phase = .scan ∧ d.regs.ipos = d.regs.ilen) → ∃ f, exec .decScanEnd s = .fault f) ∧
    (¬ (d.phase = .first ∧ d.regs.ilen ≠ 0 ∧ d.dict.findC (d.inCode s.resets 0) ≠ none) →
      ∃ f, exec .decFirst s = .fault f) ∧
    (¬ (d.phase = .first ∧ (d.regs.ilen = 0 ∨ d.dict.findC (d.inCode s.resets 0) = none)) →
      ∃ f, exec .decBadFirst s = .fault f) ∧
    (¬ (d.phase = .loop ∧ d.regs.ipos < d.regs.ilen ∧ d.dict.nent < 4096 ∧
        d.regs.opos.toNat + d.nextLen k ≤ s.cfg.decOutMax ∧ d.dict.findC k ≠ none) →
      ∃ f, exec .decKnown s = .fault f) ∧
    (¬ (d.phase = .loop ∧ d.regs.ipos < d.regs.ilen ∧ d.dict.nent < 4096 ∧
        d.regs.opos.toNat + d.nextLen k ≤ s.cfg.decOutMax ∧ d.dict.findC k = none) →
      ∃ f, exec .decKwkwk s = .fault f) ∧
    (¬ (d.phase = .loop ∧ d.regs.ipos < d.regs.ilen ∧ 4096 ≤ d.dict.nent) → ∃ f, exec .decFull s = .fault f) ∧
    (¬ (d.phase = .loop ∧ d.regs.ipos < d.regs.ilen ∧ d.dict.nent < 4096 ∧
        s.cfg.decOutMax < d.regs.opos.toNat + d.nextLen k) →
      ∃ f, exec .decOvf s = .fault f) ∧
    (¬ (d.phase = .loop ∧ d.regs.ipos = d.regs.ilen) → ∃ f, exec .decEnd s = .fault f) ∧
    (¬ ((d.phase = .scan ∨ d.phase = .loop) ∧ d.regs.ipos < d.regs.ilen ∨ d.phase = .first ∧ d.regs.ilen ≠ 0) →
      ∀ i, i.format = .code16 → ∃ f, exec i s = .fault f)

/-! ### Reset -/

/-- R47: the reset state, register by register. The buffers list no element: their content is arbitrary (R272, log 5, log 6). The
parameters are the suggested ones (log 1). -/
def Obligations.ResetStateValues : Prop :=
  let s := State.reset
  s.enc.phase.num = 0 ∧ s.dec.phase.num = 0 ∧
  (∀ g, (s.regsOf g).ilen = 0 ∧ (s.regsOf g).ipos = 0 ∧ (s.regsOf g).opos = 0 ∧ (s.regsOf g).ocnt = 0 ∧
    (s.regsOf g).done = false ∧ (s.regsOf g).err = false ∧ (s.regsOf g).errcode.num = 0 ∧ (s.regsOf g).errinfo = 0 ∧
    (s.dictOf g).ent = [] ∧ (s.dictOf g).nent = 0 ∧ (s.dictOf g).next = 256) ∧
  s.enc.p = [] ∧ s.dec.last = [] ∧
  s.enc.ibuf = [] ∧ s.enc.obuf = [] ∧ s.dec.ibuf = [] ∧ s.dec.obuf = [] ∧
  s.readReg .id = 0x4C5A5701 ∧ s.readReg .encInMax = 0x00010000 ∧ s.readReg .decInMax = 0x00001000 ∧
  s.readReg .decOutMax = 0x00010000

/-- R270 and R272: RESET can occur between any two steps; it abandons whatever is going on, sets both engines to their reset state,
and the content of the input buffers is arbitrary anew (log 5, log 18). -/
def Obligations.ResetEventAbandonsEverything : Prop :=
  ∀ (s : State) (rest : List Event), s.script = .reset :: rest →
    ∃ t, step s = .next t ∧ t.enc = State.reset.enc ∧ t.dec = State.reset.dec ∧ t.cfg = s.cfg ∧ t.script = rest ∧
      (∀ i, t.enc.inByte t.resets i = Config.encIbufFill (s.resets + 1) i) ∧
      (∀ i, t.dec.inCode t.resets i = Config.decIbufFill (s.resets + 1) i) ∧
      (∀ S i, S = .encObuf ∨ S = .decObuf → t.specifiedElem S i = none)

/-! ### Invariants -/

/-- Every step keeps the canonical form of the four buffers, from every state that has it. -/
def Obligations.StepKeepsMemoryCanonical : Prop :=
  ∀ s t : State, Memory.wf s → step s = .next t → Memory.wf t

/-- The invariant of Safety.lean holds at reset, for any parameters the spec allows, and after any RESET. -/
def Obligations.ResetMeetsTheInvariant : Prop :=
  Inv State.reset ∧ (∀ cfg : Config, cfg.ok → Inv { State.reset with cfg := cfg }) ∧ ∀ s : State, s.cfg.ok → Inv s.resetBlock

/-- Every step keeps the invariant, from every state that meets it: the dictionary rules R33, R34 and R37, the flag rules R26, R29,
R30, the cursor rule R23 (of a busy engine, log 19), R153 (`P` is always known), R28 (`LAST` is always an entry), R227's literal
coverage, and the bounds R228 to R230. -/
def Obligations.StepKeepsTheInvariant : Prop :=
  ∀ s t : State, Inv s → step s = .next t → Inv t

/-- 93_implementation_defined.md: "every reachable state has its enabled steps defined". No state that meets the invariant stops:
whatever the host does and in whatever order the agents move, the step answers a next state. -/
def Obligations.NoReachableStateStops : Prop :=
  ∀ s : State, Inv s → ∃ t, step s = .next t

/-- R34 items 1 to 4 with R33 and R37, for both dictionaries, and item 5 for DICT_E, of every state that meets the invariant. -/
def Obligations.DictionaryRulesHold : Prop :=
  ∀ s : State, Inv s →
    (∀ g, ((s.dictOf g).ent.map Entry.code).Nodup ∧
      (∀ e ∈ (s.dictOf g).ent, e.code.toNat ≤ 255 → e.pat = [e.code.truncate 8]) ∧
      (∀ e ∈ (s.dictOf g).ent, 256 ≤ e.code.toNat → 2 ≤ e.pat.length) ∧
      (((s.dictOf g).ent.filter (fun e => decide (256 ≤ e.code.toNat))).map (fun e => e.code.toNat) =
        List.range' 256 ((s.dictOf g).next.toNat - 256)) ∧
      (s.dictOf g).nent ≤ 4096 ∧ 256 ≤ (s.dictOf g).next.toNat ∧ (s.dictOf g).next.toNat ≤ 4351 ∧
      ∀ e ∈ (s.dictOf g).ent, e.pat.length ≤ 4096) ∧
    (s.enc.dict.ent.map Entry.pat).Nodup

/-- R141 and R123: a literal insertion can never fail: through SCAN a dictionary holds at most 256 entries. -/
def Obligations.ScanNeverFillsTheDictionary : Prop :=
  ∀ s : State, Inv s → (s.enc.phase = .scan → s.enc.dict.nent ≤ 256) ∧
    (s.dec.phase = .scan ∨ s.dec.phase = .first → s.dec.dict.nent ≤ 256)

/-! ### Rules of the whole machine -/

/-- R48: no step changes the parameters. -/
def Obligations.NoStepChangesTheParameters : Prop :=
  ∀ s t : State, step s = .next t → t.cfg = s.cfg

/-- R236 and R20: a turn of ENC changes nothing but ENC's state and depends on nothing but ENC's state and the parameters, and the
same for DEC. -/
def Obligations.EnginesDoNotInterfere : Prop :=
  ∀ (s t : State) (rest : List Event),
    (s.script = .turn .enc :: rest → step s = .next t →
      t = (s.withScript rest).withEnc t.enc ∧
      ∀ s' : State, s'.script = .turn .enc :: rest → s'.cfg = s.cfg → s'.resets = s.resets → s'.enc = s.enc →
        step s' = .next ((s'.withScript rest).withEnc t.enc)) ∧
    (s.script = .turn .dec :: rest → step s = .next t →
      t = (s.withScript rest).withDec t.dec ∧
      ∀ s' : State, s'.script = .turn .dec :: rest → s'.cfg = s.cfg → s'.resets = s.resets → s'.dec = s.dec →
        step s' = .next ((s'.withScript rest).withDec t.dec))

/-- R281: ENC's steps and DEC's steps commute. -/
def Obligations.EngineTurnsCommute : Prop :=
  ∀ (s : State) (rest : List Event), Inv s →
    ∃ t, core.run 2 (s.withScript (.turn .enc :: .turn .dec :: rest)) = .next t ∧
      core.run 2 (s.withScript (.turn .dec :: .turn .enc :: rest)) = .next t

/-- R236: a host operation addressed to one engine changes nothing of the other's: whatever access the host makes, the state of one
engine at least is unchanged, and an access that is not a write changes neither. -/
def Obligations.HostAccessReachesOneEngine : Prop :=
  ∀ (s t : State) (a : BusAccess) (rest : List Event), s.script = .host a :: rest → step s = .next t →
    (t.enc = s.enc ∨ t.dec = s.dec) ∧ (a.kind = .read → t.enc = s.enc ∧ t.dec = s.dec) ∧ t.script = rest

/-- R286 and R252: from the end of a call to the next START of the same engine, its count, flags, error and the output elements are
stable, whatever else happens short of a RESET. -/
def Obligations.ResultLivesUntilTheNextStart : Prop :=
  ∀ (s t : State) (ev : Event) (rest : List Event), s.script = ev :: rest → ev ≠ .reset → step s = .next t →
    (s.enc.phase = .idle → ev.startsEnc s.cfg = false →
      t.enc.phase = .idle ∧ t.enc.obuf = s.enc.obuf ∧ t.enc.regs = { s.enc.regs with ilen := t.enc.regs.ilen }) ∧
    (s.dec.phase = .idle → ev.startsDec s.cfg = false →
      t.dec.phase = .idle ∧ t.dec.obuf = s.dec.obuf ∧ t.dec.regs = { s.dec.regs with ilen := t.dec.regs.ilen })

/-- R73: the input of a call is fixed for the whole call: while an engine is busy no step but RESET changes its `ILEN` or its input
buffer, and no engine ever writes one. -/
def Obligations.InputIsFixedDuringACall : Prop :=
  ∀ (s t : State) (ev : Event) (rest : List Event), s.script = ev :: rest → ev ≠ .reset → step s = .next t →
    (s.enc.phase ≠ .idle → t.enc.regs.ilen = s.enc.regs.ilen ∧ ∀ i, t.enc.inByte t.resets i = s.enc.inByte s.resets i) ∧
    (s.dec.phase ≠ .idle → t.dec.regs.ilen = s.dec.regs.ilen ∧ ∀ i, t.dec.inCode t.resets i = s.dec.inCode s.resets i)

/-- R156, R186, R246: whatever step ends a call with an error leaves no output: `OCNT` is 0 and every output element is unspecified
to the host. -/
def Obligations.ErrorLeavesNoOutput : Prop :=
  ∀ s : State, Inv s →
    (s.enc.regs.err = true → s.enc.phase = .idle ∧ s.enc.regs.done = false ∧ s.enc.regs.ocnt = 0 ∧
      (∀ i, s.specifiedElem .encObuf i = none) ∧ (s.enc.regs.errcode = .capacity ∨ s.enc.regs.errcode = .badlen)) ∧
    (s.dec.regs.err = true → s.dec.phase = .idle ∧ s.dec.regs.done = false ∧ s.dec.regs.ocnt = 0 ∧
      (∀ i, s.specifiedElem .decObuf i = none) ∧ s.dec.regs.errcode ≠ .none)

/-! ### Calls -/

/-- R150, the successful call: from an idle ENC with the input in place, `ENC.START` and exactly `2n + 3` turns of ENC, with any
host accesses short of an `ENC.START` and any turns of DEC interleaved anywhere, end in the result of the function `encode`. -/
def Obligations.EncodeCallReturnsTheFunction : Prop :=
  ∀ (s : State) (bs : List Byte) (out : List Code) (w : Word) (l rest : List Event),
    Inv s → s.enc.phase = .idle → s.EncInput bs → bs.length ≤ s.cfg.encInMax → lzwEncode bs = .ok out →
    w.getLsbD 0 = true → EncSchedule s.cfg (2 * bs.length + 2) l →
    s.script = .host (writeReg s.cfg (.ctrl .enc) w) :: (l ++ .turn .enc :: rest) →
    ∃ u t, core.run (l.length + 1) s = .next u ∧ u.enc.phase ≠ .idle ∧
      core.run (l.length + 2) s = .next t ∧ t.script = rest ∧
      t.enc.phase = .idle ∧ t.enc.regs.done = true ∧ t.enc.regs.err = false ∧
      t.enc.regs.ocnt.toNat = out.length ∧ (∀ j (h : j < out.length), t.enc.obuf.get? j = some out[j]) ∧
      t.enc.dict = .empty ∧ t.enc.p = [] ∧ t.EncInput bs

/-- R150, the failing call: `n + i + 2` turns of ENC end in CAPACITY at the index `i` at which the function fails. -/
def Obligations.EncodeCallReportsTheError : Prop :=
  ∀ (s : State) (bs : List Byte) (c : ErrCode) (i : Nat) (w : Word) (l rest : List Event),
    Inv s → s.enc.phase = .idle → s.EncInput bs → bs.length ≤ s.cfg.encInMax → lzwEncode bs = .error (c, i) →
    w.getLsbD 0 = true → EncSchedule s.cfg (bs.length + i + 1) l →
    s.script = .host (writeReg s.cfg (.ctrl .enc) w) :: (l ++ .turn .enc :: rest) →
    ∃ u t, core.run (l.length + 1) s = .next u ∧ u.enc.phase ≠ .idle ∧
      core.run (l.length + 2) s = .next t ∧ t.script = rest ∧
      t.enc.phase = .idle ∧ t.enc.regs.done = false ∧ t.enc.regs.err = true ∧ c = .capacity ∧
      t.enc.regs.errcode = c ∧ t.enc.regs.errinfo.toNat = i ∧ t.enc.regs.ocnt = 0 ∧
      t.enc.dict = .empty ∧ t.enc.p = [] ∧ t.EncInput bs

/-- R181, the successful call: `DEC.START` and exactly `2m + 2` turns of DEC, with anything short of a `DEC.START` interleaved, end
in the result of the function `decode`. -/
def Obligations.DecodeCallReturnsTheFunction : Prop :=
  ∀ (s : State) (cs : List Code) (out : List Byte) (w : Word) (l rest : List Event),
    Inv s → s.dec.phase = .idle → s.DecInput cs → cs.length ≤ s.cfg.decInMax → lzwDecode s.cfg.decOutMax cs = .ok out →
    w.getLsbD 0 = true → DecSchedule s.cfg (2 * cs.length + 1) l →
    s.script = .host (writeReg s.cfg (.ctrl .dec) w) :: (l ++ .turn .dec :: rest) →
    ∃ u t, core.run (l.length + 1) s = .next u ∧ u.dec.phase ≠ .idle ∧
      core.run (l.length + 2) s = .next t ∧ t.script = rest ∧
      t.dec.phase = .idle ∧ t.dec.regs.done = true ∧ t.dec.regs.err = false ∧
      t.dec.regs.ocnt.toNat = out.length ∧ (∀ j (h : j < out.length), t.dec.obuf.get? j = some out[j]) ∧
      t.dec.dict = .empty ∧ t.dec.last = [] ∧ t.DecInput cs

/-- R181, the failing call: `m + 2` turns of DEC for MALFORMED, `m + 2 + i` for CAPACITY and OVERFLOW at index `i`, end in the error
the function reports. -/
def Obligations.DecodeCallReportsTheError : Prop :=
  ∀ (s : State) (cs : List Code) (c : ErrCode) (i : Nat) (w : Word) (l rest : List Event),
    Inv s → s.dec.phase = .idle → s.DecInput cs → cs.length ≤ s.cfg.decInMax →
    lzwDecode s.cfg.decOutMax cs = .error (c, i) → w.getLsbD 0 = true → DecSchedule s.cfg (cs.length + i + 1) l →
    s.script = .host (writeReg s.cfg (.ctrl .dec) w) :: (l ++ .turn .dec :: rest) →
    ∃ u t, core.run (l.length + 1) s = .next u ∧ u.dec.phase ≠ .idle ∧
      core.run (l.length + 2) s = .next t ∧ t.script = rest ∧
      t.dec.phase = .idle ∧ t.dec.regs.done = false ∧ t.dec.regs.err = true ∧
      ((c = .malformed ∧ i = 0) ∨ c = .capacity ∨ c = .overflow) ∧
      t.dec.regs.errcode = c ∧ t.dec.regs.errinfo.toNat = i ∧ t.dec.regs.ocnt = 0 ∧
      t.dec.dict = .empty ∧ t.dec.last = [] ∧ t.DecInput cs

/-- R237: every call ends: however the agents are interleaved, an engine is idle after `2·ILEN + 3` (ENC) or `2·ILEN + 2` (DEC) of
its own turns, if it is not started again and the block is not reset. -/
def Obligations.EveryCallEnds : Prop :=
  ∀ (s : State) (n : Nat) (l rest : List Event), Inv s → s.script = l ++ rest →
    (EncSchedule s.cfg n l → 2 * s.enc.regs.ilen.toNat + 3 ≤ n → s.enc.phase ≠ .idle →
      ∃ t, core.run l.length s = .next t ∧ t.enc.phase = .idle) ∧
    (DecSchedule s.cfg n l → 2 * s.dec.regs.ilen.toNat + 2 ≤ n → s.dec.phase ≠ .idle →
      ∃ t, core.run l.length s = .next t ∧ t.dec.phase = .idle)

/-- R282: a busy engine is never starved, and every call ends.
1. The machine's own run from any state that meets the invariant is infinite and fair, whatever `cycle` repeats (log 3).
2. In every fair infinite run, whatever the host and the other engine do, an engine that is busy is busy until a later step and
   then idle, with exactly one of DONE and ERR, unless a RESET cut the call short.
3. A host that polls without end sees the end of the call: some read of `G_STATUS` after it returns STATE = IDLE and exactly one of
   DONE and ERR, if the engine is not started again and the block is not reset.
4. With the script ended, and a `cycle` that neither starts an engine nor resets, both engines are idle within as many rounds as
   R237 allows an engine steps. -/
def Obligations.BusyEnginesRunToIdle : Prop :=
  (∀ s : State, Inv s → ∃ (ev : Nat → Event) (r : Nat → State),
    r 0 = s ∧ (∀ n, step (r n) = .next (r (n + 1))) ∧ InfiniteRun ev r ∧ FairRun ev r) ∧
  (∀ (ev : Nat → Event) (r : Nat → State) (g : Engine) (n : Nat), InfiniteRun ev r → FairRun ev r → Inv (r 0) →
    (r n).stateNum g ≠ 0 →
    ∃ m, n < m ∧ (∀ k, n ≤ k → k < m → (r k).stateNum g ≠ 0) ∧ (r m).stateNum g = 0 ∧
      ((∀ k, n ≤ k → k < m → ev k ≠ .reset) → ((r m).regsOf g).done = !((r m).regsOf g).err)) ∧
  (∀ (ev : Nat → Event) (r : Nat → State) (g : Engine) (n : Nat), InfiniteRun ev r → FairRun ev r → Inv (r 0) →
    (r n).stateNum g ≠ 0 → (∀ k, n ≤ k → ev k ≠ .reset ∧ (ev k).starts (r 0).cfg g = false) →
    (∀ k, ∃ m, k ≤ m ∧ (ev m).polls (r 0).cfg g = true) →
    ∃ m v, n ≤ m ∧ (ev m).polls (r 0).cfg g = true ∧ (r (m + 1)).reply = .reg v ∧
      v.extractLsb' 0 3 = 0 ∧ v.getLsbD 4 = !v.getLsbD 5) ∧
  (∀ s : State, Inv s → s.script = [] →
    (∀ ev ∈ s.cycle, ev ≠ .reset ∧ ev.startsEnc s.cfg = false ∧ ev.startsDec s.cfg = false) →
    ∃ n t, n ≤ (s.cycle.length + 2) * max (2 * s.enc.regs.ilen.toNat + 3) (2 * s.dec.regs.ilen.toNat + 2) ∧
      core.run n s = .next t ∧ t.enc.phase = .idle ∧ t.dec.phase = .idle ∧
      (s.enc.phase ≠ .idle → t.enc.regs.done = !t.enc.regs.err) ∧ (s.dec.phase ≠ .idle → t.dec.regs.done = !t.dec.regs.err))

/-! ### The functions -/

/-- R220: for every non-empty byte sequence, decoding what it encodes to gives it back, for any output bound it fits in; the empty
sequence is the one exception. -/
def Obligations.RoundTrip : Prop :=
  (∀ (bs : List Byte) (cs : List Code) (B : Nat), bs ≠ [] → lzwEncode bs = .ok cs → bs.length ≤ B → lzwDecode B cs = .ok bs) ∧
  lzwEncode [] = .ok [] ∧ ∀ B, lzwDecode B [] = .error (.malformed, 0)

/-- R225, R228 and R230: a successful `encode` emits at most as many codes as the input has bytes, at most 4096, and none above
4350; and R155: the first emitted code is the literal code of the first byte. -/
def Obligations.EncodeOutputBounds : Prop :=
  ∀ (bs : List Byte) (cs : List Code), lzwEncode bs = .ok cs →
    cs.length ≤ bs.length ∧ cs.length ≤ 4096 ∧ (∀ k ∈ cs, k.toNat ≤ 4350) ∧
    ∀ b r, bs = b :: r → ∃ r', cs = b.zeroExtend 16 :: r'

/-- R232, R151, R182: one byte, 0x00 included, encodes to exactly its literal code, and that code decodes to the byte. -/
def Obligations.SingleByteFidelity : Prop :=
  ∀ (b : Byte) (B : Nat), 1 ≤ B → lzwEncode [b] = .ok [b.zeroExtend 16] ∧ lzwDecode B [b.zeroExtend 16] = .ok [b]
end

