-- ==== Sys2Proof/Laws/Buf.lean ====
section
/-! SUPPORT. Laws of the buffers: read after write, and that every memory operation keeps the canonical form. -/

namespace Sys2Proof.Machine

variable {w : Nat}

@[simp] theorem Buf.get?_nil (i : Nat) : Buf.get? ([] : Buf w) i = none := rfl

/-- Reading the element just written gives the value written. -/
@[simp] theorem Buf.get?_set_self (b : Buf w) (i : Nat) (v : BitVec w) : (Buf.set b i v).get? i = some v := by
  induction b with
  | nil => simp [Buf.set, Buf.get?]
  | cons x b ih =>
    obtain ⟨j, u⟩ := x
    simp only [Buf.set]
    split
    · simp [Buf.get?]
    · split
      · simp [Buf.get?]
      · rename_i h1 h2
        simp [Buf.get?, ih, Ne.symm h2]

/-- A write leaves every other element as it was. -/
theorem Buf.get?_set_ne (b : Buf w) {i j : Nat} (v : BitVec w) (h : j ≠ i) : (Buf.set b i v).get? j = b.get? j := by
  induction b with
  | nil => simp [Buf.set, Buf.get?, Ne.symm h]
  | cons x b ih =>
    obtain ⟨k, u⟩ := x
    simp only [Buf.set]
    split
    · simp [Buf.get?, Ne.symm h]
    · split
      · rename_i h1 h2
        subst h2
        simp [Buf.get?, Ne.symm h]
      · simp [Buf.get?, ih]

theorem Buf.get?_set (b : Buf w) (i j : Nat) (v : BitVec w) :
    (Buf.set b i v).get? j = if j = i then some v else b.get? j := by
  split
  · rename_i h; subst h; exact Buf.get?_set_self b j v
  · rename_i h; exact Buf.get?_set_ne b v h

/-- A multi-element write (R12) writes exactly the elements from `i` on, in order. -/
theorem Buf.get?_setMany (b : Buf w) (i j : Nat) (vs : List (BitVec w)) :
    (Buf.setMany b i vs).get? j = if i ≤ j ∧ j < i + vs.length then vs[j - i]? else b.get? j := by
  induction vs generalizing b i with
  | nil => simp only [Buf.setMany, List.length_nil]; rw [if_neg (by omega)]
  | cons v vs ih =>
    rw [Buf.setMany, ih, Buf.get?_set]
    by_cases h1 : j = i
    · subst h1; simp
    · by_cases h2 : i + 1 ≤ j ∧ j < i + 1 + vs.length
      · have : j - i = (j - (i + 1)) + 1 := by omega
        rw [if_pos h2, if_pos (by simp; omega), this, List.getElem?_cons_succ]
      · rw [if_neg h2, if_neg h1, if_neg (by simp; omega)]

theorem Buf.wfFrom_set {n lo : Nat} {b : Buf w} (hb : Buf.wfFrom n lo b = true) {i : Nat} (v : BitVec w)
    (h1 : lo ≤ i) (h2 : i < n) : Buf.wfFrom n lo (Buf.set b i v) = true := by
  induction b generalizing lo with
  | nil => simp [Buf.set, Buf.wfFrom, h1, h2]
  | cons x b ih =>
    obtain ⟨j, u⟩ := x
    simp only [Buf.wfFrom, Bool.and_eq_true, decide_eq_true_eq] at hb
    simp only [Buf.set]
    split
    · rename_i h; simp [Buf.wfFrom, h1, h2, hb.1.2, hb.2, Nat.succ_le_of_lt h]
    · split
      · rename_i h; subst h; simp [Buf.wfFrom, h1, h2, hb.2]
      · simp [Buf.wfFrom, hb.1.1, hb.1.2]; exact ih hb.2 (by omega)

/-- Writing an element the buffer has keeps the canonical form. -/
theorem Buf.wf_set {n : Nat} {b : Buf w} (hb : Buf.wf n b) {i : Nat} (v : BitVec w) (h : i < n) :
    Buf.wf n (Buf.set b i v) := Buf.wfFrom_set hb v (Nat.zero_le i) h

/-- Writing consecutive elements the buffer has keeps the canonical form. -/
theorem Buf.wf_setMany {n : Nat} {b : Buf w} (hb : Buf.wf n b) {i : Nat} (vs : List (BitVec w)) (h : i + vs.length ≤ n) :
    Buf.wf n (Buf.setMany b i vs) := by
  induction vs generalizing b i with
  | nil => exact hb
  | cons v vs ih =>
    simp only [List.length_cons] at h
    exact ih (Buf.wf_set hb v (by omega)) (by omega)

/-- Every listed element is below the element count. -/
theorem Buf.lt_of_get? {n lo : Nat} {b : Buf w} (hb : Buf.wfFrom n lo b = true) {i : Nat} {v : BitVec w}
    (h : b.get? i = some v) : lo ≤ i ∧ i < n := by
  induction b generalizing lo with
  | nil => simp at h
  | cons x b ih =>
    obtain ⟨j, u⟩ := x
    simp only [Buf.wfFrom, Bool.and_eq_true, decide_eq_true_eq] at hb
    simp only [Buf.get?] at h
    split at h
    · omega
    · have := ih hb.2 h; omega

/-- Canonical buffers that read alike are equal data. -/
theorem Buf.ext {n lo : Nat} {b c : Buf w} (hb : Buf.wfFrom n lo b = true) (hc : Buf.wfFrom n lo c = true)
    (h : ∀ i, b.get? i = c.get? i) : b = c := by
  induction b generalizing lo c with
  | nil =>
    cases c with
    | nil => rfl
    | cons y c => have := h y.1; simp [Buf.get?] at this
  | cons x b ih =>
    obtain ⟨j, u⟩ := x
    cases c with
    | nil => have := h j; simp [Buf.get?] at this
    | cons y c =>
      obtain ⟨k, v⟩ := y
      simp only [Buf.wfFrom, Bool.and_eq_true, decide_eq_true_eq] at hb hc
      have hjk : j = k := by
        by_contra hne
        rcases Nat.lt_or_gt_of_ne hne with hlt | hlt
        · have := h j
          simp only [Buf.get?, if_true, Ne.symm hne, if_false] at this
          have := Buf.lt_of_get? hc.2 this.symm; omega
        · have := h k
          simp only [Buf.get?, if_true, hne, if_false] at this
          have := Buf.lt_of_get? hb.2 this; omega
      subst hjk
      have huv : u = v := by have := h j; simpa [Buf.get?] using this
      subst huv
      refine congrArg _ (ih hb.2 hc.2 fun i => ?_)
      by_cases hi : j = i
      · subst hi
        cases hbi : Buf.get? b j with
        | some z => have := Buf.lt_of_get? hb.2 hbi; omega
        | none =>
          cases hci : Buf.get? c j with
          | some z => have := Buf.lt_of_get? hc.2 hci; omega
          | none => rfl
      · have := h i; simpa [Buf.get?, hi] using this

end Sys2Proof.Machine
end

