-- ==== Sys2Proof/Laws/State.lean ====
section
/-! SUPPORT. One lemma per field per named update, so that no later proof unfolds a record update. -/

namespace Sys2Proof.Machine

/-! ### State -/

@[simp] theorem State.withEnc_cfg (s : State) (e : EncState) : (s.withEnc e).cfg = s.cfg := rfl
@[simp] theorem State.withEnc_enc (s : State) (e : EncState) : (s.withEnc e).enc = e := rfl
@[simp] theorem State.withEnc_dec (s : State) (e : EncState) : (s.withEnc e).dec = s.dec := rfl
@[simp] theorem State.withEnc_script (s : State) (e : EncState) : (s.withEnc e).script = s.script := rfl
@[simp] theorem State.withEnc_cycle (s : State) (e : EncState) : (s.withEnc e).cycle = s.cycle := rfl
@[simp] theorem State.withEnc_reply (s : State) (e : EncState) : (s.withEnc e).reply = s.reply := rfl
@[simp] theorem State.withEnc_dictRet (s : State) (e : EncState) : (s.withEnc e).dictRet = s.dictRet := rfl
@[simp] theorem State.withEnc_freeReads (s : State) (e : EncState) : (s.withEnc e).freeReads = s.freeReads := rfl
@[simp] theorem State.withEnc_resets (s : State) (e : EncState) : (s.withEnc e).resets = s.resets := rfl

@[simp] theorem State.withDec_cfg (s : State) (d : DecState) : (s.withDec d).cfg = s.cfg := rfl
@[simp] theorem State.withDec_enc (s : State) (d : DecState) : (s.withDec d).enc = s.enc := rfl
@[simp] theorem State.withDec_dec (s : State) (d : DecState) : (s.withDec d).dec = d := rfl
@[simp] theorem State.withDec_script (s : State) (d : DecState) : (s.withDec d).script = s.script := rfl
@[simp] theorem State.withDec_cycle (s : State) (d : DecState) : (s.withDec d).cycle = s.cycle := rfl
@[simp] theorem State.withDec_reply (s : State) (d : DecState) : (s.withDec d).reply = s.reply := rfl
@[simp] theorem State.withDec_dictRet (s : State) (d : DecState) : (s.withDec d).dictRet = s.dictRet := rfl
@[simp] theorem State.withDec_freeReads (s : State) (d : DecState) : (s.withDec d).freeReads = s.freeReads := rfl
@[simp] theorem State.withDec_resets (s : State) (d : DecState) : (s.withDec d).resets = s.resets := rfl

@[simp] theorem State.withScript_cfg (s : State) (l : List Event) : (s.withScript l).cfg = s.cfg := rfl
@[simp] theorem State.withScript_enc (s : State) (l : List Event) : (s.withScript l).enc = s.enc := rfl
@[simp] theorem State.withScript_dec (s : State) (l : List Event) : (s.withScript l).dec = s.dec := rfl
@[simp] theorem State.withScript_script (s : State) (l : List Event) : (s.withScript l).script = l := rfl
@[simp] theorem State.withScript_cycle (s : State) (l : List Event) : (s.withScript l).cycle = s.cycle := rfl
@[simp] theorem State.withScript_reply (s : State) (l : List Event) : (s.withScript l).reply = s.reply := rfl
@[simp] theorem State.withScript_dictRet (s : State) (l : List Event) : (s.withScript l).dictRet = s.dictRet := rfl
@[simp] theorem State.withScript_freeReads (s : State) (l : List Event) : (s.withScript l).freeReads = s.freeReads := rfl
@[simp] theorem State.withScript_resets (s : State) (l : List Event) : (s.withScript l).resets = s.resets := rfl

@[simp] theorem State.withCycle_cfg (s : State) (l : List Event) : (s.withCycle l).cfg = s.cfg := rfl
@[simp] theorem State.withCycle_enc (s : State) (l : List Event) : (s.withCycle l).enc = s.enc := rfl
@[simp] theorem State.withCycle_dec (s : State) (l : List Event) : (s.withCycle l).dec = s.dec := rfl
@[simp] theorem State.withCycle_script (s : State) (l : List Event) : (s.withCycle l).script = s.script := rfl
@[simp] theorem State.withCycle_cycle (s : State) (l : List Event) : (s.withCycle l).cycle = l := rfl
@[simp] theorem State.withCycle_reply (s : State) (l : List Event) : (s.withCycle l).reply = s.reply := rfl
@[simp] theorem State.withCycle_dictRet (s : State) (l : List Event) : (s.withCycle l).dictRet = s.dictRet := rfl
@[simp] theorem State.withCycle_freeReads (s : State) (l : List Event) : (s.withCycle l).freeReads = s.freeReads := rfl
@[simp] theorem State.withCycle_resets (s : State) (l : List Event) : (s.withCycle l).resets = s.resets := rfl

@[simp] theorem State.withReply_cfg (s : State) (r : Reply) : (s.withReply r).cfg = s.cfg := rfl
@[simp] theorem State.withReply_enc (s : State) (r : Reply) : (s.withReply r).enc = s.enc := rfl
@[simp] theorem State.withReply_dec (s : State) (r : Reply) : (s.withReply r).dec = s.dec := rfl
@[simp] theorem State.withReply_script (s : State) (r : Reply) : (s.withReply r).script = s.script := rfl
@[simp] theorem State.withReply_cycle (s : State) (r : Reply) : (s.withReply r).cycle = s.cycle := rfl
@[simp] theorem State.withReply_reply (s : State) (r : Reply) : (s.withReply r).reply = r := rfl
@[simp] theorem State.withReply_dictRet (s : State) (r : Reply) : (s.withReply r).dictRet = s.dictRet := rfl
@[simp] theorem State.withReply_freeReads (s : State) (r : Reply) : (s.withReply r).freeReads = s.freeReads := rfl
@[simp] theorem State.withReply_resets (s : State) (r : Reply) : (s.withReply r).resets = s.resets := rfl

@[simp] theorem State.withDictRet_cfg (s : State) (r : DictRet) : (s.withDictRet r).cfg = s.cfg := rfl
@[simp] theorem State.withDictRet_enc (s : State) (r : DictRet) : (s.withDictRet r).enc = s.enc := rfl
@[simp] theorem State.withDictRet_dec (s : State) (r : DictRet) : (s.withDictRet r).dec = s.dec := rfl
@[simp] theorem State.withDictRet_script (s : State) (r : DictRet) : (s.withDictRet r).script = s.script := rfl
@[simp] theorem State.withDictRet_cycle (s : State) (r : DictRet) : (s.withDictRet r).cycle = s.cycle := rfl
@[simp] theorem State.withDictRet_reply (s : State) (r : DictRet) : (s.withDictRet r).reply = s.reply := rfl
@[simp] theorem State.withDictRet_dictRet (s : State) (r : DictRet) : (s.withDictRet r).dictRet = r := rfl
@[simp] theorem State.withDictRet_freeReads (s : State) (r : DictRet) : (s.withDictRet r).freeReads = s.freeReads := rfl
@[simp] theorem State.withDictRet_resets (s : State) (r : DictRet) : (s.withDictRet r).resets = s.resets := rfl

@[simp] theorem State.withFreeReads_cfg (s : State) (n : Nat) : (s.withFreeReads n).cfg = s.cfg := rfl
@[simp] theorem State.withFreeReads_enc (s : State) (n : Nat) : (s.withFreeReads n).enc = s.enc := rfl
@[simp] theorem State.withFreeReads_dec (s : State) (n : Nat) : (s.withFreeReads n).dec = s.dec := rfl
@[simp] theorem State.withFreeReads_script (s : State) (n : Nat) : (s.withFreeReads n).script = s.script := rfl
@[simp] theorem State.withFreeReads_cycle (s : State) (n : Nat) : (s.withFreeReads n).cycle = s.cycle := rfl
@[simp] theorem State.withFreeReads_reply (s : State) (n : Nat) : (s.withFreeReads n).reply = s.reply := rfl
@[simp] theorem State.withFreeReads_dictRet (s : State) (n : Nat) : (s.withFreeReads n).dictRet = s.dictRet := rfl
@[simp] theorem State.withFreeReads_freeReads (s : State) (n : Nat) : (s.withFreeReads n).freeReads = n := rfl
@[simp] theorem State.withFreeReads_resets (s : State) (n : Nat) : (s.withFreeReads n).resets = s.resets := rfl

@[simp] theorem State.resetBlock_cfg (s : State) : s.resetBlock.cfg = s.cfg := rfl
@[simp] theorem State.resetBlock_enc (s : State) : s.resetBlock.enc = .reset := rfl
@[simp] theorem State.resetBlock_dec (s : State) : s.resetBlock.dec = .reset := rfl
@[simp] theorem State.resetBlock_script (s : State) : s.resetBlock.script = s.script := rfl
@[simp] theorem State.resetBlock_cycle (s : State) : s.resetBlock.cycle = s.cycle := rfl
@[simp] theorem State.resetBlock_reply (s : State) : s.resetBlock.reply = s.reply := rfl
@[simp] theorem State.resetBlock_dictRet (s : State) : s.resetBlock.dictRet = s.dictRet := rfl
@[simp] theorem State.resetBlock_freeReads (s : State) : s.resetBlock.freeReads = s.freeReads := rfl
@[simp] theorem State.resetBlock_resets (s : State) : s.resetBlock.resets = s.resets + 1 := rfl

/-! ### Call registers -/

@[simp] theorem CallRegs.cleared_ilen (c : CallRegs) : (c.cleared).ilen = c.ilen := rfl
@[simp] theorem CallRegs.cleared_ipos (c : CallRegs) : (c.cleared).ipos = 0 := rfl
@[simp] theorem CallRegs.cleared_opos (c : CallRegs) : (c.cleared).opos = 0 := rfl
@[simp] theorem CallRegs.cleared_ocnt (c : CallRegs) : (c.cleared).ocnt = 0 := rfl
@[simp] theorem CallRegs.cleared_done (c : CallRegs) : (c.cleared).done = false := rfl
@[simp] theorem CallRegs.cleared_err (c : CallRegs) : (c.cleared).err = false := rfl
@[simp] theorem CallRegs.cleared_errcode (c : CallRegs) : (c.cleared).errcode = .none := rfl
@[simp] theorem CallRegs.cleared_errinfo (c : CallRegs) : (c.cleared).errinfo = 0 := rfl

@[simp] theorem CallRegs.failed_ilen (c : CallRegs) (code : ErrCode) (info : Word) : (c.failed code info).ilen = c.ilen := rfl
@[simp] theorem CallRegs.failed_ipos (c : CallRegs) (code : ErrCode) (info : Word) : (c.failed code info).ipos = c.ipos := rfl
@[simp] theorem CallRegs.failed_opos (c : CallRegs) (code : ErrCode) (info : Word) : (c.failed code info).opos = 0 := rfl
@[simp] theorem CallRegs.failed_ocnt (c : CallRegs) (code : ErrCode) (info : Word) : (c.failed code info).ocnt = 0 := rfl
@[simp] theorem CallRegs.failed_done (c : CallRegs) (code : ErrCode) (info : Word) : (c.failed code info).done = false := rfl
@[simp] theorem CallRegs.failed_err (c : CallRegs) (code : ErrCode) (info : Word) : (c.failed code info).err = true := rfl
@[simp] theorem CallRegs.failed_errcode (c : CallRegs) (code : ErrCode) (info : Word) : (c.failed code info).errcode = code := rfl
@[simp] theorem CallRegs.failed_errinfo (c : CallRegs) (code : ErrCode) (info : Word) : (c.failed code info).errinfo = info := rfl

@[simp] theorem CallRegs.badLen_ilen (c : CallRegs) : (c.badLen).ilen = c.ilen := rfl
@[simp] theorem CallRegs.badLen_ipos (c : CallRegs) : (c.badLen).ipos = 0 := rfl
@[simp] theorem CallRegs.badLen_opos (c : CallRegs) : (c.badLen).opos = 0 := rfl
@[simp] theorem CallRegs.badLen_ocnt (c : CallRegs) : (c.badLen).ocnt = 0 := rfl
@[simp] theorem CallRegs.badLen_done (c : CallRegs) : (c.badLen).done = false := rfl
@[simp] theorem CallRegs.badLen_err (c : CallRegs) : (c.badLen).err = true := rfl
@[simp] theorem CallRegs.badLen_errcode (c : CallRegs) : (c.badLen).errcode = .badlen := rfl
@[simp] theorem CallRegs.badLen_errinfo (c : CallRegs) : (c.badLen).errinfo = c.ilen := rfl

@[simp] theorem CallRegs.finished_ilen (c : CallRegs) (n : Word) : (c.finished n).ilen = c.ilen := rfl
@[simp] theorem CallRegs.finished_ipos (c : CallRegs) (n : Word) : (c.finished n).ipos = c.ipos := rfl
@[simp] theorem CallRegs.finished_opos (c : CallRegs) (n : Word) : (c.finished n).opos = n := rfl
@[simp] theorem CallRegs.finished_ocnt (c : CallRegs) (n : Word) : (c.finished n).ocnt = n := rfl
@[simp] theorem CallRegs.finished_done (c : CallRegs) (n : Word) : (c.finished n).done = true := rfl
@[simp] theorem CallRegs.finished_err (c : CallRegs) (n : Word) : (c.finished n).err = c.err := rfl
@[simp] theorem CallRegs.finished_errcode (c : CallRegs) (n : Word) : (c.finished n).errcode = c.errcode := rfl
@[simp] theorem CallRegs.finished_errinfo (c : CallRegs) (n : Word) : (c.finished n).errinfo = c.errinfo := rfl

@[simp] theorem CallRegs.zero_ilen : CallRegs.zero.ilen = 0 := rfl
@[simp] theorem CallRegs.zero_ipos : CallRegs.zero.ipos = 0 := rfl
@[simp] theorem CallRegs.zero_opos : CallRegs.zero.opos = 0 := rfl
@[simp] theorem CallRegs.zero_ocnt : CallRegs.zero.ocnt = 0 := rfl
@[simp] theorem CallRegs.zero_done : CallRegs.zero.done = false := rfl
@[simp] theorem CallRegs.zero_err : CallRegs.zero.err = false := rfl
@[simp] theorem CallRegs.zero_errcode : CallRegs.zero.errcode = .none := rfl
@[simp] theorem CallRegs.zero_errinfo : CallRegs.zero.errinfo = 0 := rfl

/-! ### The error entry (R250) -/

@[simp] theorem EncState.fail_phase (e : EncState) (code : ErrCode) (info : Word) : (e.fail code info).phase = .idle := rfl
@[simp] theorem EncState.fail_regs (e : EncState) (code : ErrCode) (info : Word) : (e.fail code info).regs = e.regs.failed code info := rfl
@[simp] theorem EncState.fail_p (e : EncState) (code : ErrCode) (info : Word) : (e.fail code info).p = [] := rfl
@[simp] theorem EncState.fail_dict (e : EncState) (code : ErrCode) (info : Word) : (e.fail code info).dict = .empty := rfl
@[simp] theorem EncState.fail_ibuf (e : EncState) (code : ErrCode) (info : Word) : (e.fail code info).ibuf = e.ibuf := rfl
@[simp] theorem EncState.fail_obuf (e : EncState) (code : ErrCode) (info : Word) : (e.fail code info).obuf = e.obuf := rfl

@[simp] theorem DecState.fail_phase (d : DecState) (code : ErrCode) (info : Word) : (d.fail code info).phase = .idle := rfl
@[simp] theorem DecState.fail_regs (d : DecState) (code : ErrCode) (info : Word) : (d.fail code info).regs = d.regs.failed code info := rfl
@[simp] theorem DecState.fail_last (d : DecState) (code : ErrCode) (info : Word) : (d.fail code info).last = [] := rfl
@[simp] theorem DecState.fail_dict (d : DecState) (code : ErrCode) (info : Word) : (d.fail code info).dict = .empty := rfl
@[simp] theorem DecState.fail_ibuf (d : DecState) (code : ErrCode) (info : Word) : (d.fail code info).ibuf = d.ibuf := rfl
@[simp] theorem DecState.fail_obuf (d : DecState) (code : ErrCode) (info : Word) : (d.fail code info).obuf = d.obuf := rfl

@[simp] theorem EncState.reset_phase : EncState.reset.phase = .idle := rfl
@[simp] theorem EncState.reset_regs : EncState.reset.regs = .zero := rfl
@[simp] theorem EncState.reset_p : EncState.reset.p = [] := rfl
@[simp] theorem EncState.reset_dict : EncState.reset.dict = .empty := rfl
@[simp] theorem EncState.reset_ibuf : EncState.reset.ibuf = [] := rfl
@[simp] theorem EncState.reset_obuf : EncState.reset.obuf = [] := rfl
@[simp] theorem DecState.reset_phase : DecState.reset.phase = .idle := rfl
@[simp] theorem DecState.reset_regs : DecState.reset.regs = .zero := rfl
@[simp] theorem DecState.reset_last : DecState.reset.last = [] := rfl
@[simp] theorem DecState.reset_dict : DecState.reset.dict = .empty := rfl
@[simp] theorem DecState.reset_ibuf : DecState.reset.ibuf = [] := rfl
@[simp] theorem DecState.reset_obuf : DecState.reset.obuf = [] := rfl

@[simp] theorem Dict.empty_ent : Dict.empty.ent = [] := rfl
@[simp] theorem Dict.empty_next : Dict.empty.next = 256 := rfl

/-! ### Continuing or stopping -/

@[simp] theorem State.endEnc_ok (s : State) (e : EncState) : s.endEnc (.ok e) = .next (s.withEnc e) := rfl
@[simp] theorem State.endEnc_error (s : State) (f : Fault) : s.endEnc (.error f) = .fault f := rfl
@[simp] theorem State.endDec_ok (s : State) (d : DecState) : s.endDec (.ok d) = .next (s.withDec d) := rfl
@[simp] theorem State.endDec_error (s : State) (f : Fault) : s.endDec (.error f) = .fault f := rfl

/-- A step of ENC that answers a next state answers ENC's new state and nothing else. -/
theorem State.endEnc_eq_next {s t : State} {r : Except Fault EncState} :
    s.endEnc r = .next t ↔ ∃ e, r = .ok e ∧ t = s.withEnc e := by
  cases r <;> simp [State.endEnc, eq_comm]

/-- A step of DEC that answers a next state answers DEC's new state and nothing else. -/
theorem State.endDec_eq_next {s t : State} {r : Except Fault DecState} :
    s.endDec r = .next t ↔ ∃ d, r = .ok d ∧ t = s.withDec d := by
  cases r <;> simp [State.endDec, eq_comm]

end Sys2Proof.Machine
end

