-- ==== Sys2Proof/Laws/Dict.lean ====
section
/-! SUPPORT. Laws of the dictionary: what each of its four operations can answer, and that insertions as the engines do them keep
the invariants of R34. -/

namespace Sys2Proof.Machine

/-! ### Choosing among matches -/

theorem pickMatch_eq_none {α : Type} {f : List α → Nat} {l : List α} : pickMatch f l = none ↔ l = [] := by
  match l with
  | [] => simp [pickMatch]
  | [x] => simp [pickMatch]
  | x :: y :: r => simp [pickMatch]

/-- Whatever the choice, what is picked is one of the matches. -/
theorem mem_of_pickMatch {α : Type} {f : List α → Nat} {l : List α} {x : α} (h : pickMatch f l = some x) : x ∈ l := by
  match l with
  | [] => simp [pickMatch] at h
  | [y] => simp [pickMatch] at h; simp [h]
  | y :: z :: r =>
    simp only [pickMatch, Option.some.injEq] at h
    have hlt : f (y :: z :: r) % (r.length + 2) < (y :: z :: r).length := by
      simpa using Nat.mod_lt _ (Nat.succ_pos _)
    rw [List.getD_eq_getElem _ _ hlt] at h
    exact h ▸ List.getElem_mem hlt

/-! ### Lookups -/

theorem Dict.mem_codesOf {d : Dict} {p : Pattern} {k : Code} : k ∈ d.codesOf p ↔ (⟨k, p⟩ : Entry) ∈ d.ent := by
  simp only [Dict.codesOf, List.mem_map, List.mem_filter, beq_iff_eq]
  constructor
  · rintro ⟨⟨k', p'⟩, ⟨h1, h2⟩, h3⟩; simp only at h2 h3; subst h2 h3; exact h1
  · intro h; exact ⟨_, ⟨h, rfl⟩, rfl⟩

theorem Dict.mem_patternsOf {d : Dict} {p : Pattern} {k : Code} : p ∈ d.patternsOf k ↔ (⟨k, p⟩ : Entry) ∈ d.ent := by
  simp only [Dict.patternsOf, List.mem_map, List.mem_filter, beq_iff_eq]
  constructor
  · rintro ⟨⟨k', p'⟩, ⟨h1, h2⟩, h3⟩; simp only at h2 h3; subst h2 h3; exact h1
  · intro h; exact ⟨_, ⟨h, rfl⟩, rfl⟩

/-- `FINDP` answers `none` exactly when no entry has the pattern (R125). -/
theorem Dict.findP_eq_none {d : Dict} {p : Pattern} : d.findP p = none ↔ p ∉ d.patterns := by
  rw [Dict.findP, pickMatch_eq_none, List.eq_nil_iff_forall_not_mem]
  simp only [Dict.mem_codesOf, Dict.patterns, List.mem_map, not_exists, not_and]
  constructor
  · rintro h ⟨k, q⟩ h1 rfl; exact h k h1
  · intro h k hk; exact h _ hk rfl

/-- What `FINDP` answers is the code of an entry with the pattern (R125). -/
theorem Dict.mem_of_findP {d : Dict} {p : Pattern} {k : Code} (h : d.findP p = some k) : (⟨k, p⟩ : Entry) ∈ d.ent :=
  Dict.mem_codesOf.1 (mem_of_pickMatch h)

theorem Dict.isSome_findP {d : Dict} {p : Pattern} : (d.findP p).isSome = true ↔ p ∈ d.patterns := by
  rw [← Option.not_isNone, Bool.not_eq_true', Bool.eq_false_iff, ne_eq, Option.isNone_iff_eq_none, Dict.findP_eq_none,
    not_not]

/-- `FINDC` answers `none` exactly when no entry has the code (R126). -/
theorem Dict.findC_eq_none {d : Dict} {k : Code} : d.findC k = none ↔ k ∉ d.ent.map Entry.code := by
  rw [Dict.findC, pickMatch_eq_none, List.eq_nil_iff_forall_not_mem]
  simp only [Dict.mem_patternsOf, List.mem_map, not_exists, not_and]
  constructor
  · rintro h ⟨j, q⟩ h1 rfl; exact h q h1
  · intro h q hq; exact h _ hq rfl

/-- What `FINDC` answers is the pattern of an entry with the code (R126). -/
theorem Dict.mem_of_findC {d : Dict} {p : Pattern} {k : Code} (h : d.findC k = some p) : (⟨k, p⟩ : Entry) ∈ d.ent :=
  Dict.mem_patternsOf.1 (mem_of_pickMatch h)

theorem Dict.isSome_findC {d : Dict} {k : Code} : (d.findC k).isSome = true ↔ k ∈ d.ent.map Entry.code := by
  rw [← Option.not_isNone, Bool.not_eq_true', Bool.eq_false_iff, ne_eq, Option.isNone_iff_eq_none, Dict.findC_eq_none,
    not_not]

theorem Dict.mem_patterns {d : Dict} {e : Entry} (h : e ∈ d.ent) : e.pat ∈ d.patterns := List.mem_map_of_mem h

/-! ### Insertion -/

@[simp] theorem Dict.empty_full : Dict.empty.full = false := rfl
@[simp] theorem Dict.empty_multi : Dict.empty.multi = [] := rfl
@[simp] theorem Dict.empty_literals : Dict.empty.literals = [] := rfl
@[simp] theorem Dict.empty_patterns : Dict.empty.patterns = [] := rfl

theorem Dict.full_eq_false {d : Dict} : d.full = false ↔ d.ent.length < dictCap := by
  rw [Dict.full, decide_eq_false_iff_not, Nat.not_le, Dict.nent]

theorem Dict.full_eq_true {d : Dict} : d.full = true ↔ dictCap ≤ d.ent.length := by
  rw [Dict.full, decide_eq_true_eq, Dict.nent]

/-- `INSERT` fails exactly on a full table (R123). -/
theorem Dict.insert_eq_none {d : Dict} {p : Pattern} : d.insert p = none ↔ d.full = true := by
  unfold Dict.insert
  split
  · simp [*]
  · split <;> simp_all

theorem Dict.insert_literal {d : Dict} (h : d.full = false) (b : Byte) :
    d.insert [b] = some (codeOfByte b, { d with ent := d.ent ++ [⟨codeOfByte b, [b]⟩] }) := by
  simp [Dict.insert, h]

theorem Dict.insert_multi {d : Dict} (h : d.full = false) {p : Pattern} (hp : p.length ≠ 1) :
    d.insert p = some (d.next, { ent := d.ent ++ [⟨d.next, p⟩], next := d.next + 1 }) := by
  unfold Dict.insert
  rw [if_neg (by simp [h])]
  split
  · simp at hp
  · rfl

/-- Everything `INSERT` can do (R121, R122): append one entry with the pattern, moving `NEXT` only for a pattern that is not one
byte. -/
theorem Dict.insert_cases {d d' : Dict} {p : Pattern} {k : Code} (h : d.insert p = some (k, d')) :
    d.full = false ∧ d'.ent = d.ent ++ [⟨k, p⟩] ∧
      ((∃ b, p = [b] ∧ k = codeOfByte b ∧ d'.next = d.next) ∨ (p.length ≠ 1 ∧ k = d.next ∧ d'.next = d.next + 1)) := by
  by_cases hf : d.full = true
  · rw [Dict.insert_eq_none.2 hf] at h; simp at h
  · have hf' : d.full = false := by simpa using hf
    by_cases hp : p.length = 1
    · obtain ⟨b, rfl⟩ := List.length_eq_one_iff.1 hp
      rw [Dict.insert_literal hf'] at h
      simp only [Option.some.injEq, Prod.mk.injEq] at h
      obtain ⟨rfl, rfl⟩ := h
      exact ⟨hf', rfl, .inl ⟨b, rfl, rfl, rfl⟩⟩
    · rw [Dict.insert_multi hf' hp] at h
      simp only [Option.some.injEq, Prod.mk.injEq] at h
      obtain ⟨rfl, rfl⟩ := h
      exact ⟨hf', rfl, .inr ⟨hp, rfl, rfl⟩⟩

/-! ### Literal and multi-byte entries -/

theorem isLitCode_iff {k : Code} : isLitCode k = true ↔ k.toNat ≤ 255 := by simp [isLitCode]

@[simp] theorem isLitCode_codeOfByte (b : Byte) : isLitCode (codeOfByte b) = true := by
  rw [isLitCode_iff, BitVec.toNat_setWidth]
  omega

@[simp] theorem byteOfCode_codeOfByte (b : Byte) : byteOfCode (codeOfByte b) = b := by
  simp [byteOfCode, codeOfByte]

theorem codeOfByte_byteOfCode {k : Code} (h : isLitCode k = true) : codeOfByte (byteOfCode k) = k := by
  rw [isLitCode_iff] at h
  apply BitVec.eq_of_toNat_eq
  simp only [BitVec.toNat_setWidth]
  omega

theorem codeOfByte_inj {a b : Byte} (h : codeOfByte a = codeOfByte b) : a = b := by
  have := congrArg byteOfCode h
  simpa using this

theorem DictInv.empty : DictInv .empty where
  capacity := by simp [Dict.nent]
  literalPattern := by simp
  literalOnce := by simp
  multiCodes := by simp
  next := by simp
  multiLength := by simp
  literalFirst := by simp

theorem Dict.mem_ent_iff {d : Dict} {e : Entry} : e ∈ d.ent ↔ e ∈ d.literals ∨ e ∈ d.multi := by
  simp only [Dict.literals, Dict.multi, List.mem_filter]
  cases e.isLiteral <;> simp

/-- Every pattern of a dictionary has at least one byte (R31). -/
theorem DictInv.pattern_ne_nil {d : Dict} (h : DictInv d) {e : Entry} (he : e ∈ d.ent) : e.pat ≠ [] := by
  rcases Dict.mem_ent_iff.1 he with hl | hm
  · rw [h.literalPattern e hl]; simp
  · have := (h.multiLength e hm).1
    intro h0; simp [h0] at this

theorem DictInv.length_split (d : Dict) : d.ent.length = d.literals.length + d.multi.length := by
  simp only [Dict.literals, Dict.multi]
  rw [← List.length_append]
  exact (List.Perm.length_eq (List.filter_append_perm _ _)).symm

/-- R37: at most 4095 multi-byte entries. -/
theorem DictInv.multi_le {d : Dict} (h : DictInv d) : d.multi.length ≤ 4095 := by
  have h1 := h.capacity
  have h2 := DictInv.length_split d
  rw [Dict.nent, dictCap] at h1
  by_cases hm : d.multi = []
  · simp [hm]
  · have := List.length_pos_iff.2 (h.literalFirst hm); omega

/-- R126: a multi-byte code in the dictionary is below `NEXT`. -/
theorem DictInv.multi_code_lt {d : Dict} (h : DictInv d) {e : Entry} (he : e ∈ d.multi) :
    firstMbCode ≤ e.code.toNat ∧ e.code.toNat < d.next.toNat := by
  have := h.multiCodes ▸ List.mem_map_of_mem (f := fun e : Entry => e.code.toNat) he
  rw [List.mem_range'] at this
  obtain ⟨i, hi, heq⟩ := this
  rw [h.next]
  omega

/-- R126: a literal code in the dictionary has the one-byte pattern of its byte. -/
theorem DictInv.findC_literal {d : Dict} (h : DictInv d) {k : Code} {r : Pattern} (hk : isLitCode k = true)
    (hf : d.findC k = some r) : r = [byteOfCode k] := by
  have hm := Dict.mem_of_findC hf
  have : (⟨k, r⟩ : Entry) ∈ d.literals := by simp [Dict.literals, hm, Entry.isLiteral, hk]
  exact h.literalPattern _ this

/-- R229: a pattern of the dictionary can be extended by one byte within the bound of the next code. -/
theorem DictInv.length_le {d : Dict} (h : DictInv d) {p : Pattern} (hp : p ∈ d.patterns) :
    1 ≤ p.length ∧ p.length + 1 + 254 ≤ d.next.toNat := by
  obtain ⟨e, he, rfl⟩ := List.mem_map.1 hp
  have hn := h.next
  simp only [firstMbCode] at hn
  rcases Dict.mem_ent_iff.1 he with hl | hm
  · rw [h.literalPattern e hl]; simp; omega
  · have h1 := h.multiLength e hm
    have h2 := h.multi_code_lt hm
    omega

/-- A literal insertion after a failed `FINDC` keeps the invariants (R124, R141, R171). -/
theorem DictInv.insert_literal {d : Dict} (h : DictInv d) (hf : d.full = false) {b : Byte}
    (hb : codeOfByte b ∉ d.ent.map Entry.code) :
    DictInv { d with ent := d.ent ++ [⟨codeOfByte b, [b]⟩] } := by
  have hlit : Dict.literals { d with ent := d.ent ++ [⟨codeOfByte b, [b]⟩] } = d.literals ++ [⟨codeOfByte b, [b]⟩] := by
    simp [Dict.literals, Entry.isLiteral]
  have hmul : Dict.multi { d with ent := d.ent ++ [⟨codeOfByte b, [b]⟩] } = d.multi := by
    simp [Dict.multi, Entry.isLiteral]
  refine ⟨?_, ?_, ?_, ?_, ?_, ?_, ?_⟩
  · rw [Dict.full_eq_false] at hf; simp [Dict.nent]; exact hf
  · rw [hlit]; intro e he
    rcases List.mem_append.1 he with he | he
    · exact h.literalPattern e he
    · simp only [List.mem_singleton] at he; subst he; simp
  · rw [hlit, List.map_append, List.nodup_append]
    refine ⟨h.literalOnce, by simp, ?_⟩
    intro x hx y hy hxy
    simp only [List.map_cons, List.map_nil, List.mem_singleton] at hy
    subst hy hxy
    obtain ⟨e, he, hec⟩ := List.mem_map.1 hx
    exact hb (List.mem_map.2 ⟨e, (List.mem_filter.1 he).1, hec⟩)
  · rw [hmul]; exact h.multiCodes
  · rw [hmul]; exact h.next
  · rw [hmul]; exact h.multiLength
  · rw [hmul, hlit]; simp

/-- The multi-byte entries after a multi-byte insertion. -/
theorem DictInv.multi_append {d : Dict} (h : DictInv d) (p : Pattern) :
    Dict.multi { ent := d.ent ++ [⟨d.next, p⟩], next := d.next + 1 } = d.multi ++ [⟨d.next, p⟩] := by
  have hn : isLitCode d.next = false := by
    rw [Bool.eq_false_iff, ne_eq, isLitCode_iff, h.next]; simp only [firstMbCode]; omega
  simp [Dict.multi, Entry.isLiteral, hn]

/-- The literal entries after a multi-byte insertion. -/
theorem DictInv.literals_append {d : Dict} (h : DictInv d) (p : Pattern) :
    Dict.literals { ent := d.ent ++ [⟨d.next, p⟩], next := d.next + 1 } = d.literals := by
  have hn : isLitCode d.next = false := by
    rw [Bool.eq_false_iff, ne_eq, isLitCode_iff, h.next]; simp only [firstMbCode]; omega
  simp [Dict.literals, Entry.isLiteral, hn]

/-- A multi-byte insertion within the length bound keeps the invariants (R33, R229). -/
theorem DictInv.insert_multi {d : Dict} (h : DictInv d) (hf : d.full = false) {p : Pattern}
    (h2 : 2 ≤ p.length) (hlen : p.length + 254 ≤ d.next.toNat) (hlit : d.literals ≠ []) :
    DictInv { ent := d.ent ++ [⟨d.next, p⟩], next := d.next + 1 } := by
  have hm := h.multi_append p
  have hl := h.literals_append p
  have hml := h.multi_le
  have hn := h.next
  refine ⟨?_, ?_, ?_, ?_, ?_, ?_, ?_⟩
  · rw [Dict.full_eq_false] at hf; simp [Dict.nent]; exact hf
  · rw [hl]; exact h.literalPattern
  · rw [hl]; exact h.literalOnce
  · rw [hm, List.map_append, h.multiCodes, List.length_append]
    simp only [List.map_cons, List.map_nil, List.length_singleton, List.range'_concat, hn, Nat.one_mul]
  · rw [hm]
    have h1 : (1 : Code).toNat = 1 := rfl
    simp only [BitVec.toNat_add, List.length_append, List.length_singleton, hn, firstMbCode, h1]
    omega
  · rw [hm]; intro e he
    rcases List.mem_append.1 he with he | he
    · exact h.multiLength e he
    · simp only [List.mem_singleton] at he; subst he; exact ⟨h2, hlen⟩
  · rw [hl]; exact fun _ => hlit

end Sys2Proof.Machine
end

