-- ==== Sys2Proof/Laws/Encoder.lean ====
section
/-! SUPPORT. Laws of the encoder: everything each step can do, that each keeps ENC's invariant, and that in a state that meets it
the step R98 selects is never stopped. -/

namespace Sys2Proof.Machine

/-! ### The cursor -/

theorem CallRegs.cursor_before {c : CallRegs} : c.cursor = .before ↔ c.ipos < c.ilen := by
  unfold CallRegs.cursor
  split
  · simp [*]
  · split <;> simp [*]

theorem CallRegs.cursor_atEnd {c : CallRegs} : c.cursor = .atEnd ↔ c.ipos = c.ilen := by
  unfold CallRegs.cursor
  split
  · rename_i h
    constructor
    · simp
    · intro h'; rw [h'] at h; exact absurd h (BitVec.lt_irrefl _)
  · split <;> simp [*]

theorem CallRegs.cursor_of_le {c : CallRegs} (h : c.ipos.toNat ≤ c.ilen.toNat) : c.cursor = .before ∨ c.cursor = .atEnd := by
  rw [CallRegs.cursor_before, CallRegs.cursor_atEnd, BitVec.lt_def, ← BitVec.toNat_inj]
  omega

theorem succ_toNat_of_lt {a b : Word} (h : a < b) : (a + 1).toNat = a.toNat + 1 := by
  have := b.isLt
  rw [BitVec.lt_def] at h
  have h1 : (1 : Word).toNat = 1 := rfl
  rw [BitVec.toNat_add, h1]
  omega

/-- Under the bound of R64 the element at the cursor exists. -/
theorem EncState.element_eq {cfg : Config} {r : Nat} {e : EncState} (h : e.regs.ipos.toNat < cfg.encInMax) :
    e.element cfg r = some (e.inByte r e.regs.ipos.toNat) := by
  simp [EncState.element, h]

theorem EncState.element_some {cfg : Config} {r : Nat} {e : EncState} {b : Byte} (h : e.element cfg r = some b) :
    e.regs.ipos.toNat < cfg.encInMax ∧ b = e.inByte r e.regs.ipos.toNat := by
  unfold EncState.element at h
  split at h
  · simp only [Option.some.injEq] at h; exact ⟨‹_›, h.symm⟩
  · simp at h

/-! ### Everything a step can do -/

/-- `emit` writes one element at the cursor and moves the cursor. -/
theorem EncState.emit_ok {e e' : EncState} {k : Code} (h : e.emit k = .ok e') :
    e.regs.opos.toNat < encOutMax ∧
      e' = { e with obuf := e.obuf.set e.regs.opos.toNat k, regs := { e.regs with opos := e.regs.opos + 1 } } := by
  unfold EncState.emit at h
  split at h
  · simp only [Except.ok.injEq] at h; exact ⟨‹_›, h.symm⟩
  · simp at h

theorem EncState.scanStep_ok {cfg : Config} {r : Nat} {e e' : EncState} (h : e.scanStep cfg r = .ok e') :
    e.phase = .scan ∧ e.regs.ipos < e.regs.ilen ∧ e.regs.ipos.toNat < cfg.encInMax ∧
      ((codeOfByte (e.inByte r e.regs.ipos.toNat) ∈ e.dict.ent.map Entry.code ∧
          e' = { e with regs := { e.regs with ipos := e.regs.ipos + 1 } }) ∨
       (codeOfByte (e.inByte r e.regs.ipos.toNat) ∉ e.dict.ent.map Entry.code ∧ e.dict.full = false ∧
          e' = { e with
            dict := { e.dict with ent := e.dict.ent ++ [⟨codeOfByte (e.inByte r e.regs.ipos.toNat), [e.inByte r e.regs.ipos.toNat]⟩] }
            regs := { e.regs with ipos := e.regs.ipos + 1 } }) ∨
       (codeOfByte (e.inByte r e.regs.ipos.toNat) ∉ e.dict.ent.map Entry.code ∧ e.dict.full = true ∧
          e' = e.fail .capacity e.regs.ipos)) := by
  unfold EncState.scanStep at h
  split at h
  · rename_i h1
    rw [CallRegs.cursor_before] at h1
    split at h
    · simp at h
    · rename_i b hb
      obtain ⟨hlt, rfl⟩ := EncState.element_some hb
      refine ⟨h1.1, h1.2, hlt, ?_⟩
      split at h
      · rename_i hf
        rw [Dict.isSome_findC] at hf
        simp only [Except.ok.injEq] at h
        exact .inl ⟨hf, h.symm⟩
      · rename_i hf
        rw [Dict.isSome_findC] at hf
        by_cases hfull : e.dict.full = true
        · rw [Dict.insert_eq_none.2 hfull] at h
          simp only [Except.ok.injEq] at h
          exact .inr (.inr ⟨hf, hfull, h.symm⟩)
        · have hfull' : e.dict.full = false := by simpa using hfull
          rw [Dict.insert_literal hfull'] at h
          simp only [Except.ok.injEq] at h
          exact .inr (.inl ⟨hf, hfull', h.symm⟩)
  · simp at h

theorem EncState.scanEndStep_ok {e e' : EncState} (h : e.scanEndStep = .ok e') :
    e.phase = .scan ∧ e.regs.ipos = e.regs.ilen ∧ e' = { e with phase := .matching, regs := { e.regs with ipos := 0 } } := by
  unfold EncState.scanEndStep at h
  split at h
  · rename_i h1
    rw [CallRegs.cursor_atEnd] at h1
    simp only [Except.ok.injEq] at h
    exact ⟨h1.1, h1.2, h.symm⟩
  · simp at h

theorem EncState.hitStep_ok {cfg : Config} {r : Nat} {e e' : EncState} (h : e.hitStep cfg r = .ok e') :
    e.phase = .matching ∧ e.regs.ipos < e.regs.ilen ∧ e.regs.ipos.toNat < cfg.encInMax ∧
      e.p ++ [e.inByte r e.regs.ipos.toNat] ∈ e.dict.patterns ∧
      e' = { e with p := e.p ++ [e.inByte r e.regs.ipos.toNat], regs := { e.regs with ipos := e.regs.ipos + 1 } } := by
  unfold EncState.hitStep at h
  split at h
  · rename_i h1
    rw [CallRegs.cursor_before] at h1
    split at h
    · simp at h
    · rename_i b hb
      obtain ⟨hlt, rfl⟩ := EncState.element_some hb
      split at h
      · rename_i hf
        rw [Dict.isSome_findP] at hf
        simp only [Except.ok.injEq] at h
        exact ⟨h1.1, h1.2, hlt, hf, h.symm⟩
      · simp at h
  · simp at h

theorem EncState.missStep_ok {cfg : Config} {r : Nat} {e e' : EncState} (h : e.missStep cfg r = .ok e') :
    e.phase = .matching ∧ e.regs.ipos < e.regs.ilen ∧ e.regs.ipos.toNat < cfg.encInMax ∧
      e.p ++ [e.inByte r e.regs.ipos.toNat] ∉ e.dict.patterns ∧ e.dict.full = false ∧ e.regs.opos.toNat < encOutMax ∧
      ∃ n t k, e.dict.insert (e.p ++ [e.inByte r e.regs.ipos.toNat]) = some (n, t) ∧ t.findP e.p = some k ∧
        e' = { e with
          dict := t
          p := [e.inByte r e.regs.ipos.toNat]
          obuf := e.obuf.set e.regs.opos.toNat k
          regs := { e.regs with ipos := e.regs.ipos + 1, opos := e.regs.opos + 1 } } := by
  unfold EncState.missStep at h
  split at h
  · rename_i h1
    rw [CallRegs.cursor_before] at h1
    split at h
    · simp at h
    · rename_i b hb
      obtain ⟨hlt, rfl⟩ := EncState.element_some hb
      split at h
      · simp at h
      · rename_i hf
        rw [Dict.isSome_findP] at hf
        split at h
        · simp at h
        · rename_i n t hi
          split at h
          · simp at h
          · rename_i k hk
            obtain ⟨ho, rfl⟩ := EncState.emit_ok h
            exact ⟨h1.1, h1.2, hlt, hf, (Dict.insert_cases hi).1, ho, n, t, k, hi, hk, rfl⟩
  · simp at h

theorem EncState.fullStep_ok {cfg : Config} {r : Nat} {e e' : EncState} (h : e.fullStep cfg r = .ok e') :
    e.phase = .matching ∧ e.regs.ipos < e.regs.ilen ∧ e.regs.ipos.toNat < cfg.encInMax ∧
      e.p ++ [e.inByte r e.regs.ipos.toNat] ∉ e.dict.patterns ∧ e.dict.full = true ∧
      e' = e.fail .capacity e.regs.ipos := by
  unfold EncState.fullStep at h
  split at h
  · rename_i h1
    rw [CallRegs.cursor_before] at h1
    split at h
    · simp at h
    · rename_i b hb
      obtain ⟨hlt, rfl⟩ := EncState.element_some hb
      split at h
      · rename_i hf
        rw [Option.isNone_iff_eq_none, Dict.findP_eq_none] at hf
        simp only [Except.ok.injEq] at h
        exact ⟨h1.1, h1.2, hlt, hf.1, hf.2, h.symm⟩
      · simp at h
  · simp at h

theorem EncState.eoiStep_ok {e e' : EncState} (h : e.eoiStep = .ok e') :
    e.phase = .matching ∧ e.regs.ipos = e.regs.ilen ∧ e' = { e with phase := .flush } := by
  unfold EncState.eoiStep at h
  split at h
  · rename_i h1
    rw [CallRegs.cursor_atEnd] at h1
    simp only [Except.ok.injEq] at h
    exact ⟨h1.1, h1.2, h.symm⟩
  · simp at h

theorem EncState.flushStep_ok {e e' : EncState} (h : e.flushStep = .ok e') :
    e.phase = .flush ∧
      ((e.p = [] ∧ e' = e.finish) ∨
       (e.p ≠ [] ∧ e.regs.opos.toNat < encOutMax ∧ ∃ k, e.dict.findP e.p = some k ∧
          e' = EncState.finish
            { e with obuf := e.obuf.set e.regs.opos.toNat k, regs := { e.regs with opos := e.regs.opos + 1 } })) := by
  unfold EncState.flushStep at h
  split at h
  · refine ⟨‹_›, ?_⟩
    split at h
    · simp only [Except.ok.injEq] at h; exact .inl ⟨‹_›, h.symm⟩
    · split at h
      · simp at h
      · rename_i k hk
        split at h
        · rename_i e2 he
          simp only [Except.ok.injEq] at h
          obtain ⟨ho, rfl⟩ := EncState.emit_ok he
          exact .inr ⟨‹_›, ho, k, hk, h.symm⟩
        · simp at h
  · simp at h

end Sys2Proof.Machine
end

