-- ==== Sys2Proof/Laws/Decoder.lean ====
section
/-! SUPPORT. Laws of the decoder: everything each step can do on the code it processes. -/

namespace Sys2Proof.Machine

/-- Under the bound of R64 the element at the cursor exists. -/
theorem DecState.element_eq {cfg : Config} {r : Nat} {d : DecState} (h : d.codeIndex < cfg.decInMax) :
    d.element cfg r = some (d.inCode r d.codeIndex) := by
  simp [DecState.element, h]

theorem DecState.element_some {cfg : Config} {r : Nat} {d : DecState} {k : Code} (h : d.element cfg r = some k) :
    d.codeIndex < cfg.decInMax ∧ k = d.inCode r d.codeIndex := by
  unfold DecState.element at h
  split at h
  · simp only [Option.some.injEq] at h; exact ⟨‹_›, h.symm⟩
  · simp at h

theorem DecState.codeIndex_first {d : DecState} (h : d.phase = .first) : d.codeIndex = 0 := by
  simp [DecState.codeIndex, h]

theorem DecState.codeIndex_ne {d : DecState} (h : d.phase ≠ .first) : d.codeIndex = d.regs.ipos.toNat := by
  simp [DecState.codeIndex, h]

theorem DecState.withElement_ok {cfg : Config} {r : Nat} {d d' : DecState} {f : Code → DecState → Except Fault DecState}
    (h : d.withElement cfg r f = .ok d') :
    d.codeIndex < cfg.decInMax ∧ f (d.inCode r d.codeIndex) d = .ok d' := by
  unfold DecState.withElement at h
  split at h
  · rename_i k hk
    obtain ⟨h1, rfl⟩ := DecState.element_some hk
    exact ⟨h1, h⟩
  · simp at h

theorem DecState.withElement_eq {cfg : Config} {r : Nat} {d : DecState} {f : Code → DecState → Except Fault DecState}
    (h : d.codeIndex < cfg.decInMax) : d.withElement cfg r f = f (d.inCode r d.codeIndex) d := by
  simp [DecState.withElement, DecState.element_eq h]

theorem DecState.fits_iff {cfg : Config} {d : DecState} {k : Code} :
    d.fits cfg k = true ↔ d.regs.opos.toNat + d.nextLen k ≤ cfg.decOutMax := by
  simp [DecState.fits]

/-! ### Everything a step can do -/

theorem DecState.scanStep_ok {k : Code} {d d' : DecState} (h : d.scanStep k = .ok d') :
    d.phase = .scan ∧ d.regs.ipos < d.regs.ilen ∧
      (((isLitCode k = false ∨ k ∈ d.dict.ent.map Entry.code) ∧
          d' = { d with regs := { d.regs with ipos := d.regs.ipos + 1 } }) ∨
       (isLitCode k = true ∧ k ∉ d.dict.ent.map Entry.code ∧ d.dict.full = false ∧
          d' = { d with
            dict := { d.dict with ent := d.dict.ent ++ [⟨codeOfByte (byteOfCode k), [byteOfCode k]⟩] }
            regs := { d.regs with ipos := d.regs.ipos + 1 } }) ∨
       (isLitCode k = true ∧ k ∉ d.dict.ent.map Entry.code ∧ d.dict.full = true ∧
          d' = d.fail .capacity d.regs.ipos)) := by
  unfold DecState.scanStep at h
  split at h
  · rename_i h1
    rw [CallRegs.cursor_before] at h1
    refine ⟨h1.1, h1.2, ?_⟩
    split at h
    · rename_i hc
      simp only [Bool.and_eq_true, Option.isNone_iff_eq_none, Dict.findC_eq_none] at hc
      by_cases hfull : d.dict.full = true
      · rw [Dict.insert_eq_none.2 hfull] at h
        simp only [Except.ok.injEq] at h
        exact .inr (.inr ⟨hc.1, hc.2, hfull, h.symm⟩)
      · have hfull' : d.dict.full = false := by simpa using hfull
        rw [Dict.insert_literal hfull'] at h
        simp only [Except.ok.injEq] at h
        exact .inr (.inl ⟨hc.1, hc.2, hfull', h.symm⟩)
    · rename_i hc
      simp only [Bool.and_eq_true, Option.isNone_iff_eq_none, Dict.findC_eq_none, not_and, not_not] at hc
      simp only [Except.ok.injEq] at h
      refine .inl ⟨?_, h.symm⟩
      by_cases hk : isLitCode k = true
      · exact .inr (hc hk)
      · exact .inl (by simpa using hk)
  · simp at h

theorem DecState.scanEndStep_ok {d d' : DecState} (h : d.scanEndStep = .ok d') :
    d.phase = .scan ∧ d.regs.ipos = d.regs.ilen ∧ d' = { d with phase := .first } := by
  unfold DecState.scanEndStep at h
  split at h
  · rename_i h1
    rw [CallRegs.cursor_atEnd] at h1
    simp only [Except.ok.injEq] at h
    exact ⟨h1.1, h1.2, h.symm⟩
  · simp at h

theorem DecState.firstStep_ok {cfg : Config} {k : Code} {d d' : DecState} (h : d.firstStep cfg k = .ok d') :
    d.phase = .first ∧ d.regs.ilen ≠ 0 ∧ 0 < cfg.decOutMax ∧ ∃ b, d.dict.findC k = some [b] ∧
      d' = { d with phase := .loop, regs := { d.regs with opos := 1, ipos := 1 }, last := [b], obuf := d.obuf.set 0 b } := by
  unfold DecState.firstStep at h
  split at h
  · rename_i h1
    split at h
    · simp at h
    · rename_i b hb
      split at h
      · simp only [Except.ok.injEq] at h
        exact ⟨h1.1, h1.2, ‹_›, b, hb, h.symm⟩
      · simp at h
    · simp at h
  · simp at h

theorem DecState.badFirstStep_ok {k : Option Code} {d d' : DecState} (h : d.badFirstStep k = .ok d') :
    d.phase = .first ∧ (d.regs.ilen = 0 ∨ k.bind d.dict.findC = none) ∧ d' = d.fail .malformed 0 := by
  unfold DecState.badFirstStep at h
  split at h
  · rename_i h1
    simp only [Except.ok.injEq] at h
    rw [Option.isNone_iff_eq_none] at h1
    exact ⟨h1.1, h1.2, h.symm⟩
  · simp at h

theorem DecState.append_ok {new next : Pattern} {d d' : DecState} (h : d.append new next = .ok d') :
    ∃ n t, d.dict.insert new = some (n, t) ∧
      d' = { d with
        dict := t
        obuf := d.obuf.setMany d.regs.opos.toNat next
        last := next
        regs := { d.regs with opos := d.regs.opos + BitVec.ofNat 32 next.length, ipos := d.regs.ipos + 1 } } := by
  unfold DecState.append at h
  split at h
  · simp at h
  · rename_i n t hi
    simp only [Except.ok.injEq] at h
    exact ⟨n, t, hi, h.symm⟩

theorem DecState.knownStep_ok {cfg : Config} {k : Code} {d d' : DecState} (h : d.knownStep cfg k = .ok d') :
    d.phase = .loop ∧ d.regs.ipos < d.regs.ilen ∧ d.dict.full = false ∧ d.fits cfg k = true ∧
      ∃ r0 r, d.dict.findC k = some (r0 :: r) ∧ d.append (d.last ++ [r0]) (r0 :: r) = .ok d' := by
  unfold DecState.knownStep at h
  split at h
  · rename_i h1
    rw [CallRegs.cursor_before] at h1
    split at h
    · simp at h
    · simp at h
    · rename_i r0 r hr
      exact ⟨h1.1, h1.2.1, h1.2.2.1, h1.2.2.2, r0, r, hr, h⟩
  · simp at h

theorem DecState.kwkwkStep_ok {cfg : Config} {k : Code} {d d' : DecState} (h : d.kwkwkStep cfg k = .ok d') :
    d.phase = .loop ∧ d.regs.ipos < d.regs.ilen ∧ d.dict.full = false ∧ d.fits cfg k = true ∧ d.dict.findC k = none ∧
      ∃ l0 l, d.last = l0 :: l ∧ d.append (d.last ++ [l0]) (d.last ++ [l0]) = .ok d' := by
  unfold DecState.kwkwkStep at h
  split at h
  · rename_i h1
    rw [CallRegs.cursor_before] at h1
    split at h
    · simp at h
    · simp at h
    · rename_i l0 l hr hl
      exact ⟨h1.1, h1.2.1, h1.2.2.1, h1.2.2.2, hr, l0, l, hl, by rw [hl]; exact h⟩
  · simp at h

theorem DecState.fullStep_ok {d d' : DecState} (h : d.fullStep = .ok d') :
    d.phase = .loop ∧ d.regs.ipos < d.regs.ilen ∧ d.dict.full = true ∧ d' = d.fail .capacity d.regs.ipos := by
  unfold DecState.fullStep at h
  split at h
  · rename_i h1
    rw [CallRegs.cursor_before] at h1
    simp only [Except.ok.injEq] at h
    exact ⟨h1.1, h1.2.1, h1.2.2, h.symm⟩
  · simp at h

theorem DecState.ovfStep_ok {cfg : Config} {k : Code} {d d' : DecState} (h : d.ovfStep cfg k = .ok d') :
    d.phase = .loop ∧ d.regs.ipos < d.regs.ilen ∧ d.dict.full = false ∧ d.fits cfg k = false ∧
      d' = d.fail .overflow d.regs.ipos := by
  unfold DecState.ovfStep at h
  split at h
  · rename_i h1
    rw [CallRegs.cursor_before] at h1
    simp only [Except.ok.injEq] at h
    exact ⟨h1.1, h1.2.1, h1.2.2.1, h1.2.2.2, h.symm⟩
  · simp at h

theorem DecState.endStep_ok {d d' : DecState} (h : d.endStep = .ok d') :
    d.phase = .loop ∧ d.regs.ipos = d.regs.ilen ∧
      d' = { d with phase := .idle, regs := d.regs.finished d.regs.opos, last := [], dict := .empty } := by
  unfold DecState.endStep at h
  split at h
  · rename_i h1
    rw [CallRegs.cursor_atEnd] at h1
    simp only [Except.ok.injEq] at h
    exact ⟨h1.1, h1.2, h.symm⟩
  · simp at h

/-- Where DEC consumes a code word, consuming it is the step R98 selects for it. -/
theorem DecState.consume_scan {cfg : Config} {k : Code} {d : DecState} (h : d.phase = .scan) :
    d.consume cfg k = d.scanStep k := by simp [DecState.consume, h]

end Sys2Proof.Machine
end

