-- ==== Sys2Proof/Laws/EncInv.lean ====
section
/-! SUPPORT. Each step of ENC, and START, keeps ENC's invariant. -/

namespace Sys2Proof.Machine

/-! ### The registers -/

theorem RegsInv.cleared (n : Nat) (c : CallRegs) : RegsInv false n c.cleared := by
  constructor <;> simp

theorem RegsInv.badLen (n : Nat) (c : CallRegs) : RegsInv true n c.badLen := by
  constructor <;> simp

theorem RegsInv.zero (n : Nat) : RegsInv true n .zero := by
  constructor <;> simp

theorem RegsInv.failed (n : Nat) (c : CallRegs) {code : ErrCode} (h : code ≠ .none) (info : Word) :
    RegsInv true n (c.failed code info) := by
  constructor <;> simp [h]

theorem RegsInv.finished {n : Nat} {c : CallRegs} (h : RegsInv false n c) {m : Word} (hm : m.toNat ≤ n) :
    RegsInv true n (c.finished m) := by
  have hb := h.busy rfl
  have he := h.errinfo hb.2
  have hc := h.errcode
  constructor <;> simp_all

theorem RegsInv.move {b : Bool} {n : Nat} {c : CallRegs} (h : RegsInv false n c) {i o : Word} (ho : o.toNat ≤ n) :
    RegsInv b n { c with ipos := i, opos := o } := by
  have hb := h.busy rfl
  have h1 := h.ocnt
  refine ⟨h.notBoth, h.errcode, h.errinfo, ?_, ho, fun _ => hb⟩
  simpa [hb.1] using h1

theorem RegsInv.setIlen {b : Bool} {n : Nat} {c : CallRegs} (h : RegsInv b n c) (v : Word) :
    RegsInv b n { c with ilen := v } :=
  ⟨h.notBoth, h.errcode, h.errinfo, h.ocnt, h.opos, h.busy⟩

/-! ### START, the error entry, the end of a call -/

theorem EncInv.reset (cfg : Config) (r : Nat) : EncInv cfg r .reset where
  ibuf := rfl
  obuf := rfl
  regs := RegsInv.zero _
  dict := DictInv.empty
  unique := List.nodup_nil
  errors := .inl rfl
  written := by simp
  codes := by simp
  idle := by simp
  cursor := by simp
  scan := by simp
  matching := by simp
  flush := by simp

theorem EncInv.fail {cfg : Config} {r : Nat} {e : EncState} (h : EncInv cfg r e) (info : Word) :
    EncInv cfg r (e.fail .capacity info) where
  ibuf := h.ibuf
  obuf := h.obuf
  regs := RegsInv.failed _ _ (by simp) _
  dict := DictInv.empty
  unique := List.nodup_nil
  errors := .inr (.inl rfl)
  written := by simp
  codes := h.codes
  idle := by simp
  cursor := by simp
  scan := by simp
  matching := by simp
  flush := by simp

theorem EncInv.start {cfg : Config} {r : Nat} {e : EncState} (h : EncInv cfg r e) : EncInv cfg r (e.start cfg) := by
  unfold EncState.start
  split
  · rename_i hi
    split
    · exact {
        ibuf := h.ibuf, obuf := h.obuf, codes := h.codes, dict := DictInv.empty, unique := List.nodup_nil
        regs := by simpa [hi] using RegsInv.badLen _ _
        errors := .inr (.inr rfl)
        written := by simp
        idle := by simp
        cursor := by simp [hi]
        scan := by simp [hi]
        matching := by simp [hi]
        flush := by simp [hi] }
    · rename_i hlen
      exact {
        ibuf := h.ibuf, obuf := h.obuf, codes := h.codes, dict := DictInv.empty, unique := List.nodup_nil
        regs := RegsInv.cleared _ _
        errors := .inl rfl
        written := by simp
        idle := by simp
        cursor := fun _ => by simp; omega
        scan := fun _ => by simp [EncState.Covered]
        matching := by simp
        flush := by simp }
  · exact h

/-- A new `ILEN` or input element of an idle engine keeps the invariant (R24, R203). -/
theorem EncInv.hostWrite {cfg : Config} {r : Nat} {e : EncState} (h : EncInv cfg r e) (hp : e.phase = .idle) (v : Word) {b : Buf 8}
    (hb : Buf.wf cfg.encInMax b) : EncInv cfg r { e with regs := { e.regs with ilen := v }, ibuf := b } := by
  exact {
    ibuf := hb, obuf := h.obuf, regs := h.regs.setIlen v, dict := h.dict, unique := h.unique, errors := h.errors
    written := h.written, codes := h.codes, idle := h.idle
    cursor := fun hn => absurd hp hn
    scan := fun hn => by simp [hp] at hn
    matching := fun hn => by simp [hp] at hn
    flush := fun hn => by simp [hp] at hn }

theorem EncInv.finish {cfg : Config} {r : Nat} {e : EncState} (h1 : Buf.wf cfg.encInMax e.ibuf) (h2 : Buf.wf encOutMax e.obuf)
    (h3 : RegsInv false encOutMax e.regs) (h4 : ∀ j < e.regs.opos.toNat, (e.obuf.get? j).isSome = true)
    (h5 : ∀ j v, e.obuf.get? j = some v → v.toNat ≤ 4350) : EncInv cfg r e.finish where
  ibuf := h1
  obuf := h2
  regs := RegsInv.finished h3 h3.opos
  dict := DictInv.empty
  unique := List.nodup_nil
  errors := .inl (by
    by_contra hne
    have := h3.errcode.2 hne
    simp [(h3.busy rfl).2] at this)
  written := h4
  codes := h5
  idle := fun _ => ⟨rfl, rfl⟩
  cursor := fun h => absurd rfl h
  scan := nofun
  matching := nofun
  flush := nofun

/-! ### The steps -/

theorem EncInv.busyRegs {cfg : Config} {r : Nat} {e : EncState} (h : EncInv cfg r e) {ph : EncPhase} (hp : e.phase = ph)
    (hne : ph ≠ .idle) : RegsInv false encOutMax e.regs := by
  have := h.regs
  rwa [hp, beq_eq_false_iff_ne.2 hne] at this

/-- R230, R156: at every write to `ENC_OBUF` the code is at most 4350. -/
theorem DictInv.code_le {d : Dict} (h : DictInv d) {e : Entry} (he : e ∈ d.ent) : e.code.toNat ≤ 4350 := by
  rcases Dict.mem_ent_iff.1 he with hl | hm
  · have := isLitCode_iff.1 (List.mem_filter.1 hl).2; omega
  · have h1 := h.multi_code_lt hm
    have h2 := h.next
    have h3 := h.multi_le
    simp only [firstMbCode] at h2; omega

theorem written_set {w : Nat} {b : Buf w} {n : Nat} (h : ∀ j < n, (b.get? j).isSome = true) (v : BitVec w) :
    ∀ j < n + 1, ((Buf.set b n v).get? j).isSome = true := by
  intro j hj
  rw [Buf.get?_set]
  split
  · rfl
  · exact h j (by omega)

theorem codes_set {b : Buf 16} (h : ∀ j v, b.get? j = some v → v.toNat ≤ 4350) (n : Nat) {k : Code} (hk : k.toNat ≤ 4350) :
    ∀ j v, (Buf.set b n k).get? j = some v → v.toNat ≤ 4350 := by
  intro j v hv
  rw [Buf.get?_set] at hv
  split at hv
  · simp only [Option.some.injEq] at hv; subst hv; exact hk
  · exact h j v hv

theorem EncInv.scanStep {cfg : Config} {r : Nat} {e e' : EncState} (h : EncInv cfg r e)
    (hs : e.scanStep cfg r = .ok e') : EncInv cfg r e' := by
  obtain ⟨hph, hlt, hin, hc⟩ := EncState.scanStep_ok hs
  have hregs := h.busyRegs hph (by simp)
  have hcur := h.cursor (by simp [hph])
  obtain ⟨hm, hp, ho, hcov⟩ := h.scan hph
  have hsucc := succ_toNat_of_lt hlt
  rw [BitVec.lt_def] at hlt
  have step : ∀ d : Dict, DictInv d → d.patterns.Nodup → d.multi = [] →
      (∀ i < e.regs.ipos.toNat + 1, codeOfByte (e.inByte r i) ∈ d.ent.map Entry.code) →
      EncInv cfg r { e with dict := d, regs := { e.regs with ipos := e.regs.ipos + 1 } } := by
    intro d hd hu hm' hcov'
    exact {
      ibuf := h.ibuf, obuf := h.obuf, dict := hd, unique := hu, errors := h.errors, written := h.written, codes := h.codes
      regs := RegsInv.move hregs hregs.opos
      idle := by simp [hph]
      cursor := fun _ => ⟨by simp only [hsucc]; omega, hcur.2⟩
      scan := fun _ => ⟨hm', hp, ho, fun i hi => hcov' i (by simpa only [hsucc] using hi)⟩
      matching := by simp [hph]
      flush := by simp [hph] }
  rcases hc with ⟨hmem, rfl⟩ | ⟨hnot, hfull, rfl⟩ | ⟨-, -, rfl⟩
  · refine step e.dict h.dict h.unique hm fun i hi => ?_
    rcases Nat.lt_succ_iff_lt_or_eq.1 hi with hi | rfl
    · exact hcov i hi
    · exact hmem
  · refine step _ (h.dict.insert_literal hfull hnot) ?_ ?_ fun i hi => ?_
    · simp only [Dict.patterns, List.map_append, List.map_cons, List.map_nil]
      refine List.Nodup.append h.unique (by simp) ?_
      intro q hq hq'
      simp only [List.mem_singleton] at hq'
      obtain ⟨x, hx, rfl⟩ := List.mem_map.1 hq
      have hxl : x ∈ e.dict.literals := by
        rcases Dict.mem_ent_iff.1 hx with hl | hmu
        · exact hl
        · rw [hm] at hmu; simp at hmu
      have hpat := h.dict.literalPattern x hxl
      rw [hpat, List.cons.injEq] at hq'
      have hb := codeOfByte_byteOfCode (List.mem_filter.1 hxl).2
      rw [hq'.1] at hb
      exact hnot (List.mem_map.2 ⟨x, hx, hb.symm⟩)
    · simpa [Dict.multi, Entry.isLiteral] using hm
    · simp only [List.map_append, List.mem_append]
      rcases Nat.lt_succ_iff_lt_or_eq.1 hi with hi | rfl
      · exact .inl (hcov i hi)
      · exact .inr (by simp)
  · exact h.fail _

theorem EncInv.scanEndStep {cfg : Config} {r : Nat} {e e' : EncState} (h : EncInv cfg r e)
    (hs : e.scanEndStep = .ok e') : EncInv cfg r e' := by
  obtain ⟨hph, heq, rfl⟩ := EncState.scanEndStep_ok hs
  have hregs := h.busyRegs hph (by simp)
  have hcur := h.cursor (by simp [hph])
  obtain ⟨hm, hp, ho, hcov⟩ := h.scan hph
  exact {
    ibuf := h.ibuf, obuf := h.obuf, dict := h.dict, unique := h.unique, errors := h.errors, written := h.written
    codes := h.codes
    regs := RegsInv.move hregs hregs.opos
    idle := by simp
    cursor := fun _ => ⟨by simp, hcur.2⟩
    scan := by simp
    matching := fun _ => ⟨by rw [heq] at hcov; exact hcov, by simp [ho, hm], fun _ => ⟨hp, hm⟩, fun hne => absurd rfl hne⟩
    flush := by simp }

theorem EncInv.hitStep {cfg : Config} {r : Nat} {e e' : EncState} (h : EncInv cfg r e)
    (hs : e.hitStep cfg r = .ok e') : EncInv cfg r e' := by
  obtain ⟨hph, hlt, hin, hmem, rfl⟩ := EncState.hitStep_ok hs
  have hregs := h.busyRegs hph (by simp)
  have hcur := h.cursor (by simp [hph])
  obtain ⟨hcov, hop, h0, h1⟩ := h.matching hph
  have hsucc := succ_toNat_of_lt hlt
  rw [BitVec.lt_def] at hlt
  exact {
    ibuf := h.ibuf, obuf := h.obuf, dict := h.dict, unique := h.unique, errors := h.errors, written := h.written
    codes := h.codes
    regs := RegsInv.move hregs hregs.opos
    idle := by simp [hph]
    cursor := fun _ => ⟨by simp only [hsucc]; omega, hcur.2⟩
    scan := by simp [hph]
    matching := fun _ => ⟨hcov, hop, fun hz => by have := congrArg BitVec.toNat hz; simp only [hsucc] at this; simp at this,
      fun _ => hmem⟩
    flush := by simp [hph] }

/-- In MATCH a byte of the input as a pattern of its own is an entry (R153). -/
theorem EncInv.singleton_mem {cfg : Config} {r : Nat} {e : EncState} (h : EncInv cfg r e) (hph : e.phase = .matching)
    {i : Nat} (hi : i < e.regs.ilen.toNat) : [e.inByte r i] ∈ e.dict.patterns := by
  obtain ⟨x, hx, hc⟩ := List.mem_map.1 ((h.matching hph).1 i hi)
  have hl : x ∈ e.dict.literals := List.mem_filter.2 ⟨hx, by simp [Entry.isLiteral, hc]⟩
  have := h.dict.literalPattern x hl
  rw [hc, byteOfCode_codeOfByte] at this
  exact this ▸ Dict.mem_patterns hx

/-- In MATCH with input left, a miss is never the first byte, so `P` is an entry (R143, R153). -/
theorem EncInv.mem_of_miss {cfg : Config} {r : Nat} {e : EncState} (h : EncInv cfg r e) (hph : e.phase = .matching)
    (hlt : e.regs.ipos < e.regs.ilen) (hmiss : e.p ++ [e.inByte r e.regs.ipos.toNat] ∉ e.dict.patterns) :
    e.p ∈ e.dict.patterns := by
  obtain ⟨hcov, hop, h0, h1⟩ := h.matching hph
  by_cases hz : e.regs.ipos = 0
  · exfalso
    rw [BitVec.lt_def] at hlt
    have := h.singleton_mem hph hlt
    rw [(h0 hz).1] at hmiss
    exact hmiss this
  · exact h1 hz

theorem DictInv.literals_ne_nil {d : Dict} (h : DictInv d) (hne : d.ent ≠ []) : d.literals ≠ [] := by
  intro hl
  have hm : d.multi ≠ [] := by
    intro hm
    have := DictInv.length_split d
    rw [hl, hm] at this
    exact hne (List.length_eq_zero_iff.1 this)
  exact h.literalFirst hm hl

theorem EncInv.missStep {cfg : Config} {r : Nat} {e e' : EncState} (h : EncInv cfg r e)
    (hs : e.missStep cfg r = .ok e') : EncInv cfg r e' := by
  obtain ⟨hph, hlt, hin, hmiss, hfull, hout, n, t, k, hins, hfind, rfl⟩ := EncState.missStep_ok hs
  have hregs := h.busyRegs hph (by simp)
  have hcur := h.cursor (by simp [hph])
  obtain ⟨hcov, hop, h0, h1⟩ := h.matching hph
  have hsucc := succ_toNat_of_lt hlt
  have hpm := h.mem_of_miss hph hlt hmiss
  have hsing := h.singleton_mem hph (by rw [← BitVec.lt_def]; exact hlt)
  rw [BitVec.lt_def] at hlt
  have hplen := h.dict.length_le hpm
  have hlen : (e.p ++ [e.inByte r e.regs.ipos.toNat]).length ≠ 1 := by
    rw [List.length_append, List.length_singleton]; omega
  rw [Dict.insert_multi hfull hlen] at hins
  simp only [Option.some.injEq, Prod.mk.injEq] at hins
  obtain ⟨rfl, rfl⟩ := hins
  have hlit : e.dict.literals ≠ [] := h.dict.literals_ne_nil (by
    obtain ⟨x, hx, -⟩ := List.mem_map.1 hpm
    exact List.ne_nil_of_mem hx)
  have hd := h.dict.insert_multi hfull (p := e.p ++ [e.inByte r e.regs.ipos.toNat])
    (by rw [List.length_append, List.length_singleton]; omega)
    (by rw [List.length_append, List.length_singleton]; omega) hlit
  have hk : k.toNat ≤ 4350 := hd.code_le (Dict.mem_of_findP hfind)
  have hmul := h.dict.multi_append (e.p ++ [e.inByte r e.regs.ipos.toNat])
  have hosucc : (e.regs.opos + 1).toNat = e.regs.opos.toNat + 1 := by
    have h1 : (1 : Word).toNat = 1 := rfl
    simp only [encOutMax] at hout
    rw [BitVec.toNat_add, h1]; omega
  exact {
    ibuf := h.ibuf
    obuf := Buf.wf_set h.obuf _ hout
    regs := RegsInv.move hregs (by rw [hosucc]; exact hout)
    dict := hd
    unique := by
      simp only [Dict.patterns, List.map_append, List.map_cons, List.map_nil]
      refine List.Nodup.append h.unique (by simp) ?_
      intro q hq hq'
      simp only [List.mem_singleton] at hq'
      exact hmiss (hq' ▸ hq)
    errors := h.errors
    written := by simp only [hosucc]; exact written_set h.written k
    codes := codes_set h.codes _ hk
    idle := by simp [hph]
    cursor := fun _ => ⟨by simp only [hsucc]; omega, hcur.2⟩
    scan := by simp [hph]
    matching := fun _ => by
      refine ⟨fun i hi => ?_, ?_, fun hz => ?_, fun _ => ?_⟩
      · have := hcov i hi
        simp only [List.map_append, List.mem_append]
        exact .inl this
      · simp only [hosucc, hmul, List.length_append, List.length_singleton, hop]
      · have := congrArg BitVec.toNat hz; simp only [hsucc] at this; simp at this
      · simp only [Dict.patterns, List.map_append, List.mem_append]
        exact .inl hsing
    flush := by simp [hph] }

theorem EncInv.fullStep {cfg : Config} {r : Nat} {e e' : EncState} (h : EncInv cfg r e)
    (hs : e.fullStep cfg r = .ok e') : EncInv cfg r e' := by
  obtain ⟨-, -, -, -, -, rfl⟩ := EncState.fullStep_ok hs
  exact h.fail _

theorem EncInv.eoiStep {cfg : Config} {r : Nat} {e e' : EncState} (h : EncInv cfg r e)
    (hs : e.eoiStep = .ok e') : EncInv cfg r e' := by
  obtain ⟨hph, heq, rfl⟩ := EncState.eoiStep_ok hs
  have hregs := h.busyRegs hph (by simp)
  have hcur := h.cursor (by simp [hph])
  obtain ⟨hcov, hop, h0, h1⟩ := h.matching hph
  exact {
    ibuf := h.ibuf, obuf := h.obuf, dict := h.dict, unique := h.unique, errors := h.errors, written := h.written
    codes := h.codes
    regs := hregs
    idle := by simp
    cursor := fun _ => hcur
    scan := by simp
    matching := by simp
    flush := fun _ => ⟨heq, hop, fun hz => h0 (heq.trans hz), fun hz => h1 (by rw [heq]; exact hz)⟩ }

theorem EncInv.flushStep {cfg : Config} {r : Nat} {e e' : EncState} (h : EncInv cfg r e)
    (hs : e.flushStep = .ok e') : EncInv cfg r e' := by
  obtain ⟨hph, hc⟩ := EncState.flushStep_ok hs
  have hregs := h.busyRegs hph (by simp)
  rcases hc with ⟨-, rfl⟩ | ⟨-, hout, k, hk, rfl⟩
  · exact EncInv.finish h.ibuf h.obuf hregs h.written h.codes
  · have hosucc : (e.regs.opos + 1).toNat = e.regs.opos.toNat + 1 := by
      have h1 : (1 : Word).toNat = 1 := rfl
      simp only [encOutMax] at hout
      rw [BitVec.toNat_add, h1]; omega
    refine EncInv.finish h.ibuf (Buf.wf_set h.obuf _ hout) ?_ ?_ (codes_set h.codes _ (h.dict.code_le (Dict.mem_of_findP hk)))
    · exact RegsInv.move hregs (by rw [hosucc]; exact hout)
    · simp only [hosucc]; exact written_set h.written k

/-! ### No step that R98 selects stops -/

theorem EncInv.opos_lt {cfg : Config} {r : Nat} {e : EncState} (h : EncInv cfg r e) (hop : e.regs.opos.toNat = e.dict.multi.length) :
    e.regs.opos.toNat < encOutMax := by
  have := h.dict.multi_le
  simp only [encOutMax]; omega

theorem EncInv.miss_enabled {cfg : Config} {r : Nat} {e : EncState} (h : EncInv cfg r e) (hph : e.phase = .matching)
    (hlt : e.regs.ipos < e.regs.ilen) (hmiss : e.p ++ [e.inByte r e.regs.ipos.toNat] ∉ e.dict.patterns)
    (hfull : e.dict.full = false) : ∃ e', e.missStep cfg r = .ok e' := by
  have hcur := h.cursor (by simp [hph])
  have hin : e.regs.ipos.toNat < cfg.encInMax := by rw [BitVec.lt_def] at hlt; omega
  have hpm := h.mem_of_miss hph hlt hmiss
  have hplen := h.dict.length_le hpm
  have hlen : (e.p ++ [e.inByte r e.regs.ipos.toNat]).length ≠ 1 := by
    rw [List.length_append, List.length_singleton]; omega
  have hout := h.opos_lt (h.matching hph).2.1
  have hsome : ∃ k, Dict.findP { ent := e.dict.ent ++ [⟨e.dict.next, e.p ++ [e.inByte r e.regs.ipos.toNat]⟩],
                                 next := e.dict.next + 1 } e.p = some k := by
    rw [← Option.isSome_iff_exists, Dict.isSome_findP]
    simp only [Dict.patterns, List.map_append, List.mem_append]
    exact .inl hpm
  obtain ⟨k, hk⟩ := hsome
  have hne : ¬ (e.dict.findP (e.p ++ [e.inByte r e.regs.ipos.toNat])).isSome = true := by rwa [Dict.isSome_findP]
  unfold EncState.missStep
  rw [if_pos ⟨hph, CallRegs.cursor_before.2 hlt⟩, EncState.element_eq hin]
  simp only [if_neg hne, Dict.insert_multi hfull hlen, hk]
  simp [EncState.emit, hout]

theorem EncInv.flush_enabled {cfg : Config} {r : Nat} {e : EncState} (h : EncInv cfg r e) (hph : e.phase = .flush) :
    ∃ e', e.flushStep = .ok e' := by
  obtain ⟨heq, hop, h0, h1⟩ := h.flush hph
  have hout := h.opos_lt hop
  unfold EncState.flushStep
  rw [if_pos hph]
  by_cases hp : e.p = []
  · simp [hp]
  · rw [if_neg hp]
    by_cases hz : e.regs.ilen = 0
    · exact absurd (h0 hz).1 hp
    · have := Dict.isSome_findP.2 (h1 hz)
      obtain ⟨k, hk⟩ := Option.isSome_iff_exists.1 this
      simp [hk, EncState.emit, hout]

end Sys2Proof.Machine
end

