-- ==== Sys2Proof/Laws/DecInv.lean ====
section
/-! SUPPORT. Each step of DEC, and START, keeps DEC's invariant. -/

namespace Sys2Proof.Machine

theorem DecInv.reset (cfg : Config) (r : Nat) : DecInv cfg r .reset where
  ibuf := rfl
  obuf := rfl
  regs := RegsInv.zero _
  dict := DictInv.empty
  written := by simp
  idle := by simp
  cursor := by simp
  scan := by simp
  first := by simp
  loop := by simp

theorem DecInv.fail {cfg : Config} {r : Nat} {d : DecState} (h : DecInv cfg r d) {code : ErrCode} (hc : code ≠ .none)
    (info : Word) : DecInv cfg r (d.fail code info) where
  ibuf := h.ibuf
  obuf := h.obuf
  regs := RegsInv.failed _ _ hc _
  dict := DictInv.empty
  written := by simp
  idle := by simp
  cursor := by simp
  scan := by simp
  first := by simp
  loop := by simp

theorem DecInv.start {cfg : Config} {r : Nat} {d : DecState} (h : DecInv cfg r d) : DecInv cfg r (d.start cfg) := by
  unfold DecState.start
  split
  · rename_i hi
    split
    · exact {
        ibuf := h.ibuf, obuf := h.obuf, dict := DictInv.empty
        regs := by simpa [hi] using RegsInv.badLen _ _
        written := by simp
        idle := by simp
        cursor := by simp [hi]
        scan := by simp [hi]
        first := by simp [hi]
        loop := by simp [hi] }
    · rename_i hlen
      exact {
        ibuf := h.ibuf, obuf := h.obuf, dict := DictInv.empty
        regs := RegsInv.cleared _ _
        written := by simp
        idle := by simp
        cursor := fun _ => by simp; omega
        scan := fun _ => by simp [DecState.Covered]
        first := by simp
        loop := by simp }
  · exact h

/-- A new `ILEN` or input element of an idle engine keeps the invariant (R24, R203). -/
theorem DecInv.hostWrite {cfg : Config} {r : Nat} {d : DecState} (h : DecInv cfg r d) (hp : d.phase = .idle) (v : Word) {b : Buf 16}
    (hb : Buf.wf cfg.decInMax b) : DecInv cfg r { d with regs := { d.regs with ilen := v }, ibuf := b } := by
  exact {
    ibuf := hb, obuf := h.obuf, regs := h.regs.setIlen v, dict := h.dict, written := h.written, idle := h.idle
    cursor := fun hn => absurd hp hn
    scan := fun hn => by simp [hp] at hn
    first := fun hn => by simp [hp] at hn
    loop := fun hn => by simp [hp] at hn }

theorem DecInv.busyRegs {cfg : Config} {r : Nat} {d : DecState} (h : DecInv cfg r d) {ph : DecPhase} (hp : d.phase = ph)
    (hne : ph ≠ .idle) : RegsInv false cfg.decOutMax d.regs := by
  have := h.regs
  rwa [hp, beq_eq_false_iff_ne.2 hne] at this

/-- `DEC.SCAN` on the code at the cursor keeps the invariant. -/
theorem DecInv.scanStep {cfg : Config} {r : Nat} {d d' : DecState} (h : DecInv cfg r d)
    (hs : d.scanStep (d.inCode r d.regs.ipos.toNat) = .ok d') : DecInv cfg r d' := by
  obtain ⟨hph, hlt, hc⟩ := DecState.scanStep_ok hs
  have hregs := h.busyRegs hph (by simp)
  have hcur := h.cursor (by simp [hph])
  obtain ⟨hm, hp, ho, hcov⟩ := h.scan hph
  have hsucc := succ_toNat_of_lt hlt
  rw [BitVec.lt_def] at hlt
  have step : ∀ t : Dict, DictInv t → t.multi = [] →
      (∀ i < d.regs.ipos.toNat + 1, isLitCode (d.inCode r i) = true → d.inCode r i ∈ t.ent.map Entry.code) →
      DecInv cfg r { d with dict := t, regs := { d.regs with ipos := d.regs.ipos + 1 } } := by
    intro t ht hm' hcov'
    exact {
      ibuf := h.ibuf, obuf := h.obuf, dict := ht, written := h.written
      regs := RegsInv.move hregs hregs.opos
      idle := by simp [hph]
      cursor := fun _ => ⟨by simp only [hsucc]; omega, hcur.2⟩
      scan := fun _ => ⟨hm', hp, ho, fun i hi => hcov' i (by simpa only [hsucc] using hi)⟩
      first := by simp [hph]
      loop := by simp [hph] }
  rcases hc with ⟨hmem, rfl⟩ | ⟨hk, hnot, hfull, rfl⟩ | ⟨-, -, -, rfl⟩
  · refine step d.dict h.dict hm fun i hi hl => ?_
    rcases Nat.lt_succ_iff_lt_or_eq.1 hi with hi | rfl
    · exact hcov i hi hl
    · rcases hmem with hmem | hmem
      · rw [hl] at hmem; simp at hmem
      · exact hmem
  · have hcb := codeOfByte_byteOfCode hk
    refine step _ (h.dict.insert_literal hfull (by rw [hcb]; exact hnot)) ?_ fun i hi hl => ?_
    · simpa [Dict.multi, Entry.isLiteral] using hm
    · simp only [List.map_append, List.mem_append]
      rcases Nat.lt_succ_iff_lt_or_eq.1 hi with hi | rfl
      · exact .inl (hcov i hi hl)
      · exact .inr (by simp [hcb])
  · exact h.fail (by simp) _

theorem DecInv.scanEndStep {cfg : Config} {r : Nat} {d d' : DecState} (h : DecInv cfg r d)
    (hs : d.scanEndStep = .ok d') : DecInv cfg r d' := by
  obtain ⟨hph, heq, rfl⟩ := DecState.scanEndStep_ok hs
  have hregs := h.busyRegs hph (by simp)
  obtain ⟨hm, hp, ho, hcov⟩ := h.scan hph
  exact {
    ibuf := h.ibuf, obuf := h.obuf, dict := h.dict, written := h.written
    regs := hregs
    idle := by simp
    cursor := fun _ => h.cursor (by simp [hph])
    scan := by simp
    first := fun _ => ⟨heq, hm, hp, ho, by rw [heq] at hcov; exact hcov⟩
    loop := by simp }

theorem DecInv.firstStep {cfg : Config} {r : Nat} {d d' : DecState} {k : Code} (h : DecInv cfg r d)
    (hs : d.firstStep cfg k = .ok d') : DecInv cfg r d' := by
  obtain ⟨hph, hne, hout, b, hb, rfl⟩ := DecState.firstStep_ok hs
  have hregs := h.busyRegs hph (by simp)
  have hcur := h.cursor (by simp [hph])
  obtain ⟨heq, hm, hp, ho, hcov⟩ := h.first hph
  have hne' : d.regs.ilen.toNat ≠ 0 := fun hz => hne (BitVec.eq_of_toNat_eq hz)
  have h1 : (1 : Word).toNat = 1 := rfl
  exact {
    ibuf := h.ibuf
    obuf := Buf.wf_set h.obuf _ hout
    dict := h.dict
    regs := RegsInv.move hregs (by rw [h1]; omega)
    written := by
      intro j hj
      simp only [h1] at hj
      have hj0 : j = 0 := by omega
      subst hj0
      simp
    idle := by simp
    cursor := fun _ => ⟨by simp only [h1]; omega, hcur.2⟩
    scan := by simp
    first := by simp
    loop := fun _ => ⟨Dict.mem_patterns (Dict.mem_of_findC hb), by simp [hm], by simp, hcov⟩ }

/-- The loop's tail keeps the invariant: the new entry extends `LAST` by one byte and what is appended is an entry afterwards. -/
theorem DecInv.append {cfg : Config} {r : Nat} {d d' : DecState} (hcfg : cfg.ok) (h : DecInv cfg r d) (hph : d.phase = .loop)
    (hlt : d.regs.ipos < d.regs.ilen) (hfull : d.dict.full = false) {b : Byte} {next : Pattern}
    (hfit : d.regs.opos.toNat + next.length ≤ cfg.decOutMax) (hnext : next ∈ d.dict.patterns ∨ next = d.last ++ [b])
    (hs : d.append (d.last ++ [b]) next = .ok d') : DecInv cfg r d' := by
  obtain ⟨n, t, hins, rfl⟩ := DecState.append_ok hs
  have hregs := h.busyRegs hph (by simp)
  have hcur := h.cursor (by simp [hph])
  obtain ⟨hlast, hip, ho, hcov⟩ := h.loop hph
  have hsucc := succ_toNat_of_lt hlt
  rw [BitVec.lt_def] at hlt
  have hplen := h.dict.length_le hlast
  have hlen : (d.last ++ [b]).length ≠ 1 := by rw [List.length_append, List.length_singleton]; omega
  rw [Dict.insert_multi hfull hlen] at hins
  simp only [Option.some.injEq, Prod.mk.injEq] at hins
  obtain ⟨rfl, rfl⟩ := hins
  have hlit : d.dict.literals ≠ [] := h.dict.literals_ne_nil (by
    obtain ⟨x, hx, -⟩ := List.mem_map.1 hlast
    exact List.ne_nil_of_mem hx)
  have hd := h.dict.insert_multi hfull (p := d.last ++ [b])
    (by rw [List.length_append, List.length_singleton]; omega)
    (by rw [List.length_append, List.length_singleton]; omega) hlit
  have hmul := h.dict.multi_append (d.last ++ [b])
  have hosum : (d.regs.opos + BitVec.ofNat 32 next.length).toNat = d.regs.opos.toNat + next.length := by
    have := hcfg.2.2.1.2
    rw [BitVec.toNat_add, BitVec.toNat_ofNat]; omega
  exact {
    ibuf := h.ibuf
    obuf := Buf.wf_setMany h.obuf _ hfit
    dict := hd
    regs := RegsInv.move hregs (by rw [hosum]; exact hfit)
    written := by
      simp only [hosum]
      intro j hj
      rw [Buf.get?_setMany]
      split
      · rename_i hj2
        have : j - d.regs.opos.toNat < next.length := by omega
        simp [this]
      · exact h.written j (by omega)
    idle := by simp [hph]
    cursor := fun _ => ⟨by simp only [hsucc]; omega, hcur.2⟩
    scan := by simp [hph]
    first := by simp [hph]
    loop := fun _ => by
      refine ⟨?_, ?_, ?_, fun i hi hl => ?_⟩
      · simp only [Dict.patterns, List.map_append, List.mem_append, List.map_cons, List.map_nil, List.mem_singleton]
        exact hnext
      · simp only [hsucc, hmul, List.length_append, List.length_singleton, hip]
      · simp only [hosum]; omega
      · simp only [List.map_append, List.mem_append]
        exact .inl (hcov i hi hl) }

theorem DecInv.knownStep {cfg : Config} {r : Nat} {d d' : DecState} {k : Code} (hcfg : cfg.ok) (h : DecInv cfg r d)
    (hs : d.knownStep cfg k = .ok d') : DecInv cfg r d' := by
  obtain ⟨hph, hlt, hfull, hfit, r0, rr, hr, ha⟩ := DecState.knownStep_ok hs
  rw [DecState.fits_iff, DecState.nextLen, hr] at hfit
  exact DecInv.append hcfg h hph hlt hfull hfit (.inl (Dict.mem_patterns (Dict.mem_of_findC hr))) ha

theorem DecInv.kwkwkStep {cfg : Config} {r : Nat} {d d' : DecState} {k : Code} (hcfg : cfg.ok) (h : DecInv cfg r d)
    (hs : d.kwkwkStep cfg k = .ok d') : DecInv cfg r d' := by
  obtain ⟨hph, hlt, hfull, hfit, hr, l0, l, hl, ha⟩ := DecState.kwkwkStep_ok hs
  rw [DecState.fits_iff, DecState.nextLen, hr] at hfit
  exact DecInv.append hcfg h hph hlt hfull (by rw [List.length_append, List.length_singleton]; exact hfit) (.inr rfl) ha

theorem DecInv.endStep {cfg : Config} {r : Nat} {d d' : DecState} (h : DecInv cfg r d)
    (hs : d.endStep = .ok d') : DecInv cfg r d' := by
  obtain ⟨hph, heq, rfl⟩ := DecState.endStep_ok hs
  have hregs := h.busyRegs hph (by simp)
  exact {
    ibuf := h.ibuf, obuf := h.obuf, dict := DictInv.empty, written := h.written
    regs := RegsInv.finished hregs hregs.opos
    idle := by simp
    cursor := by simp
    scan := by simp
    first := by simp
    loop := by simp }

/-- Consuming the code at the cursor keeps the invariant. -/
theorem DecInv.consume {cfg : Config} {r : Nat} {d d' : DecState} (hcfg : cfg.ok) (h : DecInv cfg r d)
    (hs : d.consume cfg (d.inCode r d.codeIndex) = .ok d') : DecInv cfg r d' := by
  unfold DecState.consume at hs
  split at hs
  · simp at hs
  · rename_i hph
    rw [DecState.codeIndex_ne (by simp [hph])] at hs
    exact h.scanStep hs
  · split at hs
    · simp at hs
    · split at hs
      · exact h.firstStep hs
      · obtain ⟨-, -, rfl⟩ := DecState.badFirstStep_ok hs
        exact h.fail (by simp) _
  · split at hs
    · obtain ⟨-, -, -, rfl⟩ := DecState.fullStep_ok hs
      exact h.fail (by simp) _
    · split at hs
      · obtain ⟨-, -, -, -, rfl⟩ := DecState.ovfStep_ok hs
        exact h.fail (by simp) _
      · split at hs
        · exact DecInv.knownStep hcfg h hs
        · exact DecInv.kwkwkStep hcfg h hs

/-! ### No code word that DEC consumes stops it -/

theorem DecInv.append_enabled {d : DecState} (hfull : d.dict.full = false) (new next : Pattern) :
    ∃ d', d.append new next = .ok d' := by
  unfold DecState.append
  split
  · rename_i h
    rw [Dict.insert_eq_none] at h
    rw [hfull] at h; simp at h
  · exact ⟨_, rfl⟩

theorem DecInv.consume_enabled {cfg : Config} {r : Nat} {d : DecState} (hcfg : cfg.ok) (h : DecInv cfg r d)
    (hc : d.consumesCode = true) (k : Code) : ∃ d', d.consume cfg k = .ok d' := by
  unfold DecState.consumesCode at hc
  unfold DecState.consume
  split at hc
  · simp at hc
  · rename_i hph
    rw [beq_iff_eq] at hc
    simp only [hph]
    unfold DecState.scanStep
    rw [if_pos ⟨hph, hc⟩]
    split
    · split
      · exact ⟨_, rfl⟩
      · exact ⟨_, rfl⟩
    · exact ⟨_, rfl⟩
  · rename_i hph
    rw [beq_iff_eq] at hc
    simp only [hph]
    have hlast := (h.loop hph).1
    split
    · exact ⟨_, if_pos ⟨hph, hc, ‹_›⟩⟩
    · rename_i hfull
      have hfull' : d.dict.full = false := by simpa using hfull
      split
      · rename_i hfit
        exact ⟨_, if_pos ⟨hph, hc, hfull', by simpa using hfit⟩⟩
      · rename_i hfit
        have hfit' : d.fits cfg k = true := by simpa using hfit
        split
        · rename_i hf
          obtain ⟨p, hp⟩ := Option.isSome_iff_exists.1 hf
          have hne := h.dict.pattern_ne_nil (Dict.mem_of_findC hp)
          obtain ⟨r0, rr, rfl⟩ := List.exists_cons_of_ne_nil hne
          unfold DecState.knownStep
          rw [if_pos ⟨hph, hc, hfull', hfit'⟩]
          simp only [hp]
          exact DecInv.append_enabled hfull' _ _
        · rename_i hf
          have hp : d.dict.findC k = none := by simpa using hf
          have hlen := (h.dict.length_le hlast).1
          obtain ⟨l0, l, hl⟩ := List.exists_cons_of_ne_nil (List.length_pos_iff.1 hlen)
          unfold DecState.kwkwkStep
          rw [if_pos ⟨hph, hc, hfull', hfit'⟩]
          simp only [hp, hl]
          exact DecInv.append_enabled hfull' _ _
  · rename_i hph
    have hne : d.regs.ilen ≠ 0 := by simpa using hc
    simp only [hph]
    rw [if_neg hne]
    split
    · rename_i hf
      obtain ⟨p, hp⟩ := Option.isSome_iff_exists.1 hf
      obtain ⟨-, hm, -⟩ := h.first hph
      have hk : isLitCode k = true := by
        have hmem := Dict.mem_of_findC hp
        rcases Dict.mem_ent_iff.1 hmem with hl | hmu
        · exact (List.mem_filter.1 hl).2
        · rw [hm] at hmu; simp at hmu
      have hpat := h.dict.findC_literal hk hp
      subst hpat
      unfold DecState.firstStep
      rw [if_pos ⟨hph, hne⟩]
      simp only [hp]
      exact ⟨_, if_pos hcfg.2.2.1.1⟩
    · rename_i hf
      refine ⟨_, if_pos ⟨hph, .inr ?_⟩⟩
      simpa using hf

end Sys2Proof.Machine
end

