-- ==== Sys2Proof/Laws/PerInstr.lean ====
section
/-! SUPPORT. Facts stated per instruction: one lemma per constructor of `Instr`. -/

namespace Sys2Proof.Laws.EncodingFormat

/-- What selects an instruction is of the kind its row's format names (30_encoding.md R90, R96 to R99): a code word, a bus access,
the conditions of ENC, the conditions of DEC, or nothing. -/
def Matches : Format → Option Selector → Prop
  | .code16, some (.code _) | .ctrl32, some (.bus _) | .bus, some (.bus _) => True
  | .encFsm, some (.encFsm _) | .decFsm, some (.decFsm _) | .dictOp, none => True
  | _, _ => False

/-- For any parameters, the encoder gives the instruction a selector of its row's format. -/
def Statement (i : Instr) : Prop := ∀ cfg : Config, Matches i.format (encode cfg i)

theorem lit (b : Byte) : Statement (.lit b) := fun _ => trivial
theorem ref (c : Code) : Statement (.ref c) := fun _ => trivial
theorem encStart (x : BitVec 31) : Statement (.encStart x) := fun _ => trivial
theorem decStart (x : BitVec 31) : Statement (.decStart x) := fun _ => trivial
theorem hostRdreg (r : Reg) : Statement (.hostRdreg r) := fun _ => trivial
theorem hostWrreg (r : Reg) (v : Word) : Statement (.hostWrreg r v) := fun _ => trivial
theorem hostRdbuf (S : Space) (i : Nat) : Statement (.hostRdbuf S i) := fun _ => trivial
theorem hostWrbuf (S : Space) (i : Nat) (v : BitVec 16) : Statement (.hostWrbuf S i v) := fun _ => trivial
theorem dictClear (T : Engine) : Statement (.dictClear T) := fun _ => trivial
theorem dictInsert (T : Engine) (p : Pattern) : Statement (.dictInsert T p) := fun _ => trivial
theorem dictFindp (T : Engine) (p : Pattern) : Statement (.dictFindp T p) := fun _ => trivial
theorem dictFindc (T : Engine) (k : Code) : Statement (.dictFindc T k) := fun _ => trivial
theorem encScan : Statement (.encScan) := fun _ => trivial
theorem encScanEnd : Statement (.encScanEnd) := fun _ => trivial
theorem encHit : Statement (.encHit) := fun _ => trivial
theorem encMiss : Statement (.encMiss) := fun _ => trivial
theorem encFull : Statement (.encFull) := fun _ => trivial
theorem encEoi : Statement (.encEoi) := fun _ => trivial
theorem encFlush : Statement (.encFlush) := fun _ => trivial
theorem decScan : Statement (.decScan) := fun _ => trivial
theorem decScanEnd : Statement (.decScanEnd) := fun _ => trivial
theorem decFirst : Statement (.decFirst) := fun _ => trivial
theorem decBadFirst : Statement (.decBadFirst) := fun _ => trivial
theorem decKnown : Statement (.decKnown) := fun _ => trivial
theorem decKwkwk : Statement (.decKwkwk) := fun _ => trivial
theorem decFull : Statement (.decFull) := fun _ => trivial
theorem decOvf : Statement (.decOvf) := fun _ => trivial
theorem decEnd : Statement (.decEnd) := fun _ => trivial

end Sys2Proof.Laws.EncodingFormat
end

