-- ==== Sys2Proof/Laws/Step.lean ====
section
/-! SUPPORT. Laws of one step: what each entry of the order of steps can do. Later proofs cite these inversion lemmas instead of
unfolding `step`. -/

namespace Sys2Proof.Machine

/-- A step is one entry of the order of steps, whichever it is. -/
theorem step_eq (s : State) : ∃ ev rest, step s = (s.withScript rest).runEvent ev := ⟨_, _, rfl⟩

theorem step_cons {s : State} {ev : Event} {l : List Event} (h : s.script = ev :: l) :
    step s = (s.withScript l).runEvent ev := by simp [step, State.nextEvent, h]

/-- When the script has ended the order goes on with a round: what `cycle` repeats, then a turn of each engine. -/
theorem step_nil {s : State} (h : s.script = []) :
    step s = step (s.withScript (s.cycle ++ [.turn .enc, .turn .dec])) := by
  cases hc : s.cycle <;> simp [step, State.nextEvent, h, hc, State.withScript]

/-! ### Turns -/

/-- Everything a turn of ENC can do: nothing when idle, else one of the seven steps. -/
theorem State.encTurn_cases {s t : State} (h : s.encTurn = .next t) :
    (s.enc.phase = .idle ∧ t = s) ∨
    (s.enc.phase ≠ .idle ∧ ∃ e, t = s.withEnc e ∧
      (s.enc.scanStep s.cfg s.resets = .ok e ∨ s.enc.scanEndStep = .ok e ∨ s.enc.hitStep s.cfg s.resets = .ok e ∨
       s.enc.missStep s.cfg s.resets = .ok e ∨ s.enc.fullStep s.cfg s.resets = .ok e ∨ s.enc.eoiStep = .ok e ∨
       s.enc.flushStep = .ok e)) := by
  unfold State.encTurn at h
  split at h
  · rename_i hp
    simp only [Host.Outcome.next.injEq] at h
    exact .inl ⟨hp, h.symm⟩
  · rename_i hp
    refine .inr ⟨hp, ?_⟩
    unfold State.selectEnc decodeEncCond at h
    split at h
    · obtain ⟨e, he, ht⟩ := State.endEnc_eq_next.1 h; exact ⟨e, ht, .inl he⟩
    · obtain ⟨e, he, ht⟩ := State.endEnc_eq_next.1 h; exact ⟨e, ht, .inr (.inl he)⟩
    · simp only [State.runDecoded] at h
      split at h
      · obtain ⟨e, he, ht⟩ := State.endEnc_eq_next.1 h; exact ⟨e, ht, .inr (.inr (.inl he))⟩
      · split at h
        · obtain ⟨e, he, ht⟩ := State.endEnc_eq_next.1 h; exact ⟨e, ht, .inr (.inr (.inr (.inr (.inl he))))⟩
        · obtain ⟨e, he, ht⟩ := State.endEnc_eq_next.1 h; exact ⟨e, ht, .inr (.inr (.inr (.inl he)))⟩
    · obtain ⟨e, he, ht⟩ := State.endEnc_eq_next.1 h; exact ⟨e, ht, .inr (.inr (.inr (.inr (.inr (.inl he)))))⟩
    · obtain ⟨e, he, ht⟩ := State.endEnc_eq_next.1 h; exact ⟨e, ht, .inr (.inr (.inr (.inr (.inr (.inr he)))))⟩
    · simp [State.runDecoded] at h

/-- A code word run as an instruction is DEC consuming it. -/
theorem exec_decodeCode (s : State) (k : Code) : exec (decodeCode k) s = s.endDec (s.dec.consume s.cfg k) := by
  unfold decodeCode
  split
  · rename_i h
    show s.endDec (s.dec.consume s.cfg (codeOfByte (byteOfCode k))) = _
    rw [codeOfByte_byteOfCode h]
  · rfl

theorem State.fetchedCode_some {s : State} {k : Code} (h : s.fetchedCode = some k) :
    s.dec.consumesCode = true ∧ s.dec.codeIndex < s.cfg.decInMax ∧ k = s.dec.inCode s.resets s.dec.codeIndex := by
  unfold State.fetchedCode at h
  split at h
  · exact ⟨‹_›, DecState.element_some h⟩
  · simp at h

/-- Everything a turn of DEC can do: nothing when idle, consume the code word at its cursor, or one of the three steps that
consume none. -/
theorem State.decTurn_cases {s t : State} (h : s.decTurn = .next t) :
    (s.dec.phase = .idle ∧ t = s) ∨
    (s.dec.phase ≠ .idle ∧ ∃ d, t = s.withDec d ∧
      ((s.dec.consumesCode = true ∧ s.dec.consume s.cfg (s.dec.inCode s.resets s.dec.codeIndex) = .ok d) ∨
       s.dec.scanEndStep = .ok d ∨ (∃ k, s.dec.badFirstStep k = .ok d) ∨ s.dec.fullStep = .ok d ∨
       s.dec.endStep = .ok d)) := by
  unfold State.decTurn at h
  split at h
  · rename_i hp
    simp only [Host.Outcome.next.injEq] at h
    exact .inl ⟨hp, h.symm⟩
  · rename_i hp
    refine .inr ⟨hp, ?_⟩
    split at h
    · rename_i k hk
      obtain ⟨h1, -, rfl⟩ := State.fetchedCode_some hk
      rw [exec_decodeCode] at h
      obtain ⟨d, hd, ht⟩ := State.endDec_eq_next.1 h
      exact ⟨d, ht, .inl ⟨h1, hd⟩⟩
    · rename_i hk
      have helem : ∀ {f : Code → DecState → Except Fault DecState} {d : DecState}, s.dec.consumesCode = true →
          s.dec.withElement s.cfg s.resets f ≠ .ok d := by
        intro f d hc hd
        have := (DecState.withElement_ok hd).1
        simp [State.fetchedCode, hc, DecState.element_eq this] at hk
      have hbefore : s.dec.phase = .scan ∨ s.dec.phase = .loop → s.dec.regs.cursor = .before → s.dec.consumesCode = true := by
        rintro (h1 | h1) h2 <;> simp [DecState.consumesCode, h1, h2]
      unfold State.selectDec decodeDecCond at h
      split at h
      · rename_i h1 h2
        obtain ⟨d, hd, ht⟩ := State.endDec_eq_next.1 h
        obtain ⟨-, hs⟩ := DecState.withElement_ok hd
        obtain ⟨hps, hlt, -⟩ := DecState.scanStep_ok hs
        exact absurd hd (helem (hbefore (.inl hps) h2))
      · obtain ⟨d, hd, ht⟩ := State.endDec_eq_next.1 h; exact ⟨d, ht, .inr (.inl hd)⟩
      · simp only [State.runDecoded] at h
        split at h
        · obtain ⟨d, hd, ht⟩ := State.endDec_eq_next.1 h
          split at hd
          · exact ⟨d, ht, .inr (.inr (.inl ⟨none, hd⟩))⟩
          · obtain ⟨-, hs⟩ := DecState.withElement_ok hd
            exact ⟨d, ht, .inr (.inr (.inl ⟨_, hs⟩))⟩
        · obtain ⟨d, hd, ht⟩ := State.endDec_eq_next.1 h
          obtain ⟨-, hs⟩ := DecState.withElement_ok hd
          obtain ⟨hpf, hne, -⟩ := DecState.firstStep_ok hs
          exact absurd hd (helem (by simpa [DecState.consumesCode, hpf] using hne))
      · obtain ⟨d, hd, ht⟩ := State.endDec_eq_next.1 h; exact ⟨d, ht, .inr (.inr (.inr (.inr hd)))⟩
      · rename_i h1 h2
        simp only [State.runDecoded] at h
        split at h
        · obtain ⟨d, hd, ht⟩ := State.endDec_eq_next.1 h; exact ⟨d, ht, .inr (.inr (.inr (.inl hd)))⟩
        · split at h
          · obtain ⟨d, hd, ht⟩ := State.endDec_eq_next.1 h
            obtain ⟨-, hs⟩ := DecState.withElement_ok hd
            exact absurd hd (helem (hbefore (.inr (DecState.ovfStep_ok hs).1) h2))
          · split at h
            · obtain ⟨d, hd, ht⟩ := State.endDec_eq_next.1 h
              obtain ⟨-, hs⟩ := DecState.withElement_ok hd
              exact absurd hd (helem (hbefore (.inr (DecState.knownStep_ok hs).1) h2))
            · obtain ⟨d, hd, ht⟩ := State.endDec_eq_next.1 h
              obtain ⟨-, hs⟩ := DecState.withElement_ok hd
              exact absurd hd (helem (hbefore (.inr (DecState.kwkwkStep_ok hs).1) h2))
      · simp [State.runDecoded] at h

/-! ### Host accesses -/

/-- The operations a host access can decode to: the two START commands and the four host operations. -/
theorem decodeBus_cases {cfg : Config} {a : BusAccess} {i : Instr} (h : decodeBus cfg a = .ok i) :
    (∃ x, i = .encStart x) ∨ (∃ x, i = .decStart x) ∨ (∃ r, i = .hostRdreg r) ∨
    (∃ r v, i = .hostWrreg r v ∧ r.isStartWrite v = false) ∨
    (∃ S k, i = .hostRdbuf S k ∧ k < S.count cfg) ∨
    (∃ S k v, i = .hostWrbuf S k v ∧ S.isInput = true ∧ k < S.count cfg) := by
  have hreg : ∀ off, decodeReg a off = .ok i → (∃ x, i = .encStart x) ∨ (∃ x, i = .decStart x) ∨ (∃ r, i = .hostRdreg r) ∨
      (∃ r v, i = .hostWrreg r v ∧ r.isStartWrite v = false) := by
    intro off h
    unfold decodeReg at h
    split at h
    · simp at h
    · split at h
      · simp at h
      · split at h
        · simp only [Except.ok.injEq] at h; exact .inr (.inr (.inl ⟨_, h.symm⟩))
        · simp only [Except.ok.injEq] at h
          unfold decodeRegWrite at h
          split at h
          · rename_i hs
            split at h
            · exact .inl ⟨_, h.symm⟩
            · exact .inr (.inl ⟨_, h.symm⟩)
            · rename_i hn1 hn2
              exfalso
              unfold Reg.isStartWrite at hs
              split at hs
              · rename_i g heq
                cases g
                · exact hn1 heq
                · exact hn2 heq
              · simp at hs
          · rename_i hs
            exact .inr (.inr (.inr ⟨_, _, h.symm, by simpa using hs⟩))
  have hbuf : ∀ S rel, decodeBuf cfg S a rel = .ok i → (∃ S k, i = .hostRdbuf S k ∧ k < S.count cfg) ∨
      (∃ S k v, i = .hostWrbuf S k v ∧ S.isInput = true ∧ k < S.count cfg) := by
    intro S rel h
    unfold decodeBuf at h
    split at h
    · simp at h
    · split at h
      · simp at h
      · split at h
        · simp at h
        · rename_i hlt
          rw [Nat.not_le] at hlt
          split at h
          · simp only [Except.ok.injEq] at h; exact .inl ⟨S, _, h.symm, hlt⟩
          · split at h
            · rename_i hin
              simp only [Except.ok.injEq] at h; exact .inr ⟨S, _, _, h.symm, hin, hlt⟩
            · simp at h
  unfold decodeBus at h
  split at h
  · simp at h
  · unfold decodeOffset at h
    split at h
    · rcases hreg _ h with h | h | h | h
      · exact .inl h
      · exact .inr (.inl h)
      · exact .inr (.inr (.inl h))
      · exact .inr (.inr (.inr (.inl h)))
    · split at h
      · simp at h
      · split at h
        · exact .inr (.inr (.inr (.inr (hbuf _ _ h))))
        · split at h
          · exact .inr (.inr (.inr (.inr (hbuf _ _ h))))
          · split at h
            · simp at h
            · split at h
              · exact .inr (.inr (.inr (.inr (hbuf _ _ h))))
              · split at h
                · exact .inr (.inr (.inr (.inr (hbuf _ _ h))))
                · simp at h

/-- A host access always answers a next state (R205 for the invalid ones). -/
theorem State.hostAccess_next (s : State) (a : BusAccess) : ∃ t, s.hostAccess a = .next t := by
  unfold State.hostAccess
  split
  · rename_i i hi
    rcases decodeBus_cases hi with ⟨x, rfl⟩ | ⟨x, rfl⟩ | ⟨r, rfl⟩ | ⟨r, v, rfl, -⟩ | ⟨S, k, rfl, hk⟩ | ⟨S, k, v, rfl, hin, hk⟩
    · exact ⟨_, rfl⟩
    · exact ⟨_, rfl⟩
    · exact ⟨_, rfl⟩
    · exact ⟨_, rfl⟩
    · exact ⟨_, if_pos hk⟩
    · exact ⟨_, (if_pos hin).trans (if_pos hk)⟩
  · exact ⟨_, rfl⟩

/-- Everything a host access can do: a START, a write of `G_ILEN`, a write of an input element, or nothing to the block beyond what
the host is answered. -/
theorem State.hostAccess_cases {s t : State} {a : BusAccess} (h : s.hostAccess a = .next t) :
    ((∃ x g, decodeBus s.cfg a = .ok (match g with | .enc => .encStart x | .dec => .decStart x) ∧
        t = (s.start g).withReply .ack) ∨
     (∃ g v, decodeBus s.cfg a = .ok (.hostWrreg (.ilen g) v) ∧ t = (s.writeIlen g v).withReply .ack) ∨
     (∃ S i v, decodeBus s.cfg a = .ok (.hostWrbuf S i v) ∧ S.isInput = true ∧ i < S.count s.cfg ∧
        t = (s.writeElem S i v).withReply .ack) ∨
     ∃ r n, t = (s.withReply r).withFreeReads n) := by
  unfold State.hostAccess at h
  split at h
  · rename_i i hi
    rcases decodeBus_cases hi with ⟨x, rfl⟩ | ⟨x, rfl⟩ | ⟨r, rfl⟩ | ⟨r, v, rfl, hsw⟩ | ⟨S, k, rfl, hk⟩ | ⟨S, k, v, rfl, hin, hk⟩
    · simp only [exec, execEncStart, Host.Outcome.next.injEq] at h
      exact .inl ⟨x, .enc, hi, h.symm⟩
    · simp only [exec, execDecStart, Host.Outcome.next.injEq] at h
      exact .inl ⟨x, .dec, hi, h.symm⟩
    · simp only [exec, execHostRdreg, Host.Outcome.next.injEq] at h
      exact .inr (.inr (.inr ⟨.reg (s.readReg r), s.freeReads, by rw [← h]; rfl⟩))
    · simp only [exec, execHostWrreg, Host.Outcome.next.injEq] at h
      cases r with
      | ilen g => exact .inr (.inl ⟨g, v, hi, h.symm⟩)
      | ctrl g =>
        simp only [Reg.isStartWrite] at hsw
        simp only [State.writeReg, hsw] at h
        exact .inr (.inr (.inr ⟨.ack, s.freeReads, by rw [← h]; rfl⟩))
      | _ => exact .inr (.inr (.inr ⟨.ack, s.freeReads, by rw [← h]; rfl⟩))
    · simp only [exec, execHostRdbuf, hk, if_true, Host.Outcome.next.injEq] at h
      unfold State.readElem at h
      split at h
      · rename_i v _
        exact .inr (.inr (.inr ⟨.elem v, s.freeReads, by rw [← h]; rfl⟩))
      · exact .inr (.inr (.inr ⟨_, _, h.symm⟩))
    · simp only [exec, execHostWrbuf, hin, hk, if_true, Host.Outcome.next.injEq] at h
      exact .inr (.inr (.inl ⟨S, k, v, hi, hin, hk, h.symm⟩))
  · rename_i why _
    simp only [Host.Outcome.next.injEq] at h
    exact .inr (.inr (.inr ⟨.busError why, s.freeReads, by rw [← h]; rfl⟩))

/-! ### Dispatch -/

@[simp] theorem exec_lit (b : Byte) (s : State) : exec (.lit b) s = execLit b s := rfl
@[simp] theorem exec_ref (c : Code) (s : State) : exec (.ref c) s = execRef c s := rfl
@[simp] theorem exec_encStart (x : BitVec 31) (s : State) : exec (.encStart x) s = execEncStart x s := rfl
@[simp] theorem exec_decStart (x : BitVec 31) (s : State) : exec (.decStart x) s = execDecStart x s := rfl
@[simp] theorem exec_hostRdreg (r : Reg) (s : State) : exec (.hostRdreg r) s = execHostRdreg r s := rfl
@[simp] theorem exec_hostWrreg (r : Reg) (v : Word) (s : State) : exec (.hostWrreg r v) s = execHostWrreg r v s := rfl
@[simp] theorem exec_hostRdbuf (S : Space) (i : Nat) (s : State) : exec (.hostRdbuf S i) s = execHostRdbuf S i s := rfl
@[simp] theorem exec_hostWrbuf (S : Space) (i : Nat) (v : BitVec 16) (s : State) : exec (.hostWrbuf S i v) s = execHostWrbuf S i v s := rfl
@[simp] theorem exec_dictClear (T : Engine) (s : State) : exec (.dictClear T) s = execDictClear T s := rfl
@[simp] theorem exec_dictInsert (T : Engine) (p : Pattern) (s : State) : exec (.dictInsert T p) s = execDictInsert T p s := rfl
@[simp] theorem exec_dictFindp (T : Engine) (p : Pattern) (s : State) : exec (.dictFindp T p) s = execDictFindp T p s := rfl
@[simp] theorem exec_dictFindc (T : Engine) (k : Code) (s : State) : exec (.dictFindc T k) s = execDictFindc T k s := rfl
@[simp] theorem exec_encScan (s : State) : exec (.encScan) s = execEncScan s := rfl
@[simp] theorem exec_encScanEnd (s : State) : exec (.encScanEnd) s = execEncScanEnd s := rfl
@[simp] theorem exec_encHit (s : State) : exec (.encHit) s = execEncHit s := rfl
@[simp] theorem exec_encMiss (s : State) : exec (.encMiss) s = execEncMiss s := rfl
@[simp] theorem exec_encFull (s : State) : exec (.encFull) s = execEncFull s := rfl
@[simp] theorem exec_encEoi (s : State) : exec (.encEoi) s = execEncEoi s := rfl
@[simp] theorem exec_encFlush (s : State) : exec (.encFlush) s = execEncFlush s := rfl
@[simp] theorem exec_decScan (s : State) : exec (.decScan) s = execDecScan s := rfl
@[simp] theorem exec_decScanEnd (s : State) : exec (.decScanEnd) s = execDecScanEnd s := rfl
@[simp] theorem exec_decFirst (s : State) : exec (.decFirst) s = execDecFirst s := rfl
@[simp] theorem exec_decBadFirst (s : State) : exec (.decBadFirst) s = execDecBadFirst s := rfl
@[simp] theorem exec_decKnown (s : State) : exec (.decKnown) s = execDecKnown s := rfl
@[simp] theorem exec_decKwkwk (s : State) : exec (.decKwkwk) s = execDecKwkwk s := rfl
@[simp] theorem exec_decFull (s : State) : exec (.decFull) s = execDecFull s := rfl
@[simp] theorem exec_decOvf (s : State) : exec (.decOvf) s = execDecOvf s := rfl
@[simp] theorem exec_decEnd (s : State) : exec (.decEnd) s = execDecEnd s := rfl

end Sys2Proof.Machine
end

