-- ==== Sys2Proof/Laws/Progress.lean ====
section
/-! SUPPORT. Progress of a call: how many of its own steps an engine has left at most (R284, R237), that each of its turns takes one,
and that nothing else but RESET touches a busy engine. Claims on runs cite these lemmas instead of the steps. -/

namespace Sys2Proof.Machine

/-- The ENC steps left at most (R284). -/
def EncState.left (e : EncState) : Nat :=
  match e.phase with
  | .idle => 0
  | .scan => e.regs.ilen.toNat - e.regs.ipos.toNat + (e.regs.ilen.toNat + 3)
  | .matching => e.regs.ilen.toNat - e.regs.ipos.toNat + 2
  | .flush => 1

/-- The DEC steps left at most (R284). -/
def DecState.left (d : DecState) : Nat :=
  match d.phase with
  | .idle => 0
  | .scan => d.regs.ilen.toNat - d.regs.ipos.toNat + (d.regs.ilen.toNat + 2)
  | .first => d.regs.ilen.toNat + 1
  | .loop => d.regs.ilen.toNat - d.regs.ipos.toNat + 1

/-- The steps an engine has left at most. -/
def State.left (s : State) : Engine → Nat
  | .enc => s.enc.left
  | .dec => s.dec.left

theorem EncState.left_le (e : EncState) : e.left ≤ 2 * e.regs.ilen.toNat + 3 := by
  unfold EncState.left; split <;> omega

theorem DecState.left_le (d : DecState) : d.left ≤ 2 * d.regs.ilen.toNat + 2 := by
  unfold DecState.left; split <;> omega

theorem EncState.left_pos {e : EncState} : 0 < e.left ↔ e.phase ≠ .idle := by
  unfold EncState.left; split <;> simp_all

theorem DecState.left_pos {d : DecState} : 0 < d.left ↔ d.phase ≠ .idle := by
  unfold DecState.left; split <;> simp_all

theorem State.stateNum_enc {s : State} : s.stateNum .enc = 0 ↔ s.enc.phase = .idle := by
  unfold State.stateNum; cases s.enc.phase <;> simp [EncPhase.num]

theorem State.stateNum_dec {s : State} : s.stateNum .dec = 0 ↔ s.dec.phase = .idle := by
  unfold State.stateNum; cases s.dec.phase <;> simp [DecPhase.num]

/-- An engine has a step left exactly while it is busy. -/
theorem State.left_pos {s : State} {g : Engine} : 0 < s.left g ↔ s.stateNum g ≠ 0 := by
  cases g
  · rw [ne_eq, State.stateNum_enc]; exact EncState.left_pos
  · rw [ne_eq, State.stateNum_dec]; exact DecState.left_pos

/-- The cursor after one more element, which does not wrap. -/
theorem CallRegs.ipos_succ {i l : Word} (h : i < l) : (i + 1).toNat = i.toNat + 1 ∧ i.toNat < l.toNat := by
  have hi := i.isLt
  have hl := l.isLt
  rw [BitVec.lt_def] at h
  have : (1 : Word).toNat = 1 := rfl
  rw [BitVec.toNat_add, this]
  omega

/-! ### One turn -/

/-- A turn of busy ENC takes at least one of the steps it has left. -/
theorem State.encTurn_left {s t : State} (h : s.encTurn = .next t) (hb : s.enc.phase ≠ .idle) :
    t.enc.left < s.enc.left := by
  obtain ⟨hp, -⟩ | ⟨-, e, rfl, hs⟩ := State.encTurn_cases h
  · exact absurd hp hb
  have hfail : ∀ c i, (s.enc.fail c i).left < s.enc.left := fun c i => EncState.left_pos.2 hb
  show e.left < _
  rcases hs with h | h | h | h | h | h | h
  · obtain ⟨hp, hl, -, h⟩ := EncState.scanStep_ok h
    have := CallRegs.ipos_succ hl
    rcases h with ⟨-, rfl⟩ | ⟨-, -, rfl⟩ | ⟨-, -, rfl⟩
    · simp only [EncState.left, hp]; omega
    · simp only [EncState.left, hp]; omega
    · exact hfail _ _
  · obtain ⟨hp, hl, rfl⟩ := EncState.scanEndStep_ok h
    simp only [EncState.left, hp]; omega
  · obtain ⟨hp, hl, -, -, rfl⟩ := EncState.hitStep_ok h
    have := CallRegs.ipos_succ hl
    simp only [EncState.left, hp]; omega
  · obtain ⟨hp, hl, -, -, -, -, n, t, k, -, -, rfl⟩ := EncState.missStep_ok h
    have := CallRegs.ipos_succ hl
    simp only [EncState.left, hp]; omega
  · obtain ⟨-, -, -, -, -, rfl⟩ := EncState.fullStep_ok h
    exact hfail _ _
  · obtain ⟨hp, hl, rfl⟩ := EncState.eoiStep_ok h
    simp only [EncState.left, hp]; omega
  · obtain ⟨hp, ⟨-, rfl⟩ | ⟨-, -, k, -, rfl⟩⟩ := EncState.flushStep_ok h
    · exact EncState.left_pos.2 hb
    · exact EncState.left_pos.2 hb

/-- A turn of busy ENC that makes it idle ends its call: with DONE, or with ERR. -/
theorem State.encTurn_end {s t : State} (h : s.encTurn = .next t) (hb : s.enc.phase ≠ .idle)
    (hf : s.enc.regs.done = false ∧ s.enc.regs.err = false) (ht : t.enc.phase = .idle) :
    t.enc.regs.done = !t.enc.regs.err := by
  obtain ⟨hp, -⟩ | ⟨-, e, rfl, hs⟩ := State.encTurn_cases h
  · exact absurd hp hb
  change e.phase = .idle at ht
  show e.regs.done = !e.regs.err
  rcases hs with h | h | h | h | h | h | h
  · obtain ⟨hp, -, -, ⟨-, rfl⟩ | ⟨-, -, rfl⟩ | ⟨-, -, rfl⟩⟩ := EncState.scanStep_ok h
    · exact absurd ht hb
    · exact absurd ht hb
    · rfl
  · obtain ⟨-, -, rfl⟩ := EncState.scanEndStep_ok h; cases ht
  · obtain ⟨-, -, -, -, rfl⟩ := EncState.hitStep_ok h; exact absurd ht hb
  · obtain ⟨-, -, -, -, -, -, n, t, k, -, -, rfl⟩ := EncState.missStep_ok h; exact absurd ht hb
  · obtain ⟨-, -, -, -, -, rfl⟩ := EncState.fullStep_ok h; rfl
  · obtain ⟨-, -, rfl⟩ := EncState.eoiStep_ok h; cases ht
  · obtain ⟨-, ⟨-, rfl⟩ | ⟨-, -, k, -, rfl⟩⟩ := EncState.flushStep_ok h
    · simp [EncState.finish, hf.2]
    · simp [EncState.finish, hf.2]

/-- Everything DEC can become by consuming a code word: its call failed, or it is in SCAN or LOOP with the cursor moved on. -/
theorem DecState.consume_progress {cfg : Config} {k : Code} {d d' : DecState} (h : d.consume cfg k = .ok d') :
    (∃ c i, d' = d.fail c i) ∨
    (d'.regs.ilen = d.regs.ilen ∧ d'.regs.ipos = d.regs.ipos + 1 ∧ d'.phase = d.phase ∧
      (d.phase = .scan ∨ d.phase = .loop) ∧ d.regs.ipos < d.regs.ilen) ∨
    (d'.regs.ilen = d.regs.ilen ∧ d'.regs.ipos = 1 ∧ d.phase = .first ∧ d'.phase = .loop ∧ d.regs.ilen ≠ 0) := by
  have happ : ∀ {new next : Pattern}, d.phase = .loop → d.regs.ipos < d.regs.ilen → d.append new next = .ok d' →
      d'.regs.ilen = d.regs.ilen ∧ d'.regs.ipos = d.regs.ipos + 1 ∧ d'.phase = d.phase ∧
        (d.phase = .scan ∨ d.phase = .loop) ∧ d.regs.ipos < d.regs.ilen := by
    intro new next hp hl ha
    unfold DecState.append at ha
    split at ha
    · simp at ha
    · simp only [Except.ok.injEq] at ha; subst ha; exact ⟨rfl, rfl, rfl, .inr hp, hl⟩
  unfold DecState.consume at h
  split at h
  · simp at h
  · obtain ⟨hp, hl, ⟨-, rfl⟩ | ⟨-, -, -, rfl⟩ | ⟨-, -, -, rfl⟩⟩ := DecState.scanStep_ok h
    · exact .inr (.inl ⟨rfl, rfl, rfl, .inl hp, hl⟩)
    · exact .inr (.inl ⟨rfl, rfl, rfl, .inl hp, hl⟩)
    · exact .inl ⟨_, _, rfl⟩
  · split at h
    · simp at h
    · split at h
      · obtain ⟨hp, hne, -, b, -, rfl⟩ := DecState.firstStep_ok h
        exact .inr (.inr ⟨rfl, rfl, hp, rfl, hne⟩)
      · obtain ⟨-, -, rfl⟩ := DecState.badFirstStep_ok h
        exact .inl ⟨_, _, rfl⟩
  · split at h
    · obtain ⟨-, -, -, rfl⟩ := DecState.fullStep_ok h; exact .inl ⟨_, _, rfl⟩
    · split at h
      · obtain ⟨-, -, -, -, rfl⟩ := DecState.ovfStep_ok h; exact .inl ⟨_, _, rfl⟩
      · split at h
        · obtain ⟨hp, hl, -, -, r0, r, -, ha⟩ := DecState.knownStep_ok h
          exact .inr (.inl (happ hp hl ha))
        · obtain ⟨hp, hl, -, -, -, l0, l, -, ha⟩ := DecState.kwkwkStep_ok h
          exact .inr (.inl (happ hp hl ha))

/-- A turn of busy DEC takes at least one of the steps it has left. -/
theorem State.decTurn_left {s t : State} (h : s.decTurn = .next t) (hb : s.dec.phase ≠ .idle) :
    t.dec.left < s.dec.left := by
  obtain ⟨hp, -⟩ | ⟨-, d, rfl, hs⟩ := State.decTurn_cases h
  · exact absurd hp hb
  have hfail : ∀ c i, (s.dec.fail c i).left < s.dec.left := fun c i => DecState.left_pos.2 hb
  show d.left < _
  rcases hs with ⟨-, h⟩ | h | ⟨k, h⟩ | h | h
  · obtain ⟨c, i, rfl⟩ | ⟨hi, hc, hp, hq, hl⟩ | ⟨hi, hc, hp, hp', hne⟩ := DecState.consume_progress h
    · exact hfail _ _
    · have := CallRegs.ipos_succ hl
      rcases hq with hq | hq <;> rw [hq] at hp <;> simp only [DecState.left, hp, hq, hi, hc] <;> omega
    · have : s.dec.regs.ilen.toNat ≠ 0 := fun hz => hne (BitVec.eq_of_toNat_eq hz)
      have h1 : (1 : Word).toNat = 1 := rfl
      simp only [DecState.left, hp, hp', hi, hc, h1]; omega
  · obtain ⟨hp, hl, rfl⟩ := DecState.scanEndStep_ok h
    simp only [DecState.left, hp]; omega
  · obtain ⟨-, -, rfl⟩ := DecState.badFirstStep_ok h; exact hfail _ _
  · obtain ⟨-, -, -, rfl⟩ := DecState.fullStep_ok h; exact hfail _ _
  · obtain ⟨-, -, rfl⟩ := DecState.endStep_ok h; exact DecState.left_pos.2 hb

/-- A turn of busy DEC that makes it idle ends its call: with DONE, or with ERR. -/
theorem State.decTurn_end {s t : State} (h : s.decTurn = .next t) (hb : s.dec.phase ≠ .idle)
    (hf : s.dec.regs.done = false ∧ s.dec.regs.err = false) (ht : t.dec.phase = .idle) :
    t.dec.regs.done = !t.dec.regs.err := by
  obtain ⟨hp, -⟩ | ⟨-, d, rfl, hs⟩ := State.decTurn_cases h
  · exact absurd hp hb
  change d.phase = .idle at ht
  show d.regs.done = !d.regs.err
  rcases hs with ⟨-, h⟩ | h | ⟨k, h⟩ | h | h
  · obtain ⟨c, i, rfl⟩ | ⟨-, -, hp, -, -⟩ | ⟨-, -, -, hp', -⟩ := DecState.consume_progress h
    · rfl
    · exact absurd (hp.symm.trans ht) hb
    · rw [hp'] at ht; cases ht
  · obtain ⟨-, -, rfl⟩ := DecState.scanEndStep_ok h; cases ht
  · obtain ⟨-, -, rfl⟩ := DecState.badFirstStep_ok h; rfl
  · obtain ⟨-, -, -, rfl⟩ := DecState.fullStep_ok h; rfl
  · obtain ⟨-, -, rfl⟩ := DecState.endStep_ok h; simp [hf.2]

/-! ### One entry of the order of steps -/

/-- A turn of one engine leaves the rest of the state as it is. -/
theorem State.encTurn_frame {s t : State} (h : s.encTurn = .next t) : t = s.withEnc t.enc := by
  obtain ⟨-, rfl⟩ | ⟨-, e, rfl, -⟩ := State.encTurn_cases h <;> rfl

/-- A turn of one engine leaves the rest of the state as it is. -/
theorem State.decTurn_frame {s t : State} (h : s.decTurn = .next t) : t = s.withDec t.dec := by
  obtain ⟨-, rfl⟩ | ⟨-, d, rfl, -⟩ := State.decTurn_cases h <;> rfl

/-- What a host access does to an engine: to a busy one nothing; to an idle one, short of its START, nothing but a new `ILEN` or
input element. -/
theorem State.hostAccess_engine {s t : State} {a : BusAccess} (h : s.hostAccess a = .next t) :
    (s.enc.phase ≠ .idle → t.enc = s.enc) ∧ (s.dec.phase ≠ .idle → t.dec = s.dec) ∧
    (s.enc.phase = .idle → (Event.host a).startsEnc s.cfg = false →
      ∃ l b, t.enc = { s.enc with regs := { s.enc.regs with ilen := l }, ibuf := b }) ∧
    (s.dec.phase = .idle → (Event.host a).startsDec s.cfg = false →
      ∃ l b, t.dec = { s.dec with regs := { s.dec.regs with ilen := l }, ibuf := b }) := by
  rcases State.hostAccess_cases h with ⟨x, g, hd, rfl⟩ | ⟨g, v, -, rfl⟩ | ⟨S, i, v, -, -, -, rfl⟩ | ⟨r, n, rfl⟩
  · cases g
    · refine ⟨fun hp => ?_, fun _ => rfl, fun _ hs => ?_, fun _ _ => ⟨_, _, rfl⟩⟩
      · simp [State.start, EncState.start, hp]
      · simp [Event.startsEnc, hd] at hs
    · refine ⟨fun _ => rfl, fun hp => ?_, fun _ _ => ⟨_, _, rfl⟩, fun _ hs => ?_⟩
      · simp [State.start, DecState.start, hp]
      · simp [Event.startsDec, hd] at hs
  · cases g
    · refine ⟨fun hp => ?_, fun _ => ?_, fun hp _ => ?_, fun _ _ => ?_⟩ <;> simp only [State.writeIlen]
      · simp [hp]
      · split <;> rfl
      · exact ⟨v, s.enc.ibuf, by simp [hp]⟩
      · split <;> exact ⟨_, _, rfl⟩
    · refine ⟨fun _ => ?_, fun hp => ?_, fun _ _ => ?_, fun hp _ => ?_⟩ <;> simp only [State.writeIlen]
      · split <;> rfl
      · simp [hp]
      · split <;> exact ⟨_, _, rfl⟩
      · exact ⟨v, s.dec.ibuf, by simp [hp]⟩
  · cases S <;> simp only [State.writeElem]
    · refine ⟨fun hp => by simp [hp], fun _ => by split <;> rfl, fun hp _ => ?_, fun _ _ => ?_⟩
      · exact ⟨s.enc.regs.ilen, _, by simp only [hp, if_true]; rfl⟩
      · split <;> exact ⟨_, _, rfl⟩
    · exact ⟨fun _ => rfl, fun _ => rfl, fun _ _ => ⟨_, _, rfl⟩, fun _ _ => ⟨_, _, rfl⟩⟩
    · refine ⟨fun _ => by split <;> rfl, fun hp => by simp [hp], fun _ _ => ?_, fun hp _ => ?_⟩
      · split <;> exact ⟨_, _, rfl⟩
      · exact ⟨s.dec.regs.ilen, _, by simp only [hp, if_true]; rfl⟩
    · exact ⟨fun _ => rfl, fun _ => rfl, fun _ _ => ⟨_, _, rfl⟩, fun _ _ => ⟨_, _, rfl⟩⟩
  · exact ⟨fun _ => rfl, fun _ => rfl, fun _ _ => ⟨_, _, rfl⟩, fun _ _ => ⟨_, _, rfl⟩⟩

/-- A host access leaves the parameters and the order of steps as they are. -/
theorem State.hostAccess_frame {s t : State} {a : BusAccess} (h : s.hostAccess a = .next t) :
    t.cfg = s.cfg ∧ t.script = s.script ∧ t.cycle = s.cycle := by
  rcases State.hostAccess_cases h with ⟨x, g, -, rfl⟩ | ⟨g, v, -, rfl⟩ | ⟨S, i, v, -, -, -, rfl⟩ | ⟨r, n, rfl⟩
  · cases g <;> exact ⟨rfl, rfl, rfl⟩
  · cases g <;> simp only [State.writeIlen] <;> split <;> exact ⟨rfl, rfl, rfl⟩
  · cases S <;> simp only [State.writeElem] <;> (try split) <;> exact ⟨rfl, rfl, rfl⟩
  · exact ⟨rfl, rfl, rfl⟩

/-- No entry of the order of steps changes the parameters or the rest of the order. -/
theorem State.runEvent_frame {s t : State} {ev : Event} (h : s.runEvent ev = .next t) :
    t.cfg = s.cfg ∧ t.script = s.script ∧ t.cycle = s.cycle := by
  cases ev with
  | host a => exact State.hostAccess_frame h
  | reset => simp only [State.runEvent, Host.Outcome.next.injEq] at h; subst h; exact ⟨rfl, rfl, rfl⟩
  | turn g =>
    cases g
    · rw [State.encTurn_frame h]; exact ⟨rfl, rfl, rfl⟩
    · rw [State.decTurn_frame h]; exact ⟨rfl, rfl, rfl⟩

/-- What one entry of the order of steps does to a busy engine: its turn takes one of the steps it has left, and if that makes it
idle its call has ended, with DONE or with ERR; RESET makes it idle; nothing else touches it. -/
theorem State.runEvent_busy {s t : State} {ev : Event} (h : s.runEvent ev = .next t) (g : Engine) (hb : s.stateNum g ≠ 0) :
    (ev = .turn g ∧ t.left g < s.left g ∧
      ((s.regsOf g).done = false ∧ (s.regsOf g).err = false → t.stateNum g = 0 →
        (t.regsOf g).done = !(t.regsOf g).err)) ∨
    (ev = .reset ∧ t.stateNum g = 0) ∨
    (ev ≠ .turn g ∧ ev ≠ .reset ∧ t.left g = s.left g ∧ t.stateNum g = s.stateNum g ∧ t.regsOf g = s.regsOf g) := by
  cases ev with
  | reset =>
    simp only [State.runEvent, Host.Outcome.next.injEq] at h
    subst h
    cases g <;> exact .inr (.inl ⟨rfl, rfl⟩)
  | host a =>
    obtain ⟨he, hd, -, -⟩ := State.hostAccess_engine h
    right; right
    cases g
    · have := he (fun hp => hb (State.stateNum_enc.2 hp))
      simp [State.left, State.stateNum, State.regsOf, this]
    · have := hd (fun hp => hb (State.stateNum_dec.2 hp))
      simp [State.left, State.stateNum, State.regsOf, this]
  | turn g' =>
    cases g <;> cases g'
    · have hp : s.enc.phase ≠ .idle := fun hp => hb (State.stateNum_enc.2 hp)
      exact .inl ⟨rfl, State.encTurn_left h hp, fun hf ht => State.encTurn_end h hp hf (State.stateNum_enc.1 ht)⟩
    · rw [State.decTurn_frame h]; right; right; simp [State.left, State.stateNum, State.regsOf]
    · rw [State.encTurn_frame h]; right; right; simp [State.left, State.stateNum, State.regsOf]
    · have hp : s.dec.phase ≠ .idle := fun hp => hb (State.stateNum_dec.2 hp)
      exact .inl ⟨rfl, State.decTurn_left h hp, fun hf ht => State.decTurn_end h hp hf (State.stateNum_dec.1 ht)⟩

/-- What one entry of the order of steps does to an idle engine that it neither starts nor resets: it stays idle and its flags
stay. -/
theorem State.runEvent_idle {s t : State} {ev : Event} (h : s.runEvent ev = .next t) (g : Engine) (hi : s.stateNum g = 0)
    (hr : ev ≠ .reset) (hs : ev.starts s.cfg g = false) :
    t.stateNum g = 0 ∧ (t.regsOf g).done = (s.regsOf g).done ∧ (t.regsOf g).err = (s.regsOf g).err := by
  cases ev with
  | reset => exact absurd rfl hr
  | host a =>
    obtain ⟨-, -, he, hd⟩ := State.hostAccess_engine h
    cases g
    · obtain ⟨l, b, hx⟩ := he (State.stateNum_enc.1 hi) hs
      have := State.stateNum_enc.1 hi
      simp [State.stateNum, State.regsOf, hx, this, EncPhase.num]
    · obtain ⟨l, b, hx⟩ := hd (State.stateNum_dec.1 hi) hs
      have := State.stateNum_dec.1 hi
      simp [State.stateNum, State.regsOf, hx, this, DecPhase.num]
  | turn g' =>
    cases g <;> cases g'
    · obtain ⟨-, rfl⟩ | ⟨hp, -⟩ := State.encTurn_cases h
      · exact ⟨hi, rfl, rfl⟩
      · exact absurd (State.stateNum_enc.1 hi) hp
    · rw [State.decTurn_frame h]; exact ⟨hi, rfl, rfl⟩
    · rw [State.encTurn_frame h]; exact ⟨hi, rfl, rfl⟩
    · obtain ⟨-, rfl⟩ | ⟨hp, -⟩ := State.decTurn_cases h
      · exact ⟨hi, rfl, rfl⟩
      · exact absurd (State.stateNum_dec.1 hi) hp

/-- A step leaves the parameters and `cycle`, and goes on with the rest of the order. -/
theorem step_frame {s t : State} (h : step s = .next t) :
    t.cfg = s.cfg ∧ t.script = s.nextEvent.2 ∧ t.cycle = s.cycle := State.runEvent_frame h

end Sys2Proof.Machine
end

