-- ==== Sys2Proof/Tests/Slice0.lean ====
section
/-! SUPPORT. The model's own tests: ill-formed terms refused, words decoded, one step per instruction with the result the rule's own
example gives, and for every statement that has hypotheses a state and operands that meet them. -/

namespace Sys2Proof.Machine.Tests

/-! ### Small states -/

/-- The state a step answers, if it answers one. -/
def nextOf : Host.Outcome State Fault Refusal → Option State
  | .next s => some s
  | _ => none

/-- Elements from index 0 on. -/
def stored {w : Nat} (vs : List (BitVec w)) : Buf w := (List.range vs.length).zip vs

/-- Reset with ENC in the middle of a call on the input `bs`. -/
def encAt (ph : EncPhase) (bs : List Byte) (ipos opos : Word) (p : Pattern) (d : Dict) : State :=
  State.reset.withEnc
    { phase := ph, regs := { CallRegs.zero with ilen := BitVec.ofNat 32 bs.length, ipos := ipos, opos := opos }
      p := p, dict := d, ibuf := stored bs, obuf := [] }

/-- Reset with DEC in the middle of a call on the input `cs`, the first `opos` output bytes written. -/
def decAt (ph : DecPhase) (cs : List Code) (ipos : Word) (out : List Byte) (last : Pattern) (d : Dict) : State :=
  State.reset.withDec
    { phase := ph
      regs := { CallRegs.zero with ilen := BitVec.ofNat 32 cs.length, ipos := ipos, opos := BitVec.ofNat 32 out.length }
      last := last, dict := d, ibuf := stored cs, obuf := stored out }

/-- The dictionary `(97,"a")`. -/
def dictA : Dict := ⟨[⟨97, [97]⟩], 256⟩

/-- The dictionary `(97,"a"), (98,"b")`. -/
def dictAB : Dict := ⟨[⟨97, [97]⟩, ⟨98, [98]⟩], 256⟩

/-- The dictionary `(97,"a"), (256,"aa")`. -/
def dictAAA : Dict := ⟨[⟨97, [97]⟩, ⟨256, [97, 97]⟩], 257⟩

/-! ### WellFormed refuses -/

theorem test_wf_ref_below_256 : (Instr.ref 255).wellFormed .suggested = false := by decide
theorem test_wf_reserved_misaligned : (Instr.hostRdreg (.reserved 0x026)).wellFormed .suggested = false := by decide
theorem test_wf_reserved_beyond_window : (Instr.hostRdreg (.reserved 0x1000)).wellFormed .suggested = false := by decide
theorem test_wf_reserved_listed : (Instr.hostRdreg (.reserved 0x014)).wellFormed .suggested = false := by decide
theorem test_wf_wrreg_reserved : (Instr.hostWrreg (.reserved 0x014) 0).wellFormed .suggested = false := by decide
theorem test_wf_wrreg_start : (Instr.hostWrreg (.ctrl .dec) 3).wellFormed .suggested = false := by decide
theorem test_wf_rdbuf_index : (Instr.hostRdbuf .encObuf 4096).wellFormed .suggested = false := by decide
theorem test_wf_wrbuf_index : (Instr.hostWrbuf .encIbuf 65536 0).wellFormed .suggested = false := by decide
theorem test_wf_wrbuf_output : (Instr.hostWrbuf .decObuf 0 0).wellFormed .suggested = false := by decide
theorem test_wf_wrbuf_value : (Instr.hostWrbuf .encIbuf 0 256).wellFormed .suggested = false := by decide
theorem test_wf_insert_empty : (Instr.dictInsert .enc []).wellFormed .suggested = false := by decide
theorem test_wf_insert_long : (Instr.dictInsert .enc (List.replicate 4097 0)).wellFormed .suggested = false := by
  simp only [Instr.wellFormed, List.length_replicate]
  decide

/-! ### Words written out from the encodings of 30_encoding.md and 10_state.md R38 -/

/-- R92, R93, 95_test_vectors.md K1. -/
theorem test_decode_code_words :
    decodeCode 0b0000000000000000#16 = .lit 0x00 ∧ decodeCode 0b0000000011111111#16 = .lit 0xFF ∧
    decodeCode 0b0000000100000000#16 = .ref 256 ∧ decodeCode 0b1111111111111111#16 = .ref 65535 := by decide

/-- R62, 95_test_vectors.md K2: the code 259 is the bytes 03 01. -/
theorem test_decode_code_bytes : decodeCodeBytes [0x03, 0x01, 0xAA] = .ok (.ref 259, [0xAA]) := by rfl

theorem test_decode_code_bytes_short : decodeCodeBytes [0x03] = .error .truncated := by rfl

/-- R96, 95_test_vectors.md K3. -/
theorem test_decode_command_words :
    decodeBus .suggested ⟨.write, 32, 0x010, 0xFFFFFFFF⟩ = .ok (.encStart 0x7FFFFFFF) ∧
    decodeBus .suggested ⟨.write, 32, 0x030, 0x00000001⟩ = .ok (.decStart 0) ∧
    decodeBus .suggested ⟨.write, 32, 0x030, 0x00000002⟩ = .ok (.hostWrreg (.ctrl .dec) 2) := by decide

/-- R38, R61, R63: registers and elements, and accesses that are not valid. -/
theorem test_decode_bus_accesses :
    decodeBus .suggested ⟨.read, 32, 0x01C, 0⟩ = .ok (.hostRdreg (.ocnt .enc)) ∧
    decodeBus .suggested ⟨.write, 32, 0x038, 4⟩ = .ok (.hostWrreg (.ilen .dec) 4) ∧
    decodeBus .suggested ⟨.read, 16, 0x200000C, 0⟩ = .ok (.hostRdbuf .encObuf 6) ∧
    decodeBus .suggested ⟨.write, 8, 0x100FFFF, 0x41⟩ = .ok (.hostWrbuf .encIbuf 0xFFFF 0x41) := by decide

/-- R63 at the edges of the windows of R61. -/
theorem test_decode_bus_edges :
    decodeBus .suggested ⟨.read, 32, 0xFFC, 0⟩ = .ok (.hostRdreg (.reserved 0xFFC)) ∧
    decodeBus .suggested ⟨.read, 32, 0x1000, 0⟩ = .error .unmapped ∧
    decodeBus .suggested ⟨.read, 32, 0x012, 0⟩ = .error .misaligned ∧
    decodeBus .suggested ⟨.read, 8, 0x1010000, 0⟩ = .error .pastEnd ∧
    decodeBus .suggested ⟨.read, 16, 0x2001FFE, 0⟩ = .ok (.hostRdbuf .encObuf 4095) ∧
    decodeBus .suggested ⟨.read, 16, 0x2002000, 0⟩ = .error .unmapped ∧
    decodeBus .suggested ⟨.write, 16, 0x3001FFE, 7⟩ = .ok (.hostWrbuf .decIbuf 4095 7) ∧
    decodeBus .suggested ⟨.read, 16, 0x3002000, 0⟩ = .error .pastEnd ∧
    decodeBus .suggested ⟨.read, 16, 0x3000001, 0⟩ = .error .misaligned ∧
    decodeBus .suggested ⟨.write, 8, 0x4000000, 0⟩ = .error .readOnly ∧
    decodeBus .suggested ⟨.read, 8, 0x5000000, 0⟩ = .error .unmapped := by decide

/-- R61: the windows move with `LZW_BASE`. -/
theorem test_decode_bus_base :
    decodeBus { Config.suggested with lzwBase := 0x8000000 } ⟨.read, 32, 0x8000000, 0⟩ = .ok (.hostRdreg .id) ∧
    decodeBus { Config.suggested with lzwBase := 0x8000000 } ⟨.read, 32, 0x7FFFFFC, 0⟩ = .error .unmapped := by decide

/-- R98, the rows of ENC: `STATE` 1 to 3. -/
theorem test_decode_enc_rows :
    decodeEncCond ⟨1, .before, true, true⟩ = .ok .encScan ∧ decodeEncCond ⟨1, .atEnd, true, true⟩ = .ok .encScanEnd ∧
    decodeEncCond ⟨2, .before, true, true⟩ = .ok .encHit ∧ decodeEncCond ⟨2, .before, false, false⟩ = .ok .encMiss ∧
    decodeEncCond ⟨2, .before, false, true⟩ = .ok .encFull ∧ decodeEncCond ⟨2, .atEnd, true, false⟩ = .ok .encEoi ∧
    decodeEncCond ⟨3, .atEnd, false, true⟩ = .ok .encFlush ∧
    decodeEncCond ⟨0, .before, true, false⟩ = .error .noStep ∧ decodeEncCond ⟨4, .before, true, false⟩ = .error .noStep ∧
    decodeEncCond ⟨2, .past, true, false⟩ = .error .noStep := by decide

/-- R98, the rows of DEC: `STATE` 1 to 3; capacity before the output bound (R248). -/
theorem test_decode_dec_rows :
    decodeDecCond ⟨1, false, .before, true, true, true⟩ = .ok .decScan ∧
    decodeDecCond ⟨1, true, .atEnd, false, false, false⟩ = .ok .decScanEnd ∧
    decodeDecCond ⟨2, false, .atEnd, true, false, false⟩ = .ok .decFirst ∧
    decodeDecCond ⟨2, true, .atEnd, true, false, false⟩ = .ok .decBadFirst ∧
    decodeDecCond ⟨2, false, .atEnd, false, false, false⟩ = .ok .decBadFirst ∧
    decodeDecCond ⟨3, false, .before, true, false, true⟩ = .ok .decKnown ∧
    decodeDecCond ⟨3, false, .before, false, false, true⟩ = .ok .decKwkwk ∧
    decodeDecCond ⟨3, false, .before, true, true, false⟩ = .ok .decFull ∧
    decodeDecCond ⟨3, false, .before, true, false, false⟩ = .ok .decOvf ∧
    decodeDecCond ⟨3, false, .atEnd, false, true, false⟩ = .ok .decEnd ∧
    decodeDecCond ⟨0, false, .before, true, false, true⟩ = .error .noStep := by decide

/-- R99: a dictionary operation is selected by nothing. -/
theorem test_encode_dict : encode .suggested (.dictClear .enc) = none ∧ encode .suggested (.dictInsert .dec [97]) = none ∧
    encode .suggested (.dictFindp .enc [97]) = none ∧ encode .suggested (.dictFindc .dec 97) = none := by decide

/-- The table's own words for its four rows with bits, and a length no row has. -/
theorem test_table_words :
    decodeTableWord 16 0x0061 = some (.lit 0x61) ∧ decodeTableWord 16 0x0100 = some (.ref 0x0100) ∧
    decodeTableWord 32 0x00000001 = some (.encStart 0) ∧ decodeTableWord 8 0 = none := by decide

/-- A placed code word is the next instruction: DEC scans it. -/
theorem test_placed_code_word :
    ((nextOf (step (State.reset.withFetchWord 16 0x0061))).map (fun t => (t.dec.dict, t.dec.regs.ipos, t.script))) =
      some (dictA, 1, []) := by decide

/-- A placed command word is the next instruction: ENC starts. -/
theorem test_placed_command_word :
    ((nextOf (step (State.reset.withFetchWord 32 1))).map (fun t => (t.enc.phase, t.reply))) = some (.scan, .ack) := by decide

/-! ### One step per instruction, with the result of the rule's own example -/

/-- R171 on the stream `a <256> <257> <256>`: the literal is inserted. -/
theorem test_lit :
    (nextOf (exec (.lit 97) (decAt .scan [97, 256, 257, 256] 0 [] [] .empty))).map (fun t => (t.dec.dict, t.dec.regs.ipos)) =
      some (dictA, 1) := by decide

/-- R176 example, as the code word 256. -/
theorem test_ref :
    (nextOf (exec (.ref 256) (decAt .loop [97, 256] 1 [97] [97] dictA))).map
        (fun t => (t.dec.dict, t.dec.obuf, t.dec.regs.opos, t.dec.last)) =
      some (dictAAA, stored [97, 97, 97], 3, [97, 97]) := by decide

/-- R140 example: `ILEN` = 8. -/
theorem test_enc_start :
    (nextOf (exec (.encStart 0) (encAt .idle (List.replicate 8 97) 5 4 [] .empty))).map
        (fun t => (t.enc.phase, t.enc.regs.ipos, t.enc.regs.ocnt, t.enc.dict)) = some (.scan, 0, 0, .empty) := by decide

/-- R140, R247: BADLEN. -/
theorem test_enc_start_badlen :
    (nextOf (exec (.encStart 0) (State.reset.writeIlen .enc 65537))).map
        (fun t => (t.enc.phase, t.readReg (.status .enc), t.readReg (.errinfo .enc))) = some (.idle, 0x420, 65537) := by decide

/-- R170 example: `ILEN` = 4. -/
theorem test_dec_start :
    (nextOf (exec (.decStart 0) (decAt .idle [97, 256, 257, 256] 4 [97] [] .empty))).map
        (fun t => (t.dec.phase, t.dec.regs.ipos, t.dec.dict)) = some (.scan, 0, .empty) := by decide

/-- R170, R41: no effect while busy. -/
theorem test_dec_start_busy :
    (nextOf (exec (.decStart 0) (decAt .loop [97, 256] 1 [97] [97] dictA))).map (·.dec) =
      some (decAt .loop [97, 256] 1 [97] [97] dictA).dec := by decide

/-- R200 example: `ENC_STATUS` after a success. -/
theorem test_rdreg :
    (nextOf (exec (.hostRdreg (.status .enc))
        (State.reset.withEnc { EncState.reset with regs := CallRegs.finished .zero 4 }))).map (·.reply) =
      some (.reg 0x10) := by decide

/-- R201 example: `WRREG(ENC_ILEN, 8)`. -/
theorem test_wrreg_ilen :
    (nextOf (exec (.hostWrreg (.ilen .enc) 8) State.reset)).map (·.enc.regs.ilen) = some 8 := by decide

/-- R201 example: `WRREG(ENC_STATUS, 0xFFFFFFFF)` changes nothing. -/
theorem test_wrreg_status :
    (nextOf (exec (.hostWrreg (.status .enc) 0xFFFFFFFF) State.reset)).map (·.enc) = some .reset := by decide

/-- R202 example: after encoding "aaaaaaaa", `RDBUF(ENC_OBUF, 1)` is 0x0100. -/
theorem test_rdbuf :
    (nextOf (exec (.hostRdbuf .encObuf 1)
        (State.reset.withEnc
          { EncState.reset with regs := CallRegs.finished .zero 4, obuf := stored [97, 256, 257, 256] }))).map (·.reply) =
      some (.elem 0x0100) := by decide

/-- R203 example: `WRBUF(DEC_IBUF, 0, 0x0061)`. -/
theorem test_wrbuf :
    (nextOf (exec (.hostWrbuf .decIbuf 0 0x0061) State.reset)).map (fun t => t.dec.inCode t.resets 0) = some 97 := by decide

/-- R69: ignored while the engine is busy. -/
theorem test_wrbuf_busy :
    (nextOf (exec (.hostWrbuf .decIbuf 0 0x0062) (decAt .scan [97] 0 [] [] .empty))).map (·.dec.ibuf) = some (stored [97]) := by
  decide

/-- R120 example. -/
theorem test_dict_clear :
    (nextOf (exec (.dictClear .enc) (State.reset.setDict .enc dictAAA))).map (·.enc.dict) = some .empty := by decide

/-- R121 example: `INSERT("ab")` returns 256. -/
theorem test_dict_insert :
    (nextOf (exec (.dictInsert .dec [97, 98]) (State.reset.setDict .dec dictAB))).map (fun t => (t.dictRet, t.dec.dict.next, t.dec.dict.nent)) =
      some (.code 256, 257, 3) := by decide

/-- R121 example: then `INSERT("c")` returns 99 and leaves `NEXT` at 257. -/
theorem test_dict_insert_literal :
    (nextOf (exec (.dictInsert .dec [99]) (State.reset.setDict .dec ⟨dictAB.ent ++ [⟨256, [97, 98]⟩], 257⟩))).map
        (fun t => (t.dictRet, t.dec.dict.next, t.dec.dict.nent)) = some (.code 99, 257, 4) := by decide

/-- R125 examples: "ab" is 256, "ba" is absent. -/
theorem test_dict_findp :
    (nextOf (exec (.dictFindp .enc [97, 98]) (State.reset.setDict .enc ⟨dictAB.ent ++ [⟨256, [97, 98]⟩], 257⟩))).map (·.dictRet) =
      some (.optCode (some 256)) ∧
    (nextOf (exec (.dictFindp .enc [98, 97]) (State.reset.setDict .enc ⟨dictAB.ent ++ [⟨256, [97, 98]⟩], 257⟩))).map (·.dictRet) =
      some (.optCode none) := by decide

/-- R126 examples: 256 is "aa", 257 is absent. -/
theorem test_dict_findc :
    (nextOf (exec (.dictFindc .enc 256) (State.reset.setDict .enc dictAAA))).map (·.dictRet) =
      some (.optPattern (some [97, 97])) ∧
    (nextOf (exec (.dictFindc .enc 257) (State.reset.setDict .enc dictAAA))).map (·.dictRet) = some (.optPattern none) := by
  decide

/-- R141 example, input "abca": the third SCAN inserts "c". -/
theorem test_enc_scan :
    (nextOf (exec .encScan (encAt .scan [97, 98, 99, 97] 2 0 [] dictAB))).map (fun t => (t.enc.dict.ent, t.enc.regs.ipos)) =
      some ([⟨97, [97]⟩, ⟨98, [98]⟩, ⟨99, [99]⟩], 3) := by decide

/-- R141: a byte already there inserts nothing. -/
theorem test_enc_scan_again :
    (nextOf (exec .encScan (encAt .scan [97, 97] 1 0 [] dictA))).map (fun t => (t.enc.dict, t.enc.regs.ipos)) =
      some (dictA, 2) := by decide

/-- R142. -/
theorem test_enc_scanend :
    (nextOf (exec .encScanEnd (encAt .scan [97, 98] 2 0 [] dictAB))).map (fun t => (t.enc.phase, t.enc.regs.ipos, t.enc.dict)) =
      some (.matching, 0, dictAB) := by decide

/-- R143 example: `P` becomes "aa". -/
theorem test_enc_hit :
    (nextOf (exec .encHit (encAt .matching [97, 97, 97, 97] 2 1 [97] dictAAA))).map (fun t => (t.enc.p, t.enc.regs.ipos, t.enc.regs.opos)) =
      some ([97, 97], 3, 1) := by decide

/-- R144 example. -/
theorem test_enc_miss :
    (nextOf (exec .encMiss (encAt .matching [97, 98] 1 0 [97] dictAB))).map
        (fun t => (t.enc.dict, t.enc.obuf, t.enc.regs.opos, t.enc.p)) =
      some (⟨dictAB.ent ++ [⟨256, [97, 98]⟩], 257⟩, stored [97], 1, [98]) := by decide

/-- R146 example. -/
theorem test_enc_eoi :
    (nextOf (exec .encEoi (encAt .matching [97, 98] 2 1 [98] dictAB))).map (fun t => (t.enc.phase, t.enc.p)) =
      some (.flush, [98]) := by decide

/-- R147 example: `ENC_OBUF:1` = 98, `OCNT` = 2, DONE. -/
theorem test_enc_flush :
    (nextOf (exec .encFlush (encAt .flush [97, 98] 2 1 [98] dictAB))).map
        (fun t => (t.enc.obuf.get? 1, t.enc.regs.ocnt, t.readReg (.status .enc), t.enc.dict)) =
      some (some 98, 2, 0x10, .empty) := by decide

/-- R151: the empty input flushes nothing. -/
theorem test_enc_flush_empty :
    (nextOf (exec .encFlush (encAt .flush [] 0 0 [] .empty))).map (fun t => (t.enc.obuf, t.enc.regs.ocnt, t.enc.regs.done)) =
      some ([], 0, true) := by decide

/-- R171: a code of 256 or more inserts nothing. -/
theorem test_dec_scan :
    (nextOf (exec .decScan (decAt .scan [97, 256] 1 [] [] dictA))).map (fun t => (t.dec.dict, t.dec.regs.ipos)) =
      some (dictA, 2) := by decide

/-- R172, and the trace of V3 (95_test_vectors.md, DEC rows 5 and 6): `IPOS` is 4 before `DEC.SCANEND` and still 4 before
`DEC.FIRST`. -/
theorem test_dec_scanend :
    (nextOf (exec .decScanEnd (decAt .scan [97, 256, 257, 256] 4 [] [] dictA))).map (fun t => (t.dec.phase, t.dec.regs.ipos)) =
      some (.first, 4) := by decide

/-- R173, and the trace of V3 (DEC row 6): with `IPOS` 4 before it, element 0 is resolved and `IPOS` becomes 1. -/
theorem test_dec_first :
    (nextOf (exec .decFirst (decAt .first [97, 256, 257, 256] 4 [] [] dictA))).map
        (fun t => (t.dec.obuf, t.dec.last, t.dec.regs.ipos, t.dec.regs.opos, t.dec.phase)) =
      some (stored [97], [97], 1, 1, .loop) := by decide

/-- R174 examples: the empty stream, and `<300> a`. -/
theorem test_dec_badfirst :
    (nextOf (exec .decBadFirst (decAt .first [] 0 [] [] .empty))).map (fun t => t.readReg (.status .dec)) = some 0x220 ∧
    (nextOf (exec .decBadFirst (decAt .first [300, 97] 2 [] [] dictA))).map
        (fun t => (t.readReg (.status .dec), t.dec.regs.errinfo, t.dec.regs.ipos)) = some (0x220, 0, 2) := by decide

/-- R175 example. -/
theorem test_dec_known :
    (nextOf (exec .decKnown (decAt .loop [97, 98] 1 [97] [97] dictAB))).map
        (fun t => (t.dec.dict.ent, t.dec.obuf, t.dec.regs.opos, t.dec.last)) =
      some (dictAB.ent ++ [⟨256, [97, 98]⟩], stored [97, 98], 2, [98]) := by decide

/-- R176 example. -/
theorem test_dec_kwkwk :
    (nextOf (exec .decKwkwk (decAt .loop [97, 256] 1 [97] [97] dictA))).map
        (fun t => (t.dec.dict, t.dec.obuf, t.dec.regs.opos, t.dec.last)) =
      some (dictAAA, stored [97, 97, 97], 3, [97, 97]) := by decide

/-- R178 example: `DEC_OUT_MAX` = 4, the third code of `a <256> <257>`. -/
theorem test_dec_ovf :
    (nextOf (exec .decOvf { decAt .loop [97, 256, 257] 2 [97, 97, 97] [97, 97] dictAAA with
        cfg := { Config.suggested with decOutMax := 4 } })).map
        (fun t => (t.readReg (.status .dec), t.dec.regs.errinfo, t.dec.regs.ocnt, t.dec.dict)) =
      some (0x320, 2, 0, .empty) := by decide

/-- R179 example: `a <256>` after its LOOP step. -/
theorem test_dec_end :
    (nextOf (exec .decEnd (decAt .loop [97, 256] 2 [97, 97, 97] [97, 97] dictAAA))).map
        (fun t => (t.dec.regs.ocnt, t.dec.obuf, t.readReg (.status .dec))) = some (3, stored [97, 97, 97], 0x10) := by decide

/-- R270. -/
theorem test_reset_event :
    (nextOf (step ((decAt .loop [97, 256] 1 [97] [97] dictA).withScript [.reset]))).map (fun t => (t.dec, t.resets)) =
      some (.reset, 1) := by decide

/-- 95_test_vectors.md V3, V4: the functions on "aaaaaaaa" and "abcdefg". -/
theorem test_encode_vectors :
    lzwEncode (List.replicate 8 97) = .ok [97, 256, 257, 256] ∧
    lzwEncode [97, 98, 99, 100, 101, 102, 103] = .ok [97, 98, 99, 100, 101, 102, 103] := by decide

/-- R183, 95_test_vectors.md V22, V24, V16: streams no encoder produces. -/
theorem test_decode_vectors :
    lzwDecode 65536 [97, 300] = .ok [97, 97, 97] ∧
    lzwDecode 65536 [97, 98, 256, 65535] = .ok [97, 98, 97, 98, 97, 98, 97] ∧
    lzwDecode 65536 [65535] = .error (.malformed, 0) ∧ lzwDecode 4 [97, 256, 257] = .error (.overflow, 2) := by decide

/-! ### States that meet the invariant -/

/-- The first `n` literals, inserted in order. -/
def lits : Nat → Dict
  | 0 => .empty
  | n + 1 => { lits n with ent := (lits n).ent ++ [⟨codeOfByte (BitVec.ofNat 8 n), [BitVec.ofNat 8 n]⟩] }

/-- All 256 literals and `n` multi-byte entries with the pattern "aa". -/
def wide : Nat → Dict
  | 0 => lits 256
  | n + 1 => { ent := (wide n).ent ++ [⟨(wide n).next, [97, 97]⟩], next := (wide n).next + 1 }

theorem lits_codes (n : Nat) : (lits n).ent.map Entry.code = (List.range n).map fun i => codeOfByte (BitVec.ofNat 8 i) := by
  induction n with
  | zero => rfl
  | succ n ih => simp only [lits, List.map_append, ih, List.range_succ]; rfl

theorem lits_next (n : Nat) : (lits n).next = 256 := by
  induction n with
  | zero => rfl
  | succ n ih => exact ih

theorem lits_length (n : Nat) : (lits n).ent.length = n := by
  have := congrArg List.length (lits_codes n)
  simpa using this

theorem lits_inv {n : Nat} (h : n ≤ 256) : DictInv (lits n) := by
  induction n with
  | zero => exact DictInv.empty
  | succ n ih =>
    refine (ih (by omega)).insert_literal (Dict.full_eq_false.2 (by rw [lits_length]; simp only [dictCap]; omega)) ?_
    rw [lits_codes]
    simp only [List.mem_map, List.mem_range, not_exists, not_and]
    intro i hi he
    have := congrArg BitVec.toNat (codeOfByte_inj he)
    simp only [BitVec.toNat_ofNat] at this
    omega

theorem lits_pattern {n : Nat} {e : Entry} (h : e ∈ (lits n).ent) : e.pat.length = 1 := by
  induction n with
  | zero => simp [lits] at h
  | succ n ih =>
    rcases List.mem_append.1 h with h | h
    · exact ih h
    · rw [List.mem_singleton.1 h]; rfl

theorem wide_next {n : Nat} (h : n ≤ 3840) : (wide n).next.toNat = 256 + n := by
  induction n with
  | zero => rw [wide, lits_next]; rfl
  | succ n ih =>
    have h1 : (1 : Code).toNat = 1 := rfl
    simp only [wide, BitVec.toNat_add, ih (by omega), h1]
    omega

theorem wide_length (n : Nat) : (wide n).ent.length = 256 + n := by
  induction n with
  | zero => exact lits_length 256
  | succ n ih => simp only [wide, List.length_append, ih, List.length_singleton]; omega

theorem wide_lit {n : Nat} (b : Byte) : codeOfByte b ∈ (wide n).ent.map Entry.code := by
  induction n with
  | zero =>
    rw [wide, lits_codes]
    exact List.mem_map.2 ⟨b.toNat, List.mem_range.2 b.isLt, by rw [BitVec.ofNat_toNat, BitVec.setWidth_eq]⟩
  | succ n ih => rw [wide, List.map_append]; exact List.mem_append_left _ ih

theorem wide_inv {n : Nat} (h : n ≤ 3840) : DictInv (wide n) := by
  induction n with
  | zero => exact lits_inv (Nat.le_refl _)
  | succ n ih =>
    have hi := ih (by omega)
    refine hi.insert_multi (Dict.full_eq_false.2 (by rw [wide_length]; simp only [dictCap]; omega)) (by simp) ?_ ?_
    · rw [wide_next (by omega)]; simp
    · obtain ⟨e, he, hc⟩ := List.mem_map.1 (wide_lit (n := n) 0)
      exact List.ne_nil_of_mem (List.mem_filter.2 ⟨he, by rw [Entry.isLiteral, hc, isLitCode_codeOfByte]⟩)

theorem wide_multi (n : Nat) (h : n ≤ 3840) : (wide n).multi.length = n := by
  have h1 := (wide_inv h).next
  rw [wide_next h] at h1
  simp only [firstMbCode] at h1; omega

theorem wide_pattern {n : Nat} {e : Entry} (h : e ∈ (wide n).ent) : e.pat.length = 1 ∨ e.pat = [97, 97] := by
  induction n with
  | zero => exact .inl (lits_pattern h)
  | succ n ih =>
    rcases List.mem_append.1 h with h | h
    · exact ih h
    · rw [List.mem_singleton.1 h]; exact .inr rfl

theorem wide_byte {n : Nat} (h : n ≤ 3840) (b : Byte) : [b] ∈ (wide n).patterns := by
  obtain ⟨e, he, hc⟩ := List.mem_map.1 (wide_lit (n := n) b)
  have hl : e ∈ (wide n).literals := List.mem_filter.2 ⟨he, by rw [Entry.isLiteral, hc, isLitCode_codeOfByte]⟩
  have := (wide_inv h).literalPattern e hl
  rw [hc, byteOfCode_codeOfByte] at this
  exact this ▸ Dict.mem_patterns he

theorem lits_patterns (n : Nat) : (lits n).patterns = (List.range n).map fun i => [BitVec.ofNat 8 i] := by
  induction n with
  | zero => rfl
  | succ n ih =>
    have h : (lits (n + 1)).patterns = (lits n).patterns ++ [[BitVec.ofNat 8 n]] := by
      simp only [Dict.patterns, lits, List.map_append, List.map_cons, List.map_nil]
    rw [h, ih, List.range_succ, List.map_append]; rfl

theorem wide_unique {n : Nat} (h : n ≤ 1) : (wide n).patterns.Nodup := by
  have h0 : (wide 0).patterns.Nodup := by
    rw [wide, lits_patterns]
    refine List.Nodup.map_on ?_ List.nodup_range
    intro x hx y hy he
    have := congrArg BitVec.toNat (List.head_eq_of_cons_eq he)
    simp only [BitVec.toNat_ofNat, List.mem_range] at this hx hy
    omega
  match n, h with
  | 0, _ => exact h0
  | 1, _ =>
    have h1 : (wide 1).patterns = (wide 0).patterns ++ [[97, 97]] := by
      simp only [Dict.patterns, wide, List.map_append, List.map_cons, List.map_nil]
    rw [h1]
    refine List.nodup_append.2 ⟨h0, List.nodup_singleton _, ?_⟩
    intro p hp q hq he
    obtain ⟨e, he', rfl⟩ := List.mem_map.1 hp
    have := lits_pattern (n := 256) he'
    rw [he, List.mem_singleton.1 hq] at this
    simp at this

/-- Reset with ENC in the middle of a call, `wide n` its dictionary, one code emitted per multi-byte entry (at most one). -/
def encW (ph : EncPhase) (bs : List Byte) (ilen ipos : Word) (p : Pattern) (n : Nat) : State :=
  State.reset.withEnc
    { phase := ph, regs := { CallRegs.zero with ilen := ilen, ipos := ipos, opos := BitVec.ofNat 32 n }
      p := p, dict := wide n, ibuf := stored bs, obuf := stored (List.replicate n 97) }

/-- Reset with DEC in the middle of a call, `wide n` its dictionary, the bytes `out` written. -/
def decW (ph : DecPhase) (cs : List Code) (ilen ipos : Word) (out : List Byte) (last : Pattern) (n : Nat) : State :=
  State.reset.withDec
    { phase := ph
      regs := { CallRegs.zero with ilen := ilen, ipos := ipos, opos := BitVec.ofNat 32 out.length }
      last := last, dict := wide n, ibuf := stored cs, obuf := stored out }

theorem encW_inv {ph : EncPhase} {bs : List Byte} {ilen ipos : Word} {p : Pattern} {n : Nat} (hb : Buf.wf 65536 (stored bs))
    (hph : ph ≠ .idle) (h1 : ipos.toNat ≤ ilen.toNat ∧ ilen.toNat ≤ 65536) (hn : n ≤ 1)
    (hs : ph = .scan → n = 0 ∧ p = []) (hm : ph = .matching → (ipos = 0 → p = [] ∧ n = 0) ∧ (ipos ≠ 0 → p ∈ (wide n).patterns))
    (hf : ph = .flush → ipos = ilen ∧ (ilen = 0 → p = [] ∧ n = 0) ∧ (ilen ≠ 0 → p ∈ (wide n).patterns)) :
    Inv (encW ph bs ilen ipos p n) := by
  have hd := wide_inv (show n ≤ 3840 by omega)
  have hw := wide_multi n (by omega)
  have hmn : n = 0 → (wide n).multi = [] := fun h => List.length_eq_zero_iff.1 (by rw [hw, h])
  have ho : (BitVec.ofNat 32 n).toNat = n := by rw [BitVec.toNat_ofNat]; omega
  have hcov : ∀ m, EncState.Covered 0 (encW ph bs ilen ipos p n).enc m := fun m i _ => wide_lit _
  have hst : ∀ b : Buf 16, b = stored (List.replicate n 97) → Buf.wf encOutMax b ∧ (∀ j < n, (b.get? j).isSome = true) ∧
      ∀ j v, b.get? j = some v → v.toNat ≤ 4350 := by
    rcases Nat.le_one_iff_eq_zero_or_eq_one.1 hn with h | h <;> subst h <;> rintro b rfl
    · exact ⟨rfl, by simp, by simp [stored]⟩
    · refine ⟨rfl, fun j hj => by rw [show j = 0 by omega]; rfl, fun j v hv => ?_⟩
      by_cases hj : 0 = j
      · subst hj; have : v = 97 := by simpa [stored, Buf.get?] using hv.symm
        subst this; decide
      · simp [stored, Buf.get?, hj] at hv
  obtain ⟨hst1, hst2, hst3⟩ := hst _ rfl
  refine ⟨show Config.suggested.ok by decide, ?_, DecInv.reset _ _⟩
  exact {
    ibuf := hb, obuf := hst1
    regs := ⟨nofun, by simp [encW], fun _ => rfl, rfl, by show (BitVec.ofNat 32 n).toNat ≤ 4096; omega, fun _ => ⟨rfl, rfl⟩⟩
    dict := hd, unique := wide_unique hn, errors := .inl rfl
    written := by show ∀ j < (BitVec.ofNat 32 n).toNat, _; rw [ho]; exact hst2
    codes := hst3
    idle := fun h => absurd h hph
    cursor := fun _ => h1
    scan := fun h => ⟨hmn (hs h).1, (hs h).2,
      by rw [show (encW ph bs ilen ipos p n).enc.regs.opos = BitVec.ofNat 32 n from rfl, (hs h).1]; rfl, hcov _⟩
    matching := fun h => ⟨hcov _, ho.trans hw.symm, fun h0 => ⟨((hm h).1 h0).1, hmn ((hm h).1 h0).2⟩, (hm h).2⟩
    flush := fun h => ⟨(hf h).1, ho.trans hw.symm, fun h0 => ⟨((hf h).2.1 h0).1, hmn ((hf h).2.1 h0).2⟩, (hf h).2.2⟩ }

theorem decW_inv {ph : DecPhase} {cs : List Code} {ilen ipos : Word} {out : List Byte} {last : Pattern} {n : Nat}
    (hb : Buf.wf 4096 (stored cs)) (hph : ph ≠ .idle) (h1 : ipos.toNat ≤ ilen.toNat ∧ ilen.toNat ≤ 4096) (hn : n ≤ 3840)
    (hout : out = [] ∨ out = [97])
    (hs : ph = .scan → n = 0 ∧ last = [] ∧ out = []) (hf : ph = .first → ipos = ilen ∧ n = 0 ∧ last = [] ∧ out = [])
    (hl : ph = .loop → last = [97] ∧ ipos.toNat = n + 1 ∧ out = [97]) :
    Inv (decW ph cs ilen ipos out last n) := by
  have hd := wide_inv hn
  have hw := wide_multi n hn
  have hmn : n = 0 → (wide n).multi = [] := fun h => List.length_eq_zero_iff.1 (by rw [hw, h])
  have hcov : ∀ m, DecState.Covered 0 (decW ph cs ilen ipos out last n).dec m := fun m i _ hlit => by
    have := wide_lit (n := n) (byteOfCode ((decW ph cs ilen ipos out last n).dec.inCode 0 i))
    rwa [codeOfByte_byteOfCode hlit] at this
  have ho : out = [] → (decW ph cs ilen ipos out last n).dec.regs.opos = 0 := by rintro rfl; rfl
  have ho1 : (BitVec.ofNat 32 out.length).toNat ≤ 65536 ∧ (out = [97] → 1 ≤ (BitVec.ofNat 32 out.length).toNat) := by
    rcases hout with h | h <;> subst h <;> decide
  refine ⟨show Config.suggested.ok by decide, EncInv.reset _ _, ?_⟩
  exact {
    ibuf := hb
    obuf := by rcases hout with rfl | rfl <;> rfl
    regs := ⟨nofun, by simp [decW], fun _ => rfl, rfl, ho1.1, fun _ => ⟨rfl, rfl⟩⟩
    dict := hd
    written := by
      rcases hout with rfl | rfl
      · intro j hj; simp [decW] at hj
      · intro j hj; simp [decW] at hj; subst hj; rfl
    idle := fun h => absurd h hph
    cursor := fun _ => h1
    scan := fun h => ⟨hmn (hs h).1, (hs h).2.1, ho (hs h).2.2, hcov _⟩
    first := fun h => ⟨(hf h).1, hmn (hf h).2.1, (hf h).2.2.1, ho (hf h).2.2.2, hcov _⟩
    loop := fun h => ⟨(hl h).1 ▸ wide_byte hn 97, by rw [show (decW ph cs ilen ipos out last n).dec.dict = wide n from rfl, hw]; exact (hl h).2.1,
      ho1.2 (hl h).2.2, hcov _⟩ }

theorem wide_nent (n : Nat) : (wide n).nent = 256 + n := wide_length n

theorem wide_findP_none {n : Nat} {q : Pattern} (h1 : q.length ≠ 1) (h2 : q ≠ [97, 97]) : (wide n).findP q = none := by
  rw [Dict.findP_eq_none]
  intro h
  obtain ⟨e, he, rfl⟩ := List.mem_map.1 h
  exact (wide_pattern he).elim h1 h2

theorem wide_findC {n : Nat} (h : n ≤ 3840) (b : Byte) : (wide n).findC (codeOfByte b) = some [b] := by
  obtain ⟨r, hr⟩ := Option.isSome_iff_exists.1 (Dict.isSome_findC.2 (wide_lit (n := n) b))
  rw [hr, (wide_inv h).findC_literal (isLitCode_codeOfByte b) hr, byteOfCode_codeOfByte]

theorem wide_findC_none {n : Nat} (h : n ≤ 3840) {k : Code} (hk : 256 + n ≤ k.toNat) : (wide n).findC k = none := by
  rw [Dict.findC_eq_none]
  intro hm
  obtain ⟨e, he, rfl⟩ := List.mem_map.1 hm
  rcases Dict.mem_ent_iff.1 he with hl | hm
  · have := isLitCode_iff.1 (List.mem_filter.1 hl).2; omega
  · have := ((wide_inv h).multi_code_lt hm).2
    rw [wide_next h] at this; omega

theorem wide_hit : (wide 1).findP [97, 97] ≠ none := by
  rw [ne_eq, Dict.findP_eq_none, not_not]
  exact List.mem_map.2 ⟨⟨(wide 0).next, [97, 97]⟩, List.mem_append_right _ (List.mem_singleton.2 rfl), rfl⟩

/-- ENC at each row of R98, and its invariant where a run reaches such a state. -/
def eScan : State := encW .scan [97] 1 0 [] 0
def eScanEnd : State := encW .scan [97] 1 1 [] 0
def eHit : State := encW .matching [97, 97] 2 1 [97] 1
def eMiss : State := encW .matching [97, 98] 2 1 [97] 0
def eFull : State := encW .matching [97, 98] 2 1 [97] 3840
def eEoi : State := encW .matching [97] 1 1 [97] 0
def eFlush : State := encW .flush [97] 1 1 [97] 0
def eFlushEmpty : State := encW .flush [] 0 0 [] 0

theorem eScan_inv : Inv eScan := encW_inv rfl nofun (by decide) (by decide) (by decide) nofun nofun
theorem eMiss_inv : Inv eMiss :=
  encW_inv rfl nofun (by decide) (by decide) nofun (fun _ => ⟨by decide, fun _ => wide_byte (by decide) 97⟩) nofun
theorem eFlush_inv : Inv eFlush :=
  encW_inv rfl nofun (by decide) (by decide) nofun nofun (fun _ => ⟨rfl, by decide, fun _ => wide_byte (by decide) 97⟩)
theorem eFlushEmpty_inv : Inv eFlushEmpty :=
  encW_inv rfl nofun (by decide) (by decide) nofun nofun (fun _ => ⟨rfl, fun _ => ⟨rfl, rfl⟩, fun h => absurd rfl h⟩)

/-- DEC at each row of R98, and its invariant. -/
def dScan : State := decW .scan [97] 1 0 [] [] 0
def dScanEnd : State := decW .scan [97] 1 1 [] [] 0
def dFirst : State := decW .first [97] 1 1 [] [] 0
def dBadFirst : State := decW .first [300] 1 1 [] [] 0
def dBadFirstEmpty : State := decW .first [] 0 0 [] [] 0
def dEnd : State := decW .loop [97] 1 1 [97] [97] 0
def dKnown : State := decW .loop [97, 97] 2 1 [97] [97] 0
def dKwkwk : State := decW .loop [97, 256] 2 1 [97] [97] 0
def dFull : State := decW .loop [] 3842 3841 [97] [97] 3840
def dOvf : State := { dKnown with cfg := { Config.suggested with decOutMax := 1 } }

theorem dScan_inv : Inv dScan := decW_inv rfl nofun (by decide) (by decide) (.inl rfl) (by decide) nofun nofun
theorem dFirst_inv : Inv dFirst := decW_inv rfl nofun (by decide) (by decide) (.inl rfl) nofun (by decide) nofun
theorem dBadFirst_inv : Inv dBadFirst := decW_inv rfl nofun (by decide) (by decide) (.inl rfl) nofun (by decide) nofun
theorem dBadFirstEmpty_inv : Inv dBadFirstEmpty := decW_inv rfl nofun (by decide) (by decide) (.inl rfl) nofun (by decide) nofun
theorem dKnown_inv : Inv dKnown := decW_inv rfl nofun (by decide) (by decide) (.inr rfl) nofun nofun (by decide)
theorem dKwkwk_inv : Inv dKwkwk := decW_inv rfl nofun (by decide) (by decide) (.inr rfl) nofun nofun (by decide)
theorem dFull_inv : Inv dFull := decW_inv rfl nofun (by decide) (by decide) (.inr rfl) nofun nofun (by decide)
theorem dOvf_inv : Inv dOvf :=
  have h := dKnown_inv.dec
  have hr := h.regs
  ⟨by decide, EncInv.reset _ _,
    { ibuf := h.ibuf, obuf := rfl, dict := h.dict, written := h.written, idle := h.idle, cursor := h.cursor, scan := h.scan
      first := h.first, loop := h.loop
      regs := ⟨hr.notBoth, hr.errcode, hr.errinfo, hr.ocnt, by show (1 : Word).toNat ≤ 1; decide, hr.busy⟩ }⟩

theorem script_inv {s : State} (h : Inv s) (l : List Event) : Inv (s.withScript l) := ⟨h.config, h.enc, h.dec⟩

theorem host_step (s : State) (a : BusAccess) : ∃ t, step (s.withScript [.host a]) = .next t := by
  rw [step_cons rfl]; exact State.hostAccess_next _ _

/-- The code at DEC's cursor in `dKnown` and `dOvf`. -/
theorem dKnown_findC : dKnown.dec.dict.findC (dKnown.dec.inCode dKnown.resets dKnown.dec.regs.ipos.toNat) = some [97] :=
  wide_findC (by decide) 97

theorem dKwkwk_findC : dKwkwk.dec.dict.findC (dKwkwk.dec.inCode dKwkwk.resets dKwkwk.dec.regs.ipos.toNat) = none :=
  wide_findC_none (k := 256) (by decide) (by decide)

theorem dBadFirst_findC : dBadFirst.dec.dict.findC (dBadFirst.dec.inCode dBadFirst.resets 0) = none :=
  wide_findC_none (k := 300) (by decide) (by decide)

/-- ENC idle with its input in place, after reset. -/
def encIdle (bs : List Byte) (l : List Event) : State :=
  (State.reset.withEnc
    { EncState.reset with regs := { CallRegs.zero with ilen := BitVec.ofNat 32 bs.length }, ibuf := stored bs }).withScript l

/-- DEC idle with its input in place, after reset, with room for `B` output bytes. -/
def decIdle (B : Nat) (cs : List Code) (l : List Event) : State :=
  ({ State.reset with cfg := { Config.suggested with decOutMax := B } }.withDec
    { DecState.reset with regs := { CallRegs.zero with ilen := BitVec.ofNat 32 cs.length }, ibuf := stored cs }).withScript l

theorem encIdle_inv {bs : List Byte} (h : Buf.wf 65536 (stored bs)) (l : List Event) : Inv (encIdle bs l) :=
  ⟨show Config.suggested.ok by decide, (EncInv.reset _ _).hostWrite rfl _ h, DecInv.reset _ _⟩

theorem decIdle_inv {B : Nat} (hB : 1 ≤ B ∧ B ≤ 2 ^ 24) {cs : List Code} (h : Buf.wf 4096 (stored cs)) (l : List Event) :
    Inv (decIdle B cs l) :=
  ⟨⟨(by decide : 1 ≤ 65536 ∧ 65536 ≤ 2 ^ 24), (by decide : 1 ≤ 4096 ∧ 4096 ≤ 2 ^ 23), hB, (by decide : 0 % 2 ^ 27 = 0)⟩, EncInv.reset _ _, (DecInv.reset _ _).hostWrite rfl _ h⟩

/-! ### Witnesses: encodings and steps -/

/-- Largest parameters, with operands at the ends of their ranges. -/
theorem witness_DecodeOfEncodeIsIdentity :
    (⟨2 ^ 24, 2 ^ 23, 2 ^ 24, 2 ^ 27⟩ : Config).ok ∧
    ∀ i ∈ [Instr.lit 255, .ref 256, .encStart 0, .hostRdreg (.reserved 0xFFC), .hostWrreg (.ctrl .enc) 0xFFFFFFFE,
        .hostRdbuf .decObuf (2 ^ 24 - 1), .hostWrbuf .encIbuf (2 ^ 24 - 1) 255, .hostWrbuf .decIbuf (2 ^ 23 - 1) 65535,
        .dictInsert .dec [0]], i.wellFormed ⟨2 ^ 24, 2 ^ 23, 2 ^ 24, 2 ^ 27⟩ = true := by decide

theorem witness_DecodedAccessIsWellFormed :
    Config.suggested.ok ∧ decodeBus .suggested ⟨.write, 8, 0x100FFFF, 0x141⟩ = .ok (.hostWrbuf .encIbuf 65535 0x41) := by decide

theorem witness_InvalidAccessChangesNothing :
    (State.reset.withScript [.host ⟨.read, 8, 0x5000000, 0⟩]).cfg.ok ∧
    (State.reset.withScript [.host ⟨.read, 8, 0x5000000, 0⟩]).script = .host ⟨.read, 8, 0x5000000, 0⟩ :: [] ∧
    decodeBus State.reset.cfg ⟨.read, 8, 0x5000000, 0⟩ = .error .unmapped := by decide

theorem witness_StepRunsTheDecodedAccess :
    (State.reset.withScript [.host ⟨.write, 32, 0x018, 8⟩]).script = .host ⟨.write, 32, 0x018, 8⟩ :: [] ∧
    decodeBus State.reset.cfg ⟨.write, 32, 0x018, 8⟩ = .ok (.hostWrreg (.ilen .enc) 8) := by decide

theorem witness_StepRunsTheCodeWordAtTheCursor :
    ∀ s ∈ [dScan, dKnown, dFirst], (s.withScript [.turn .dec]).script = .turn .dec :: [] ∧
      (((s.dec.phase = .scan ∨ s.dec.phase = .loop) ∧ s.dec.regs.ipos < s.dec.regs.ilen ∧
          s.dec.regs.ipos.toNat < s.cfg.decInMax) ∨
        (s.dec.phase = .first ∧ s.dec.regs.ilen ≠ 0 ∧ 0 < s.cfg.decInMax)) := by decide

/-- One state for each clause, in the order of the statement. -/
theorem witness_EncTurnIsTheSelectedRow :
    (∀ s ∈ [eScan, eScanEnd, eHit, eMiss, eFull, eEoi, eFlush], (s.withScript [.turn .enc]).script = .turn .enc :: [] ∧
      s.enc.regs.ilen.toNat ≤ s.cfg.encInMax) ∧
    (eScan.enc.phase = .scan ∧ eScan.enc.regs.ipos < eScan.enc.regs.ilen) ∧
    (eScanEnd.enc.phase = .scan ∧ eScanEnd.enc.regs.ipos = eScanEnd.enc.regs.ilen) ∧
    (eHit.enc.phase = .matching ∧ eHit.enc.regs.ipos < eHit.enc.regs.ilen ∧
      eHit.enc.dict.findP (eHit.enc.p ++ [eHit.enc.inByte eHit.resets eHit.enc.regs.ipos.toNat]) ≠ none) ∧
    (eMiss.enc.phase = .matching ∧ eMiss.enc.regs.ipos < eMiss.enc.regs.ilen ∧
      eMiss.enc.dict.findP (eMiss.enc.p ++ [eMiss.enc.inByte eMiss.resets eMiss.enc.regs.ipos.toNat]) = none ∧
      eMiss.enc.dict.nent < 4096) ∧
    (eFull.enc.phase = .matching ∧ eFull.enc.regs.ipos < eFull.enc.regs.ilen ∧
      eFull.enc.dict.findP (eFull.enc.p ++ [eFull.enc.inByte eFull.resets eFull.enc.regs.ipos.toNat]) = none ∧
      eFull.enc.dict.nent = 4096) ∧
    (eEoi.enc.phase = .matching ∧ eEoi.enc.regs.ipos = eEoi.enc.regs.ilen) ∧ eFlush.enc.phase = .flush := by
  refine ⟨by decide, by decide, by decide, ⟨rfl, by decide, wide_hit⟩,
    ⟨rfl, by decide, wide_findP_none (q := [97, 98]) (by decide) (by decide), by show (wide 0).nent < _; rw [wide_nent]; decide⟩,
    ⟨rfl, by decide, wide_findP_none (q := [97, 98]) (by decide) (by decide), wide_nent 3840⟩, by decide, rfl⟩

/-- One state for each clause, in the order of the statement. -/
theorem witness_DecTurnIsTheSelectedRow :
    (∀ s ∈ [dScan, dScanEnd, dFirst, dBadFirst, dBadFirstEmpty, dEnd, dFull, dOvf, dKnown, dKwkwk],
      (s.withScript [.turn .dec]).script = .turn .dec :: [] ∧ s.dec.regs.ilen.toNat ≤ s.cfg.decInMax) ∧
    (dScan.dec.phase = .scan ∧ dScan.dec.regs.ipos < dScan.dec.regs.ilen) ∧
    (dScanEnd.dec.phase = .scan ∧ dScanEnd.dec.regs.ipos = dScanEnd.dec.regs.ilen) ∧
    (dFirst.dec.phase = .first ∧ dFirst.dec.regs.ilen ≠ 0 ∧ dFirst.dec.dict.findC (dFirst.dec.inCode dFirst.resets 0) ≠ none) ∧
    (dBadFirstEmpty.dec.phase = .first ∧ dBadFirstEmpty.dec.regs.ilen = 0) ∧
    (dBadFirst.dec.phase = .first ∧ dBadFirst.dec.dict.findC (dBadFirst.dec.inCode dBadFirst.resets 0) = none) ∧
    (dEnd.dec.phase = .loop ∧ dEnd.dec.regs.ipos = dEnd.dec.regs.ilen) ∧
    (dFull.dec.phase = .loop ∧ dFull.dec.regs.ipos < dFull.dec.regs.ilen ∧ dFull.dec.dict.nent = 4096) ∧
    (dOvf.dec.phase = .loop ∧ dOvf.dec.regs.ipos < dOvf.dec.regs.ilen ∧ dOvf.dec.dict.nent < 4096 ∧
      dOvf.cfg.decOutMax < dOvf.dec.regs.opos.toNat + dOvf.dec.nextLen (dOvf.dec.inCode dOvf.resets dOvf.dec.regs.ipos.toNat)) ∧
    (dKnown.dec.phase = .loop ∧ dKnown.dec.regs.ipos < dKnown.dec.regs.ilen ∧ dKnown.dec.dict.nent < 4096 ∧
      dKnown.dec.regs.opos.toNat + dKnown.dec.nextLen (dKnown.dec.inCode dKnown.resets dKnown.dec.regs.ipos.toNat) ≤
        dKnown.cfg.decOutMax ∧
      dKnown.dec.dict.findC (dKnown.dec.inCode dKnown.resets dKnown.dec.regs.ipos.toNat) ≠ none) ∧
    (dKwkwk.dec.phase = .loop ∧ dKwkwk.dec.regs.ipos < dKwkwk.dec.regs.ilen ∧ dKwkwk.dec.dict.nent < 4096 ∧
      dKwkwk.dec.regs.opos.toNat + dKwkwk.dec.nextLen (dKwkwk.dec.inCode dKwkwk.resets dKwkwk.dec.regs.ipos.toNat) ≤
        dKwkwk.cfg.decOutMax ∧
      dKwkwk.dec.dict.findC (dKwkwk.dec.inCode dKwkwk.resets dKwkwk.dec.regs.ipos.toNat) = none) := by
  have hn : (wide 0).nent < 4096 := by rw [wide_nent]; decide
  refine ⟨by decide, by decide, by decide, ⟨rfl, by decide, ?_⟩, by decide, ⟨rfl, dBadFirst_findC⟩, by decide,
    ⟨rfl, by decide, wide_nent 3840⟩, ⟨rfl, by decide, hn, ?_⟩, ⟨rfl, by decide, hn, ?_, ?_⟩,
    ⟨rfl, by decide, hn, ?_, dKwkwk_findC⟩⟩
  · rw [show dFirst.dec.dict.findC (dFirst.dec.inCode dFirst.resets 0) = some [97] from wide_findC (by decide) 97]; simp
  · have : dOvf.dec.nextLen (dOvf.dec.inCode dOvf.resets dOvf.dec.regs.ipos.toNat) = 1 := by
      rw [DecState.nextLen, show dOvf.dec = dKnown.dec from rfl, show dOvf.resets = dKnown.resets from rfl, dKnown_findC]; rfl
    rw [this]; decide
  · rw [DecState.nextLen, dKnown_findC]; decide
  · rw [dKnown_findC]; simp
  · rw [DecState.nextLen, dKwkwk_findC]; decide

theorem witness_IdleEnginesWait :
    ((State.reset.withScript [.turn .enc]).script = .turn .enc :: [] ∧ State.reset.enc.phase = .idle) ∧
    ((State.reset.withScript [.turn .dec]).script = .turn .dec :: [] ∧ State.reset.dec.phase = .idle) ∧
    (State.reset.script = [] ∧ State.reset.cycle = [] ∧ State.reset.enc.phase = .idle ∧ State.reset.dec.phase = .idle) ∧
    ((State.reset.withCycle [.host ⟨.read, 32, 0x014, 0⟩]).script = [] ∧
      (State.reset.withCycle [.host ⟨.read, 32, 0x014, 0⟩]).cycle ≠ []) := by decide

/-! ### Witnesses: host operations and START -/

theorem witness_StatusWordFields : Inv eScan ∧ eScan.stateNum .enc ≠ 0 ∧ Inv dScan ∧ dScan.stateNum .dec ≠ 0 :=
  ⟨eScan_inv, by decide, dScan_inv, by decide⟩

theorem witness_WriteRegisterEffect :
    State.reset.enc.phase = .idle ∧ State.reset.dec.phase = .idle ∧ (1 : Word).getLsbD 0 = true ∧
    (0xFFFFFFFE : Word).getLsbD 0 = false ∧ eScan.stateNum .enc ≠ 0 ∧ dScan.stateNum .dec ≠ 0 := by decide

/-- Beyond the buffer; below `OCNT`; at `OCNT`. -/
theorem witness_ReadBufferReturnsTheElement :
    Space.count State.reset.cfg .encObuf ≤ 4096 ∧
    (let s := State.reset.withEnc { EncState.reset with regs := CallRegs.finished .zero 4, obuf := stored [97, 256, 257, 256] }
     3 < Space.count s.cfg .encObuf ∧ 3 < s.enc.regs.ocnt.toNat ∧ s.enc.obuf.get? 3 = some 256 ∧
     4 < Space.count s.cfg .encObuf ∧ s.enc.regs.ocnt.toNat ≤ 4) ∧
    (let s := State.reset.withDec { DecState.reset with regs := CallRegs.finished .zero 1, obuf := stored [97] }
     0 < Space.count s.cfg .decObuf ∧ 0 < s.dec.regs.ocnt.toNat ∧ s.dec.obuf.get? 0 = some 97 ∧
     1 < Space.count s.cfg .decObuf ∧ s.dec.regs.ocnt.toNat ≤ 1) := by decide

theorem witness_WriteBufferStoresOneElement :
    (65535 < State.reset.cfg.encInMax ∧ State.reset.enc.phase = .idle) ∧ (4095 < State.reset.cfg.decInMax ∧ State.reset.dec.phase = .idle) ∧
    (65535 < eScan.cfg.encInMax ∧ eScan.enc.phase ≠ .idle) ∧ (4095 < dScan.cfg.decInMax ∧ dScan.dec.phase ≠ .idle) ∧
    Space.count State.reset.cfg .encIbuf ≤ 65536 := by decide

theorem witness_BusyEngineIgnoresTheHost :
    (Inv (eScan.withScript [.host ⟨.write, 32, 0x018, 5⟩]) ∧
      (eScan.withScript [.host ⟨.write, 32, 0x018, 5⟩]).script = .host ⟨.write, 32, 0x018, 5⟩ :: [] ∧
      (∃ t, step (eScan.withScript [.host ⟨.write, 32, 0x018, 5⟩]) = .next t) ∧ eScan.enc.phase ≠ .idle) ∧
    (Inv (dScan.withScript [.host ⟨.write, 32, 0x030, 1⟩]) ∧
      (dScan.withScript [.host ⟨.write, 32, 0x030, 1⟩]).script = .host ⟨.write, 32, 0x030, 1⟩ :: [] ∧
      (∃ t, step (dScan.withScript [.host ⟨.write, 32, 0x030, 1⟩]) = .next t) ∧ dScan.dec.phase ≠ .idle) :=
  ⟨⟨script_inv eScan_inv _, rfl, host_step _ _, nofun⟩, script_inv dScan_inv _, rfl, host_step _ _, nofun⟩

theorem witness_ReadsAreFreeOfSideEffects :
    (⟨.read, 8, 0x1000000, 0⟩ : BusAccess).kind = .read ∧
    decodeBus State.reset.cfg ⟨.read, 8, 0x1000000, 0⟩ = .ok (.hostRdbuf .encIbuf 0) ∧
    State.reset.specifiedElem .encIbuf 0 ≠ none := by
  refine ⟨rfl, by decide, nofun⟩

theorem witness_EncStartBeginsACall :
    eScan.enc.phase ≠ .idle ∧ (State.reset.enc.phase = .idle ∧ State.reset.enc.regs.ilen.toNat ≤ State.reset.cfg.encInMax) ∧
    ((State.reset.writeIlen .enc 65537).enc.phase = .idle ∧
      (State.reset.writeIlen .enc 65537).cfg.encInMax < (State.reset.writeIlen .enc 65537).enc.regs.ilen.toNat) := by decide

theorem witness_DecStartBeginsACall :
    dScan.dec.phase ≠ .idle ∧ (State.reset.dec.phase = .idle ∧ State.reset.dec.regs.ilen.toNat ≤ State.reset.cfg.decInMax) ∧
    ((State.reset.writeIlen .dec 4097).dec.phase = .idle ∧
      (State.reset.writeIlen .dec 4097).cfg.decInMax < (State.reset.writeIlen .dec 4097).dec.regs.ilen.toNat) := by decide

/-! ### Witnesses: dictionary operations and engine steps -/

/-- R123, 95_test_vectors.md T22: any pattern into a full table fails, and the error entry clears the table. -/
theorem test_dict_insert_full :
    (nextOf (exec (.dictInsert .enc (List.replicate 5000 0)) (State.reset.setDict .enc (wide 3840)))).map
        (fun t => (t.dictRet, t.enc.regs.errcode, t.enc.dict.ent)) = some (.failed, .capacity, []) := by
  have hf : (wide 3840).full = true := Dict.full_eq_true.2 (Nat.le_of_eq (wide_nent 3840).symm)
  have : (wide 3840).insert (List.replicate 5000 0) = none := if_pos hf
  rw [exec_dictInsert, execDictInsert, show (State.reset.setDict .enc (wide 3840)).dictOf .enc = wide 3840 from rfl, this]
  rfl

theorem witness_DictInsertAppendsOneEntry :
    ((State.reset.setDict .enc (wide 3839)).dictOf .enc).nent < 4096 ∧
    ((State.reset.setDict .dec (wide 3840)).dictOf .dec).nent = 4096 ∧
    1 ≤ ([97] : Pattern).length ∧ 2 ≤ (List.replicate 4097 (0 : Byte)).length ∧ ([] : Pattern).length = 0 := by
  refine ⟨?_, wide_nent 3840, by decide, by rw [List.length_replicate]; decide, rfl⟩
  show (wide 3839).nent < 4096
  rw [wide_nent]; decide

/-- The same two entries held in the other order. -/
theorem witness_DictFindpIsExactMatch :
    ((State.reset.setDict .enc dictAB).dictOf .enc).patterns.Nodup ∧
    (State.reset.setDict .enc ⟨dictAB.ent.reverse, 256⟩ ≠ State.reset.setDict .enc dictAB) ∧
    ∀ e, e ∈ ((State.reset.setDict .enc ⟨dictAB.ent.reverse, 256⟩).dictOf .enc).ent ↔
      e ∈ ((State.reset.setDict .enc dictAB).dictOf .enc).ent := by
  refine ⟨by decide, by decide, fun e => ?_⟩
  exact List.mem_reverse

theorem dictAB_inv : DictInv dictAB :=
  ⟨by decide, by decide, by decide, by decide, by decide, by decide, by decide⟩

/-- The last clause, on the same entries held in the other order. -/
theorem witness_DictFindcIsExactMatch_order :
    DictInv ((State.reset.setDict .enc dictAB).dictOf .enc) ∧
    ∀ e, e ∈ ((State.reset.setDict .enc ⟨dictAB.ent.reverse, 256⟩).dictOf .enc).ent ↔
      e ∈ ((State.reset.setDict .enc dictAB).dictOf .enc).ent :=
  ⟨dictAB_inv, witness_DictFindpIsExactMatch.2.2⟩

theorem witness_DictFindcIsExactMatch :
    DictInv ((State.reset.setDict .enc (wide 1)).dictOf .enc) ∧ 256 ≤ (256 : Code).toNat ∧
    (⟨256, [97, 97]⟩ : Entry) ∈ ((State.reset.setDict .enc (wide 1)).dictOf .enc).ent := by
  refine ⟨wide_inv (by decide), by decide, List.mem_append_right _ (List.mem_singleton.2 ?_)⟩
  rw [show (wide 0).next = 256 from lits_next 256]

/-- A byte whose code is there, and one whose code is not. -/
theorem witness_EncScanInsertsNewLiterals :
    (eScan.enc.phase = .scan ∧ eScan.enc.regs.ipos < eScan.enc.regs.ilen ∧ eScan.enc.regs.ipos.toNat < eScan.cfg.encInMax ∧
      ∃ e ∈ eScan.enc.dict.ent, e.code = (eScan.enc.inByte eScan.resets eScan.enc.regs.ipos.toNat).zeroExtend 16) ∧
    (let s := encAt .scan [97] 0 0 [] .empty
     s.enc.phase = .scan ∧ s.enc.regs.ipos < s.enc.regs.ilen ∧ s.enc.regs.ipos.toNat < s.cfg.encInMax ∧
      (∀ e ∈ s.enc.dict.ent, e.code ≠ (s.enc.inByte s.resets s.enc.regs.ipos.toNat).zeroExtend 16) ∧ s.enc.dict.nent < 4096) := by
  refine ⟨⟨rfl, by decide, by decide, ?_⟩, by decide⟩
  exact List.mem_map.1 (wide_lit (n := 0) 97)

theorem witness_EncPhaseChanges :
    (eScanEnd.enc.phase = .scan ∧ eScanEnd.enc.regs.ipos = eScanEnd.enc.regs.ilen) ∧
    (eEoi.enc.phase = .matching ∧ eEoi.enc.regs.ipos = eEoi.enc.regs.ilen) := by decide

theorem witness_EncHitExtendsThePattern :
    eHit.enc.phase = .matching ∧ eHit.enc.regs.ipos < eHit.enc.regs.ilen ∧ eHit.enc.regs.ipos.toNat < eHit.cfg.encInMax ∧
    eHit.enc.dict.findP (eHit.enc.p ++ [eHit.enc.inByte eHit.resets eHit.enc.regs.ipos.toNat]) ≠ none :=
  ⟨rfl, by decide, by decide, wide_hit⟩

theorem witness_EncMissLearnsAndEmits :
    Inv eMiss ∧ eMiss.enc.phase = .matching ∧ eMiss.enc.regs.ipos < eMiss.enc.regs.ilen ∧
    eMiss.enc.dict.findP (eMiss.enc.p ++ [eMiss.enc.inByte eMiss.resets eMiss.enc.regs.ipos.toNat]) = none ∧
    eMiss.enc.dict.nent < 4096 :=
  ⟨eMiss_inv, rfl, by decide, wide_findP_none (q := [97, 98]) (by decide) (by decide),
    by show (wide 0).nent < _; rw [wide_nent]; decide⟩

theorem witness_EncFlushFinishesTheCall :
    (Inv eFlush ∧ eFlush.enc.phase = .flush ∧ eFlush.enc.p ≠ []) ∧
    (Inv eFlushEmpty ∧ eFlushEmpty.enc.phase = .flush ∧ eFlushEmpty.enc.p = []) :=
  ⟨⟨eFlush_inv, rfl, nofun⟩, eFlushEmpty_inv, rfl, rfl⟩

/-- A literal that is there, a code of 256, and a literal that is not there. -/
theorem witness_DecScanInsertsNewLiterals :
    (dScan.dec.phase = .scan ∧ dScan.dec.regs.ipos < dScan.dec.regs.ilen ∧ dScan.dec.regs.ipos.toNat < dScan.cfg.decInMax ∧
      ∃ e ∈ dScan.dec.dict.ent, e.code = dScan.dec.inCode dScan.resets dScan.dec.regs.ipos.toNat) ∧
    (let s := decAt .scan [256] 0 [] [] .empty
     s.dec.phase = .scan ∧ s.dec.regs.ipos < s.dec.regs.ilen ∧ s.dec.regs.ipos.toNat < s.cfg.decInMax ∧
      255 < (s.dec.inCode s.resets s.dec.regs.ipos.toNat).toNat) ∧
    (let s := decAt .scan [255] 0 [] [] .empty
     s.dec.phase = .scan ∧ s.dec.regs.ipos < s.dec.regs.ilen ∧ s.dec.regs.ipos.toNat < s.cfg.decInMax ∧
      (s.dec.inCode s.resets s.dec.regs.ipos.toNat).toNat ≤ 255 ∧
      (∀ e ∈ s.dec.dict.ent, e.code ≠ s.dec.inCode s.resets s.dec.regs.ipos.toNat) ∧ s.dec.dict.nent < 4096) := by
  refine ⟨⟨rfl, by decide, by decide, ?_⟩, by decide, by decide⟩
  exact List.mem_map.1 (wide_lit (n := 0) 97)

theorem witness_DecFirstResolvesTheFirstCode :
    Inv dFirst ∧ dFirst.dec.phase = .first ∧ dFirst.dec.regs.ilen ≠ 0 ∧
    dFirst.dec.dict.findC (dFirst.dec.inCode dFirst.resets 0) ≠ none := by
  refine ⟨dFirst_inv, rfl, by decide, ?_⟩
  rw [show dFirst.dec.dict.findC (dFirst.dec.inCode dFirst.resets 0) = some [97] from wide_findC (by decide) 97]; simp

theorem witness_DecBadFirstIsMalformed :
    (Inv dBadFirst ∧ dBadFirst.dec.phase = .first ∧ dBadFirst.dec.dict.findC (dBadFirst.dec.inCode dBadFirst.resets 0) = none) ∧
    (Inv dBadFirstEmpty ∧ dBadFirstEmpty.dec.phase = .first ∧ dBadFirstEmpty.dec.regs.ilen = 0) :=
  ⟨⟨dBadFirst_inv, rfl, dBadFirst_findC⟩, dBadFirstEmpty_inv, rfl, rfl⟩

theorem witness_DecKnownAppendsTheFoundPattern :
    Inv dKnown ∧ dKnown.dec.phase = .loop ∧ dKnown.dec.regs.ipos < dKnown.dec.regs.ilen ∧
    dKnown.dec.dict.findC (dKnown.dec.inCode dKnown.resets dKnown.dec.regs.ipos.toNat) = some (97 :: []) ∧
    dKnown.dec.dict.nent < 4096 ∧ dKnown.dec.regs.opos.toNat + ([97] : Pattern).length ≤ dKnown.cfg.decOutMax :=
  ⟨dKnown_inv, rfl, by decide, dKnown_findC, by show (wide 0).nent < _; rw [wide_nent]; decide, by decide⟩

theorem witness_DecKwkwkExtendsLast :
    Inv dKwkwk ∧ dKwkwk.dec.phase = .loop ∧ dKwkwk.dec.regs.ipos < dKwkwk.dec.regs.ilen ∧
    dKwkwk.dec.dict.findC (dKwkwk.dec.inCode dKwkwk.resets dKwkwk.dec.regs.ipos.toNat) = none ∧
    dKwkwk.dec.dict.nent < 4096 ∧ dKwkwk.dec.last = 97 :: [] ∧
    dKwkwk.dec.regs.opos.toNat + dKwkwk.dec.last.length + 1 ≤ dKwkwk.cfg.decOutMax :=
  ⟨dKwkwk_inv, rfl, by decide, dKwkwk_findC, by show (wide 0).nent < _; rw [wide_nent]; decide, rfl, by decide⟩

theorem witness_DecPhaseChanges :
    (dScanEnd.dec.phase = .scan ∧ dScanEnd.dec.regs.ipos = dScanEnd.dec.regs.ilen) ∧
    (dEnd.dec.phase = .loop ∧ dEnd.dec.regs.ipos = dEnd.dec.regs.ilen) := by decide

/-- DEC just started, its dictionary empty. -/
def dStarted : State := (decIdle 65536 [97] []).start .dec

theorem dStarted_inv : Inv dStarted :=
  have h := decIdle_inv (B := 65536) (cs := [97]) (by decide) rfl []
  ⟨h.config, h.enc, h.dec.start⟩

/-- A `LIT` and a `REF` in each phase: a new literal, a known literal and a reference in SCAN; resolved and malformed in FIRST; full,
too long, known and unknown in LOOP. -/
theorem witness_CodeWordIsConsumed :
    (∀ b : Byte, (∃ b' : Byte, Instr.lit b = .lit b' ∧ b.zeroExtend 16 = b'.zeroExtend 16)) ∧ 256 ≤ (256 : Code).toNat ∧
    (Inv dStarted ∧ dStarted.dec.consumesCode = true ∧ dStarted.dec.phase = .scan ∧ (255 : Code).toNat ≤ 255 ∧
      (∀ e ∈ dStarted.dec.dict.ent, e.code ≠ 255)) ∧
    (Inv dScan ∧ dScan.dec.consumesCode = true ∧ dScan.dec.phase = .scan ∧ ∃ e ∈ dScan.dec.dict.ent, e.code = 97) ∧
    (Inv dFirst ∧ dFirst.dec.consumesCode = true ∧ dFirst.dec.phase = .first ∧ dFirst.dec.dict.findC 256 = none ∧
      dFirst.dec.dict.findC 97 ≠ none) ∧
    (Inv dFull ∧ dFull.dec.consumesCode = true ∧ dFull.dec.phase = .loop ∧ dFull.dec.dict.nent = 4096) ∧
    (Inv dOvf ∧ dOvf.dec.consumesCode = true ∧ dOvf.dec.phase = .loop ∧ dOvf.dec.dict.nent < 4096 ∧
      dOvf.cfg.decOutMax < dOvf.dec.regs.opos.toNat + (decodeNext dOvf.dec.dict dOvf.dec.last 256).1.length) ∧
    (Inv dKwkwk ∧ dKwkwk.dec.consumesCode = true ∧ dKwkwk.dec.phase = .loop ∧ dKwkwk.dec.dict.nent < 4096 ∧
      dKwkwk.dec.regs.opos.toNat + (decodeNext dKwkwk.dec.dict dKwkwk.dec.last 256).1.length ≤ dKwkwk.cfg.decOutMax) := by
  have hn : (wide 0).nent < 4096 := by rw [wide_nent]; decide
  have hx : (decodeNext (wide 0) [97] 256).1 = [97, 97] := by
    rw [decodeNext, wide_findC_none (k := 256) (by decide) (by decide)]; rfl
  refine ⟨fun b => ⟨b, rfl, rfl⟩, by decide, ⟨dStarted_inv, by decide, by decide, by decide, by decide⟩,
    ⟨dScan_inv, by decide, rfl, List.mem_map.1 (wide_lit (n := 0) 97)⟩,
    ⟨dFirst_inv, by decide, rfl, wide_findC_none (k := 256) (by decide) (by decide), ?_⟩,
    ⟨dFull_inv, by decide, rfl, wide_nent 3840⟩, ⟨dOvf_inv, by decide, rfl, hn, ?_⟩, ⟨dKwkwk_inv, by decide, rfl, hn, ?_⟩⟩
  · rw [show dFirst.dec.dict.findC 97 = some [97] from wide_findC (n := 0) (by decide) 97]; simp
  · rw [show (decodeNext dOvf.dec.dict dOvf.dec.last 256).1 = [97, 97] from hx]; decide
  · rw [show (decodeNext dKwkwk.dec.dict dKwkwk.dec.last 256).1 = [97, 97] from hx]; decide

theorem witness_FailingStepsTakeTheErrorEntry :
    (eFull.enc.phase = .matching ∧ eFull.enc.regs.ipos < eFull.enc.regs.ilen ∧ eFull.enc.regs.ipos.toNat < eFull.cfg.encInMax ∧
      eFull.enc.dict.findP (eFull.enc.p ++ [eFull.enc.inByte eFull.resets eFull.enc.regs.ipos.toNat]) = none ∧
      eFull.enc.dict.nent = 4096) ∧
    (dFull.dec.phase = .loop ∧ dFull.dec.regs.ipos < dFull.dec.regs.ilen ∧ dFull.dec.dict.nent = 4096) ∧
    (dOvf.dec.phase = .loop ∧ dOvf.dec.regs.ipos < dOvf.dec.regs.ilen ∧ dOvf.dec.regs.ipos.toNat < dOvf.cfg.decInMax ∧
      dOvf.dec.dict.nent < 4096 ∧
      dOvf.cfg.decOutMax < dOvf.dec.regs.opos.toNat + dOvf.dec.nextLen (dOvf.dec.inCode dOvf.resets dOvf.dec.regs.ipos.toNat)) := by
  have h := witness_DecTurnIsTheSelectedRow
  have h' := h.2.2.2.2.2.2.2.2.1
  exact ⟨⟨rfl, by decide, by decide, wide_findP_none (q := [97, 98]) (by decide) (by decide), wide_nent 3840⟩,
    h.2.2.2.2.2.2.2.1, h'.1, h'.2.1, by decide, h'.2.2⟩

/-- Idle engines, for which no row holds, DEC with its cursor inside its buffer and at the buffer's end; then, row by row, a busy
state the row does not select, where its neighbour is selected. -/
theorem witness_UnselectedStepStops :
    (State.reset.enc.phase = .idle ∧ Instr.encHit.format = .encFsm) ∧
    (State.reset.dec.phase = .idle ∧ Instr.decKnown.format = .decFsm ∧ (Instr.ref 256).format = .code16 ∧
      State.reset.dec.regs.ipos.toNat < State.reset.cfg.decInMax) ∧
    ((decAt .idle [] 4096 [] [] .empty).dec.phase = .idle ∧
      ¬ (decAt .idle [] 4096 [] [] .empty).dec.regs.ipos.toNat < (decAt .idle [] 4096 [] [] .empty).cfg.decInMax) ∧
    ¬ (eScanEnd.enc.phase = .scan ∧ eScanEnd.enc.regs.ipos < eScanEnd.enc.regs.ilen) ∧
    ¬ (eMiss.enc.phase = .scan ∧ eMiss.enc.regs.ipos = eMiss.enc.regs.ilen) ∧
    ¬ (eMiss.enc.phase = .matching ∧ eMiss.enc.regs.ipos < eMiss.enc.regs.ilen ∧
      eMiss.enc.dict.findP (eMiss.enc.p ++ [eMiss.enc.inByte eMiss.resets eMiss.enc.regs.ipos.toNat]) ≠ none) ∧
    ¬ (eFull.enc.phase = .matching ∧ eFull.enc.regs.ipos < eFull.enc.regs.ilen ∧
      eFull.enc.dict.findP (eFull.enc.p ++ [eFull.enc.inByte eFull.resets eFull.enc.regs.ipos.toNat]) = none ∧
      eFull.enc.dict.nent < 4096) ∧
    ¬ (eMiss.enc.phase = .matching ∧ eMiss.enc.regs.ipos < eMiss.enc.regs.ilen ∧
      eMiss.enc.dict.findP (eMiss.enc.p ++ [eMiss.enc.inByte eMiss.resets eMiss.enc.regs.ipos.toNat]) = none ∧
      4096 ≤ eMiss.enc.dict.nent) ∧
    ¬ (eMiss.enc.phase = .matching ∧ eMiss.enc.regs.ipos = eMiss.enc.regs.ilen) ∧ eEoi.enc.phase ≠ .flush ∧
    ¬ (dScanEnd.dec.phase = .scan ∧ dScanEnd.dec.regs.ipos < dScanEnd.dec.regs.ilen) ∧
    ¬ (dFirst.dec.phase = .scan ∧ dFirst.dec.regs.ipos = dFirst.dec.regs.ilen) ∧
    ¬ (dBadFirst.dec.phase = .first ∧ dBadFirst.dec.regs.ilen ≠ 0 ∧
      dBadFirst.dec.dict.findC (dBadFirst.dec.inCode dBadFirst.resets 0) ≠ none) ∧
    ¬ (dFirst.dec.phase = .first ∧ (dFirst.dec.regs.ilen = 0 ∨
      dFirst.dec.dict.findC (dFirst.dec.inCode dFirst.resets 0) = none)) ∧
    dKwkwk.dec.dict.findC (dKwkwk.dec.inCode dKwkwk.resets dKwkwk.dec.regs.ipos.toNat) = none ∧
    dKnown.dec.dict.findC (dKnown.dec.inCode dKnown.resets dKnown.dec.regs.ipos.toNat) ≠ none ∧
    ¬ (4096 ≤ dKnown.dec.dict.nent) ∧ ¬ (dFull.dec.dict.nent < 4096) ∧
    ¬ (dKnown.dec.phase = .loop ∧ dKnown.dec.regs.ipos = dKnown.dec.regs.ilen) ∧
    ¬ ((dScanEnd.dec.phase = .scan ∨ dScanEnd.dec.phase = .loop) ∧ dScanEnd.dec.regs.ipos < dScanEnd.dec.regs.ilen ∨
      dScanEnd.dec.phase = .first ∧ dScanEnd.dec.regs.ilen ≠ 0) := by
  refine ⟨by decide, by decide, by decide, by decide, nofun, fun h => h.2.2 ?_, fun h => ?_, fun h => ?_, by decide, nofun,
    by decide, nofun, fun h => h.2.2 dBadFirst_findC, fun h => ?_, dKwkwk_findC, ?_, fun h => ?_, fun h => ?_, by decide, by decide⟩
  · exact wide_findP_none (q := [97, 98]) (by decide) (by decide)
  · rw [show eFull.enc.dict.nent = 4096 from wide_nent 3840] at h; exact absurd h.2.2.2 (by decide)
  · rw [show eMiss.enc.dict.nent = 256 from wide_nent 0] at h; exact absurd h.2.2.2 (by decide)
  · rw [show dFirst.dec.dict.findC (dFirst.dec.inCode dFirst.resets 0) = some [97] from wide_findC (by decide) 97] at h
    exact absurd h (by decide)
  · rw [dKnown_findC]; nofun
  · rw [show dKnown.dec.dict.nent = 256 from wide_nent 0] at h; exact absurd h (by decide)
  · rw [show dFull.dec.dict.nent = 4096 from wide_nent 3840] at h; exact absurd h (by decide)

/-! ### Witnesses: reset, invariants, whole-machine rules -/

theorem witness_ResetEventAbandonsEverything : (eMiss.withScript [.reset]).script = .reset :: [] := rfl

theorem witness_StepKeepsMemoryCanonical :
    Memory.wf (decAt .loop [97, 256] 1 [97] [97] dictA) ∧ ∃ t, step (decAt .loop [97, 256] 1 [97] [97] dictA) = .next t :=
  ⟨by decide, _, rfl⟩

theorem witness_ResetMeetsTheInvariant : Config.suggested.ok ∧ (⟨1, 1, 1, 0⟩ : Config).ok ∧ eMiss.cfg.ok := by decide

theorem witness_StepKeepsTheInvariant :
    Inv (eMiss.withScript [.host ⟨.read, 32, 0x014, 0⟩]) ∧ ∃ t, step (eMiss.withScript [.host ⟨.read, 32, 0x014, 0⟩]) = .next t :=
  ⟨script_inv eMiss_inv _, host_step _ _⟩

/-- For `NoReachableStateStops` and `DictionaryRulesHold`: busy states that meet the invariant, a full dictionary among them. -/
theorem witness_NoReachableStateStops : Inv eMiss ∧ Inv eFlush ∧ Inv dKwkwk ∧ Inv dFull := ⟨eMiss_inv, eFlush_inv, dKwkwk_inv, dFull_inv⟩

theorem witness_DictionaryRulesHold : Inv dFull ∧ ((dFull.dictOf .dec).next.toNat = 4096) := ⟨dFull_inv, wide_next (Nat.le_refl _)⟩

theorem witness_ScanNeverFillsTheDictionary :
    (Inv eScan ∧ eScan.enc.phase = .scan) ∧ (Inv dScan ∧ dScan.dec.phase = .scan) ∧ (Inv dFirst ∧ dFirst.dec.phase = .first) :=
  ⟨⟨eScan_inv, rfl⟩, ⟨dScan_inv, rfl⟩, dFirst_inv, rfl⟩

theorem witness_NoStepChangesTheParameters : ∃ t, step (State.reset.withScript [.reset]) = .next t := ⟨_, rfl⟩

theorem witness_EnginesDoNotInterfere :
    ((encAt .scan [97] 1 0 [] dictA).withScript [.turn .enc]).script = .turn .enc :: [] ∧
    (∃ t, step ((encAt .scan [97] 1 0 [] dictA).withScript [.turn .enc]) = .next t) ∧
    ((decAt .scan [97] 1 [] [] dictA).withScript [.turn .dec]).script = .turn .dec :: [] ∧
    (∃ t, step ((decAt .scan [97] 1 [] [] dictA).withScript [.turn .dec]) = .next t) := ⟨rfl, ⟨_, rfl⟩, rfl, _, rfl⟩

theorem witness_EngineTurnsCommute : Inv { eMiss with dec := dKwkwk.dec } := ⟨eMiss_inv.config, eMiss_inv.enc, dKwkwk_inv.dec⟩

theorem witness_HostAccessReachesOneEngine :
    (State.reset.withScript [.host ⟨.write, 32, 0x018, 5⟩]).script = .host ⟨.write, 32, 0x018, 5⟩ :: [] ∧
    (∃ t, step (State.reset.withScript [.host ⟨.write, 32, 0x018, 5⟩]) = .next t) ∧
    (⟨.read, 32, 0x018, 0⟩ : BusAccess).kind = .read := ⟨rfl, host_step _ _, rfl⟩

theorem witness_ResultLivesUntilTheNextStart :
    (State.reset.withScript [.host ⟨.write, 32, 0x018, 5⟩]).script = .host ⟨.write, 32, 0x018, 5⟩ :: [] ∧
    (.host ⟨.write, 32, 0x018, 5⟩ : Event) ≠ .reset ∧ (∃ t, step (State.reset.withScript [.host ⟨.write, 32, 0x018, 5⟩]) = .next t) ∧
    State.reset.enc.phase = .idle ∧ (Event.host ⟨.write, 32, 0x018, 5⟩).startsEnc State.reset.cfg = false ∧
    State.reset.dec.phase = .idle ∧ (Event.host ⟨.write, 32, 0x018, 5⟩).startsDec State.reset.cfg = false :=
  ⟨rfl, nofun, host_step _ _, rfl, by decide, rfl, by decide⟩

theorem witness_InputIsFixedDuringACall :
    (eScan.withScript [.turn .dec]).script = .turn .dec :: [] ∧ (.turn .dec : Event) ≠ .reset ∧
    (∃ t, step (eScan.withScript [.turn .dec]) = .next t) ∧ eScan.enc.phase ≠ .idle ∧
    (dScan.withScript [.turn .enc]).script = .turn .enc :: [] ∧ (∃ t, step (dScan.withScript [.turn .enc]) = .next t) ∧
    dScan.dec.phase ≠ .idle := ⟨rfl, nofun, ⟨_, rfl⟩, nofun, rfl, ⟨_, rfl⟩, nofun⟩

theorem witness_ErrorLeavesNoOutput :
    (Inv (eMiss.withEnc (eMiss.enc.fail .capacity 1)) ∧ (eMiss.enc.fail .capacity 1).regs.err = true) ∧
    (Inv (dOvf.withDec (dOvf.dec.fail .overflow 1)) ∧ (dOvf.dec.fail .overflow 1).regs.err = true) :=
  ⟨⟨⟨eMiss_inv.config, eMiss_inv.enc.fail 1, eMiss_inv.dec⟩, rfl⟩,
    ⟨dOvf_inv.config, dOvf_inv.enc, dOvf_inv.dec.fail (code := .overflow) (by decide) 1⟩, rfl⟩

/-! ### Witnesses: calls -/

/-- `encode` on `m` misses into a run of bytes 97: the literal and the patterns of 2 to `m + 1` bytes. -/
def runDict : Nat → Dict
  | 0 => dictA
  | m + 1 => { ent := (runDict m).ent ++ [⟨(runDict m).next, List.replicate (m + 2) 97⟩], next := (runDict m).next + 1 }

theorem runDict_length (m : Nat) : (runDict m).ent.length = m + 1 := by
  induction m with
  | zero => rfl
  | succ m ih => simp only [runDict, List.length_append, ih, List.length_singleton]

theorem runDict_findP (m k : Nat) : ((runDict m).findP (List.replicate (k + 1) 97)).isSome = decide (k ≤ m) := by
  have hmem : List.replicate (k + 1) (97 : Byte) ∈ (runDict m).patterns ↔ k ≤ m := by
    induction m with
    | zero =>
      have : (runDict 0).patterns = [List.replicate 1 97] := rfl
      rw [this, List.mem_singleton]
      constructor
      · intro h; have := congrArg List.length h; simp only [List.length_replicate] at this; omega
      · intro h; rw [show k = 0 by omega]
    | succ m ih =>
      have : (runDict (m + 1)).patterns = (runDict m).patterns ++ [List.replicate (m + 2) 97] := by
        simp only [Dict.patterns, runDict, List.map_append, List.map_cons, List.map_nil]
      rw [this, List.mem_append, ih, List.mem_singleton]
      constructor
      · rintro (h | h)
        · omega
        · have := congrArg List.length h; simp only [List.length_replicate] at this; omega
      · intro h
        by_cases hk : k ≤ m
        · exact .inl hk
        · rw [show k = m + 1 by omega]; exact .inr rfl
  by_cases h : k ≤ m
  · rw [Dict.isSome_findP.2 (hmem.2 h), decide_eq_true h]
  · rw [decide_eq_false h, Bool.eq_false_iff, ne_eq, Dict.isSome_findP, hmem]; exact h

/-- R145 example, 95_test_vectors.md V31: from any point of a run of bytes 97 long enough, `encode` fails with CAPACITY at index
8390656. -/
theorem encodeLoop_run (n : Nat) : ∀ (m k i : Nat) (out : List Code), m ≤ 4095 → k ≤ m + 1 → (k = 0 → m = 0) →
    2 * i = m * (m + 1) + 2 * k → 8390657 ≤ i + n →
    encodeLoop (runDict m) (List.replicate k 97) i out (List.replicate n 97) = .error (.capacity, 8390656) := by
  induction n with
  | zero =>
    intro m k i out hm hk _ hi hn
    exfalso
    have : m * (m + 1) ≤ 4095 * 4096 := Nat.mul_le_mul hm (by omega)
    omega
  | succ n ih =>
    intro m k i out hm hk hk0 hi hn
    have happ : List.replicate k (97 : Byte) ++ [97] = List.replicate (k + 1) 97 := List.replicate_succ'.symm
    rw [List.replicate_succ, encodeLoop, happ, runDict_findP]
    by_cases hkm : k ≤ m
    · rw [if_pos (decide_eq_true hkm)]
      exact ih m (k + 1) (i + 1) out hm (by omega) nofun (by omega) (by omega)
    · rw [if_neg (by simpa using hkm)]
      have hke : k = m + 1 := by omega
      subst hke
      by_cases hf : m = 4095
      · subst hf
        rw [if_pos (Dict.full_eq_true.2 (by rw [runDict_length]))]
        rw [show i = 8390656 by omega]
      · have hful : (runDict m).full = false := Dict.full_eq_false.2 (by rw [runDict_length]; simp only [dictCap]; omega)
        rw [if_neg (by rw [hful]; simp)]
        have hadd : (runDict m).add (List.replicate (m + 1 + 1) 97) = runDict (m + 1) := by
          rw [Dict.add, Dict.insert_multi hful (by rw [List.length_replicate]; omega)]; rfl
        rw [hadd]
        refine ih (m + 1) 1 (i + 1) _ (by omega) (by omega) nofun ?_ (by omega)
        have : (m + 1) * (m + 1 + 1) = m * (m + 1) + 2 * (m + 1) := by rw [Nat.add_mul, Nat.mul_add, Nat.mul_add]; omega
        omega

theorem encodeScan_run (n : Nat) : encodeScan dictA (List.replicate n 97) = dictA := by
  induction n with
  | zero => rfl
  | succ n ih => rw [List.replicate_succ, encodeScan, if_pos (by decide), ih]

/-- 95_test_vectors.md V31. -/
theorem encode_run_fails : lzwEncode (List.replicate 8390657 97) = .error (.capacity, 8390656) := by
  have hs : encodeScan .empty (List.replicate 8390657 97) = dictA := by
    rw [List.replicate_succ, encodeScan]; exact encodeScan_run _
  rw [lzwEncode, hs]
  exact encodeLoop_run 8390657 0 0 0 [] (by decide) (by decide) (fun _ => rfl) rfl (by decide)

/-- A buffer of `n` equal elements. -/
def filled {w : Nat} (v : BitVec w) : Nat → Nat → Buf w
  | _, 0 => []
  | i, n + 1 => (i, v) :: filled v (i + 1) n

theorem filled_get? {w : Nat} (v : BitVec w) (n : Nat) : ∀ i j, i ≤ j → j < i + n → Buf.get? (filled v i n) j = some v := by
  induction n with
  | zero => intro i j h1 h2; omega
  | succ n ih =>
    intro i j h1 h2
    rw [filled, Buf.get?]
    by_cases h : i = j
    · rw [if_pos h]
    · rw [if_neg h]; exact ih (i + 1) j (by omega) (by omega)

theorem filled_wf {w : Nat} (v : BitVec w) (N n : Nat) : ∀ lo i, lo ≤ i → i + n ≤ N → Buf.wfFrom N lo (filled v i n) = true := by
  induction n with
  | zero => intro lo i _ _; rfl
  | succ n ih =>
    intro lo i h1 h2
    rw [filled, Buf.wfFrom, ih (i + 1) (i + 1) (by omega) (by omega), decide_eq_true h1, decide_eq_true (by omega : i < N)]; rfl

/-- ENC idle with 8390657 bytes 97 as its input, and room for them. -/
def encLong (l : List Event) : State :=
  ({ State.reset with cfg := { Config.suggested with encInMax := 2 ^ 24 } }.withEnc
    { EncState.reset with regs := { CallRegs.zero with ilen := 8390657 }, ibuf := filled 97 0 8390657 }).withScript l

theorem encLong_inv (l : List Event) : Inv (encLong l) :=
  ⟨⟨(by decide : 1 ≤ 2 ^ 24 ∧ 2 ^ 24 ≤ 2 ^ 24), (by decide : 1 ≤ 4096 ∧ 4096 ≤ 2 ^ 23), (by decide : 1 ≤ 65536 ∧ 65536 ≤ 2 ^ 24),
      (by decide : 0 % 2 ^ 27 = 0)⟩,
    (EncInv.reset _ _).hostWrite rfl _ (filled_wf 97 (2 ^ 24) 8390657 0 0 (Nat.le_refl _) (by decide)), DecInv.reset _ _⟩

theorem encSchedule_turns (cfg : Config) (n : Nat) : EncSchedule cfg n (List.replicate n (.turn .enc)) :=
  ⟨List.count_replicate_self, fun ev h => by rw [List.eq_of_mem_replicate h]; exact ⟨nofun, rfl⟩⟩

/-- The input "aa", five turns of ENC with a host access and a turn of DEC among them, then the last turn. -/
theorem witness_EncodeCallReturnsTheFunction :
    let l : List Event := [.turn .enc, .host ⟨.read, 32, 0x014, 0⟩, .turn .enc, .turn .dec, .turn .enc, .turn .enc, .turn .enc, .turn .enc]
    let s := encIdle [97, 97] (.host (Sys2Proof.writeReg .suggested (.ctrl .enc) 1) :: (l ++ .turn .enc :: []))
    Inv s ∧ s.enc.phase = .idle ∧ s.EncInput [97, 97] ∧ [(97 : Byte), 97].length ≤ s.cfg.encInMax ∧
    lzwEncode [97, 97] = .ok [97, 97] ∧ (1 : Word).getLsbD 0 = true ∧ EncSchedule s.cfg (2 * [(97 : Byte), 97].length + 2) l ∧
    s.script = .host (Sys2Proof.writeReg s.cfg (.ctrl .enc) 1) :: (l ++ .turn .enc :: []) :=
  ⟨encIdle_inv rfl _, rfl, ⟨rfl, by decide⟩, by decide, by decide, rfl, ⟨by decide, by decide⟩, rfl⟩

theorem witness_EncodeCallReportsTheError :
    let bs := List.replicate 8390657 (97 : Byte)
    let l := List.replicate (8390657 + 8390656 + 1) (Event.turn .enc)
    let s := encLong (.host (Sys2Proof.writeReg { Config.suggested with encInMax := 2 ^ 24 } (.ctrl .enc) 1) :: (l ++ .turn .enc :: []))
    Inv s ∧ s.enc.phase = .idle ∧ s.EncInput bs ∧ bs.length ≤ s.cfg.encInMax ∧ lzwEncode bs = .error (.capacity, 8390656) ∧
    (1 : Word).getLsbD 0 = true ∧ EncSchedule s.cfg (bs.length + 8390656 + 1) l ∧
    s.script = .host (Sys2Proof.writeReg s.cfg (.ctrl .enc) 1) :: (l ++ .turn .enc :: []) := by
  intro bs l s
  have hlen : bs.length = 8390657 := List.length_replicate
  refine ⟨encLong_inv _, rfl, ⟨hlen.symm, fun i h => ?_⟩, by rw [hlen]; decide, encode_run_fails, rfl, ?_, rfl⟩
  · rw [hlen] at h
    show (Buf.get? (filled 97 0 8390657) i).getD _ = _
    rw [filled_get? 97 8390657 0 i (Nat.zero_le i) (by omega)]
    exact (List.getElem_replicate _).symm
  · rw [hlen]; exact encSchedule_turns _ _

/-- The stream `a <256>`, five turns of DEC with a turn of ENC among them, then the last turn. -/
theorem witness_DecodeCallReturnsTheFunction :
    let l : List Event := [.turn .dec, .turn .enc, .turn .dec, .turn .dec, .turn .dec, .turn .dec]
    let s := decIdle 65536 [97, 256] (.host (Sys2Proof.writeReg .suggested (.ctrl .dec) 1) :: (l ++ .turn .dec :: []))
    Inv s ∧ s.dec.phase = .idle ∧ s.DecInput [97, 256] ∧ [(97 : Code), 256].length ≤ s.cfg.decInMax ∧
    lzwDecode s.cfg.decOutMax [97, 256] = .ok [97, 97, 97] ∧ (1 : Word).getLsbD 0 = true ∧
    DecSchedule s.cfg (2 * [(97 : Code), 256].length + 1) l ∧
    s.script = .host (Sys2Proof.writeReg s.cfg (.ctrl .dec) 1) :: (l ++ .turn .dec :: []) :=
  ⟨decIdle_inv (by decide) rfl _, rfl, ⟨rfl, by decide⟩, by decide, by decide, rfl, ⟨by decide, by decide⟩, rfl⟩

/-- The stream `<300>`, MALFORMED, and the stream `a <256>` with room for two bytes, OVERFLOW at index 1. -/
theorem witness_DecodeCallReportsTheError :
    (let l : List Event := [.turn .dec, .turn .dec]
     let s := decIdle 65536 [300] (.host (Sys2Proof.writeReg .suggested (.ctrl .dec) 1) :: (l ++ .turn .dec :: []))
     Inv s ∧ s.dec.phase = .idle ∧ s.DecInput [300] ∧ [(300 : Code)].length ≤ s.cfg.decInMax ∧
     lzwDecode s.cfg.decOutMax [300] = .error (.malformed, 0) ∧ (1 : Word).getLsbD 0 = true ∧
     DecSchedule s.cfg ([(300 : Code)].length + 0 + 1) l ∧
     s.script = .host (Sys2Proof.writeReg s.cfg (.ctrl .dec) 1) :: (l ++ .turn .dec :: [])) ∧
    (let l : List Event := [.turn .dec, .turn .dec, .turn .dec, .turn .dec]
     let s := decIdle 2 [97, 256] (.host (Sys2Proof.writeReg .suggested (.ctrl .dec) 1) :: (l ++ .turn .dec :: []))
     Inv s ∧ s.dec.phase = .idle ∧ s.DecInput [97, 256] ∧ [(97 : Code), 256].length ≤ s.cfg.decInMax ∧
     lzwDecode s.cfg.decOutMax [97, 256] = .error (.overflow, 1) ∧ (1 : Word).getLsbD 0 = true ∧
     DecSchedule s.cfg ([(97 : Code), 256].length + 1 + 1) l ∧
     s.script = .host (Sys2Proof.writeReg s.cfg (.ctrl .dec) 1) :: (l ++ .turn .dec :: [])) :=
  ⟨⟨decIdle_inv (by decide) rfl _, rfl, ⟨rfl, by decide⟩, by decide, by decide, rfl, ⟨by decide, by decide⟩, rfl⟩,
    decIdle_inv (by decide) rfl _, rfl, ⟨rfl, by decide⟩, by decide, by decide, rfl, ⟨by decide, by decide⟩, rfl⟩

theorem witness_EveryCallEnds :
    (Inv (eScan.withScript (List.replicate 5 (.turn .enc) ++ [])) ∧
      (eScan.withScript (List.replicate 5 (.turn .enc) ++ [])).script = List.replicate 5 (.turn .enc) ++ [] ∧
      EncSchedule eScan.cfg 5 (List.replicate 5 (.turn .enc)) ∧ 2 * eScan.enc.regs.ilen.toNat + 3 ≤ 5 ∧ eScan.enc.phase ≠ .idle) ∧
    (Inv (dScan.withScript (List.replicate 4 (.turn .dec) ++ [])) ∧
      (dScan.withScript (List.replicate 4 (.turn .dec) ++ [])).script = List.replicate 4 (.turn .dec) ++ [] ∧
      DecSchedule dScan.cfg 4 (List.replicate 4 (.turn .dec)) ∧ 2 * dScan.dec.regs.ilen.toNat + 2 ≤ 4 ∧ dScan.dec.phase ≠ .idle) :=
  ⟨⟨script_inv eScan_inv _, rfl, encSchedule_turns _ _, by decide, nofun⟩,
    script_inv dScan_inv _, rfl, ⟨by decide, by decide⟩, by decide, nofun⟩

/-! A host that polls ENC for ever: after ENC's last step the run goes on for ever with a poll, a turn of DEC and a turn of ENC. -/

def poll : Event := .host ⟨.read, 32, 0x014, 0⟩
def pollEv (n : Nat) : Event := if n % 3 = 0 then .turn .enc else if n % 3 = 1 then .turn .dec else poll
def ended : State := eFlushEmpty.withEnc eFlushEmpty.enc.finish
def polled : State := ended.withReply (.reg 0x10)
def pollRun (n : Nat) : State := if n = 0 then eFlushEmpty else if n ≤ 2 then ended else polled

theorem pollRun_infinite : InfiniteRun pollEv pollRun := by
  intro n
  refine ⟨[], ?_⟩
  rw [step_cons rfl]
  by_cases h0 : n = 0
  · subst h0; rfl
  by_cases h1 : n = 1
  · subst h1; rfl
  by_cases h2 : n = 2
  · subst h2; rfl
  have hr : pollRun n = polled ∧ pollRun (n + 1) = polled := by
    constructor <;> unfold pollRun <;> rw [if_neg (by omega), if_neg (by omega)]
  rw [hr.1, hr.2]
  unfold pollEv
  split
  · rfl
  · split <;> rfl

theorem pollRun_fair : FairRun pollEv pollRun := by
  intro g n
  cases g
  · exact ⟨3 * n, by omega, .inl (if_pos (by omega))⟩
  · exact ⟨3 * n + 1, by omega, .inl ((if_neg (by omega)).trans (if_pos (by omega)))⟩

/-- Both engines busy with nothing to repeat; both busy with a host that polls for ever; a fair infinite run of such a host. -/
theorem witness_BusyEnginesRunToIdle :
    (Inv { eMiss with dec := dKwkwk.dec } ∧ { eMiss with dec := dKwkwk.dec }.script = [] ∧
      { eMiss with dec := dKwkwk.dec }.enc.phase ≠ .idle ∧ { eMiss with dec := dKwkwk.dec }.dec.phase ≠ .idle) ∧
    (eMiss.withCycle [poll]).script = [] ∧
    (∀ ev ∈ (eMiss.withCycle [poll]).cycle, ev ≠ .reset ∧ ev.startsEnc (eMiss.withCycle [poll]).cfg = false ∧
      ev.startsDec (eMiss.withCycle [poll]).cfg = false) ∧
    (InfiniteRun pollEv pollRun ∧ FairRun pollEv pollRun ∧ Inv (pollRun 0) ∧ (pollRun 0).stateNum .enc ≠ 0 ∧
      (∀ k, 0 ≤ k → pollEv k ≠ .reset ∧ (pollEv k).starts (pollRun 0).cfg .enc = false) ∧
      ∀ k, ∃ m, k ≤ m ∧ (pollEv m).polls (pollRun 0).cfg .enc = true) := by
  refine ⟨⟨⟨eMiss_inv.config, eMiss_inv.enc, dKwkwk_inv.dec⟩, rfl, nofun, nofun⟩, rfl, ?_, pollRun_infinite, pollRun_fair,
    eFlushEmpty_inv, by decide, fun k _ => ?_, fun k => ⟨3 * k + 2, by omega, ?_⟩⟩
  · intro ev hev
    rw [List.mem_singleton.1 hev]
    exact ⟨nofun, rfl, rfl⟩
  · unfold pollEv
    split
    · exact ⟨nofun, rfl⟩
    · split
      · exact ⟨nofun, rfl⟩
      · exact ⟨nofun, rfl⟩
  · rw [show pollEv (3 * k + 2) = poll from (if_neg (by omega)).trans (if_neg (by omega))]; rfl

theorem witness_RoundTrip :
    (List.replicate 8 (97 : Byte)) ≠ [] ∧ lzwEncode (List.replicate 8 97) = .ok [97, 256, 257, 256] ∧
    (List.replicate 8 (97 : Byte)).length ≤ 8 := ⟨nofun, by decide, by decide⟩

theorem witness_EncodeOutputBounds :
    lzwEncode (List.replicate 8 97) = .ok [97, 256, 257, 256] ∧ List.replicate 8 (97 : Byte) = 97 :: List.replicate 7 97 :=
  ⟨by decide, rfl⟩

end Sys2Proof.Machine.Tests
end

section
/-! The invariant of Safety.lean along a step: what each named update and each entry of the order of steps does to it. -/

namespace Sys2Proof.Machine

/-! ### Named updates -/

/-- The order of steps is no part of the invariant. -/
theorem Inv.withScript {s : State} (h : Inv s) (l : List Event) : Inv (s.withScript l) := ⟨h.config, h.enc, h.dec⟩

/-- What the host has seen is no part of the invariant. -/
theorem Inv.withReply {s : State} (h : Inv s) (r : Reply) : Inv (s.withReply r) := ⟨h.config, h.enc, h.dec⟩

theorem Inv.withFreeReads {s : State} (h : Inv s) (n : Nat) : Inv (s.withFreeReads n) := ⟨h.config, h.enc, h.dec⟩

theorem Inv.withEnc {s : State} (h : Inv s) {e : EncState} (he : EncInv s.cfg s.resets e) : Inv (s.withEnc e) :=
  ⟨h.config, he, h.dec⟩

theorem Inv.withDec {s : State} (h : Inv s) {d : DecState} (hd : DecInv s.cfg s.resets d) : Inv (s.withDec d) :=
  ⟨h.config, h.enc, hd⟩

/-- The engines in their reset state meet the invariant whatever the parameters and the number of resets. -/
theorem Inv.of_reset {s : State} (hc : s.cfg.ok) (he : s.enc = .reset) (hd : s.dec = .reset) : Inv s :=
  ⟨hc, he ▸ EncInv.reset _ _, hd ▸ DecInv.reset _ _⟩

/-! ### Host accesses -/

theorem Inv.start {s : State} (h : Inv s) : (g : Engine) → Inv (s.start g)
  | .enc => h.withEnc h.enc.start
  | .dec => h.withDec h.dec.start

theorem Inv.writeIlen {s : State} (h : Inv s) (g : Engine) (v : Word) : Inv (s.writeIlen g v) := by
  cases g with
  | enc =>
    rw [State.writeIlen]
    split
    · exact h.withEnc (h.enc.hostWrite ‹_› v h.enc.ibuf)
    · exact h
  | dec =>
    rw [State.writeIlen]
    split
    · exact h.withDec (h.dec.hostWrite ‹_› v h.dec.ibuf)
    · exact h

/-- A host write of an element its buffer has keeps the invariant (R203). -/
theorem Inv.writeElem {s : State} (h : Inv s) {S : Space} {i : Nat} (hi : i < S.count s.cfg) (v : BitVec 16) :
    Inv (s.writeElem S i v) := by
  cases S with
  | encIbuf =>
    rw [State.writeElem]
    split
    · exact h.withEnc (h.enc.hostWrite ‹_› s.enc.regs.ilen (Buf.wf_set h.enc.ibuf _ hi))
    · exact h
  | decIbuf =>
    rw [State.writeElem]
    split
    · exact h.withDec (h.dec.hostWrite ‹_› s.dec.regs.ilen (Buf.wf_set h.dec.ibuf _ hi))
    · exact h
  | encObuf => exact h
  | decObuf => exact h

theorem Inv.hostAccess {s t : State} {a : BusAccess} (h : Inv s) (ht : s.hostAccess a = .next t) : Inv t := by
  rcases State.hostAccess_cases ht with ⟨-, g, -, rfl⟩ | ⟨g, v, -, rfl⟩ | ⟨S, i, v, -, -, hi, rfl⟩ | ⟨r, n, rfl⟩
  · exact (h.start g).withReply _
  · exact (h.writeIlen g v).withReply _
  · exact (h.writeElem hi v).withReply _
  · exact (h.withReply r).withFreeReads n

/-! ### Turns -/

theorem Inv.encTurn {s t : State} (h : Inv s) (ht : s.encTurn = .next t) : Inv t := by
  obtain ⟨-, rfl⟩ | ⟨-, e, rfl, hs⟩ := State.encTurn_cases ht
  · exact h
  · refine h.withEnc ?_
    rcases hs with hs | hs | hs | hs | hs | hs | hs
    · exact h.enc.scanStep hs
    · exact h.enc.scanEndStep hs
    · exact h.enc.hitStep hs
    · exact h.enc.missStep hs
    · exact h.enc.fullStep hs
    · exact h.enc.eoiStep hs
    · exact h.enc.flushStep hs

theorem Inv.decTurn {s t : State} (h : Inv s) (ht : s.decTurn = .next t) : Inv t := by
  obtain ⟨-, rfl⟩ | ⟨-, d, rfl, hs⟩ := State.decTurn_cases ht
  · exact h
  · refine h.withDec ?_
    rcases hs with ⟨-, hs⟩ | hs | ⟨k, hs⟩ | hs | hs
    · exact DecInv.consume h.config h.dec hs
    · exact h.dec.scanEndStep hs
    · obtain ⟨-, -, rfl⟩ := DecState.badFirstStep_ok hs
      exact h.dec.fail (by simp) _
    · obtain ⟨-, -, -, rfl⟩ := DecState.fullStep_ok hs
      exact h.dec.fail (by simp) _
    · exact h.dec.endStep hs

/-! ### The order of steps -/

theorem Inv.runEvent {s t : State} {ev : Event} (h : Inv s) (ht : s.runEvent ev = .next t) : Inv t := by
  cases ev with
  | host a => exact h.hostAccess ht
  | turn g =>
    cases g with
    | enc => exact h.encTurn ht
    | dec => exact h.decTurn ht
  | reset =>
    cases ht
    exact Inv.of_reset h.config rfl rfl

/-- Settles O41: whatever entry of the order of steps is next, running it keeps the invariant. -/
theorem stepKeepsTheInvariant : Obligations.StepKeepsTheInvariant := fun s _ h ht =>
  (h.withScript s.nextEvent.2).runEvent ht

end Sys2Proof.Machine
end

section
/-! The step R98 selects, as an equation per row, and that in a state that meets the invariant it never stops. -/

namespace Sys2Proof.Machine

/-! ### The row of R98 a turn of ENC runs -/

theorem State.encTurn_scan {s : State} (hp : s.enc.phase = .scan) (hc : s.enc.regs.cursor = .before) :
    s.encTurn = exec .encScan s := by
  simp [State.encTurn, State.selectEnc, EncState.cond, decodeEncCond, State.runDecoded, EncPhase.num, hp, hc]

theorem State.encTurn_scanEnd {s : State} (hp : s.enc.phase = .scan) (hc : s.enc.regs.cursor = .atEnd) :
    s.encTurn = exec .encScanEnd s := by
  simp [State.encTurn, State.selectEnc, EncState.cond, decodeEncCond, State.runDecoded, EncPhase.num, hp, hc]

/-- In MATCH with input left the row depends on the lookup of `P` and the next byte, then on the room in the dictionary. -/
theorem State.encTurn_before {s : State} (hp : s.enc.phase = .matching) (hc : s.enc.regs.cursor = .before) {b : Byte}
    (hb : s.enc.element s.cfg s.resets = some b) :
    s.encTurn = exec (if (s.enc.dict.findP (s.enc.p ++ [b])).isSome then .encHit
      else if s.enc.dict.full then .encFull else .encMiss) s := by
  simp [State.encTurn, State.selectEnc, EncState.cond, decodeEncCond, State.runDecoded, EncPhase.num, hp, hc, hb]

theorem State.encTurn_eoi {s : State} (hp : s.enc.phase = .matching) (hc : s.enc.regs.cursor = .atEnd) :
    s.encTurn = exec .encEoi s := by
  simp [State.encTurn, State.selectEnc, EncState.cond, decodeEncCond, State.runDecoded, EncPhase.num, hp, hc]

theorem State.encTurn_flush {s : State} (hp : s.enc.phase = .flush) : s.encTurn = exec .encFlush s := by
  simp [State.encTurn, State.selectEnc, EncState.cond, decodeEncCond, State.runDecoded, EncPhase.num, hp]

/-! ### The step of ENC is enabled -/

theorem State.exists_endEnc {s : State} {r : Except Fault EncState} (h : ∃ e, r = .ok e) : ∃ t, s.endEnc r = .next t := by
  obtain ⟨e, rfl⟩ := h
  exact ⟨_, rfl⟩

/-- R64: in a busy engine with input left the element at the cursor exists. -/
theorem EncInv.ipos_lt {cfg : Config} {r : Nat} {e : EncState} (h : EncInv cfg r e) (hp : e.phase ≠ .idle)
    (hc : e.regs.cursor = .before) : e.regs.ipos.toNat < cfg.encInMax :=
  Nat.lt_of_lt_of_le (BitVec.lt_def.1 (CallRegs.cursor_before.1 hc)) (h.cursor hp).2

theorem EncInv.scan_enabled {cfg : Config} {r : Nat} {e : EncState} (h : EncInv cfg r e) (hp : e.phase = .scan)
    (hc : e.regs.cursor = .before) : ∃ e', e.scanStep cfg r = .ok e' := by
  rw [EncState.scanStep, if_pos ⟨hp, hc⟩, EncState.element_eq (h.ipos_lt (by simp [hp]) hc)]
  dsimp only
  split
  · exact ⟨_, rfl⟩
  · split <;> exact ⟨_, rfl⟩

theorem EncState.hit_enabled {cfg : Config} {r : Nat} {e : EncState} {b : Byte} (hp : e.phase = .matching)
    (hc : e.regs.cursor = .before) (hb : e.element cfg r = some b) (hf : (e.dict.findP (e.p ++ [b])).isSome = true) :
    ∃ e', e.hitStep cfg r = .ok e' := by
  rw [EncState.hitStep, if_pos ⟨hp, hc⟩, hb]
  exact ⟨_, if_pos hf⟩

theorem EncState.full_enabled {cfg : Config} {r : Nat} {e : EncState} {b : Byte} (hp : e.phase = .matching)
    (hc : e.regs.cursor = .before) (hb : e.element cfg r = some b) (hf : (e.dict.findP (e.p ++ [b])).isNone = true)
    (hfull : e.dict.full = true) : ∃ e', e.fullStep cfg r = .ok e' := by
  rw [EncState.fullStep, if_pos ⟨hp, hc⟩, hb]
  exact ⟨_, if_pos ⟨hf, hfull⟩⟩

/-- In MATCH with input left, whichever of HIT, FULL and MISS is selected is enabled. -/
theorem Inv.encTurn_before_enabled {s : State} (h : Inv s) (hp : s.enc.phase = .matching)
    (hc : s.enc.regs.cursor = .before) : ∃ t, s.encTurn = .next t := by
  have hb := EncState.element_eq (r := s.resets) (h.enc.ipos_lt (by simp [hp]) hc)
  rw [State.encTurn_before hp hc hb]
  split
  · exact State.exists_endEnc (EncState.hit_enabled hp hc hb ‹_›)
  · rename_i hmiss
    split
    · exact State.exists_endEnc (EncState.full_enabled hp hc hb (by simpa using hmiss) ‹_›)
    · rename_i hroom
      rw [Dict.isSome_findP] at hmiss
      exact State.exists_endEnc (h.enc.miss_enabled hp (CallRegs.cursor_before.1 hc) hmiss (by simpa using hroom))

theorem Inv.encTurn_enabled {s : State} (h : Inv s) : ∃ t, s.encTurn = .next t := by
  have hcur : s.enc.phase ≠ .idle → s.enc.regs.cursor = .before ∨ s.enc.regs.cursor = .atEnd := fun hp =>
    CallRegs.cursor_of_le (h.enc.cursor hp).1
  cases hp : s.enc.phase with
  | idle => exact ⟨s, if_pos hp⟩
  | scan =>
    rcases hcur (by simp [hp]) with hc | hc
    · rw [State.encTurn_scan hp hc]
      exact State.exists_endEnc (h.enc.scan_enabled hp hc)
    · rw [State.encTurn_scanEnd hp hc]
      exact State.exists_endEnc ⟨_, if_pos ⟨hp, hc⟩⟩
  | matching =>
    rcases hcur (by simp [hp]) with hc | hc
    · exact h.encTurn_before_enabled hp hc
    · rw [State.encTurn_eoi hp hc]
      exact State.exists_endEnc ⟨_, if_pos ⟨hp, hc⟩⟩
  | flush =>
    rw [State.encTurn_flush hp]
    exact State.exists_endEnc (h.enc.flush_enabled hp)

/-! ### The row of R98 a turn of DEC runs -/

/-- A turn of DEC that consumes a code word runs the instruction the word decodes to (R94). -/
theorem State.decTurn_code {s : State} (hc : s.dec.consumesCode = true) (hi : s.dec.codeIndex < s.cfg.decInMax) :
    s.decTurn = exec (decodeCode (s.dec.inCode s.resets s.dec.codeIndex)) s := by
  have hbusy : s.dec.phase ≠ .idle := by rintro hp; simp [DecState.consumesCode, hp] at hc
  simp [State.decTurn, hbusy, State.fetchedCode, hc, DecState.element_eq hi]

theorem State.decTurn_scanEnd {s : State} (hp : s.dec.phase = .scan) (hc : s.dec.regs.cursor = .atEnd) :
    s.decTurn = exec .decScanEnd s := by
  simp [State.decTurn, State.fetchedCode, DecState.consumesCode, State.selectDec, DecState.cond, decodeDecCond,
    State.runDecoded, DecPhase.num, hp, hc]

theorem State.decTurn_badFirst_empty {s : State} (hp : s.dec.phase = .first) (hl : s.dec.regs.ilen = 0) :
    s.decTurn = exec .decBadFirst s := by
  simp [State.decTurn, State.fetchedCode, DecState.consumesCode, State.selectDec, DecState.cond, decodeDecCond,
    State.runDecoded, DecPhase.num, hp, hl]

theorem State.decTurn_atEnd {s : State} (hp : s.dec.phase = .loop) (hc : s.dec.regs.cursor = .atEnd) :
    s.decTurn = exec .decEnd s := by
  simp [State.decTurn, State.fetchedCode, DecState.consumesCode, State.selectDec, DecState.cond, decodeDecCond,
    State.runDecoded, DecPhase.num, hp, hc]

/-! ### The step of DEC is enabled -/

theorem State.exists_endDec {s : State} {r : Except Fault DecState} (h : ∃ d, r = .ok d) : ∃ t, s.endDec r = .next t := by
  obtain ⟨d, rfl⟩ := h
  exact ⟨_, rfl⟩

/-- R64: where DEC consumes a code word its input buffer has the element. -/
theorem DecInv.codeIndex_lt {cfg : Config} {r : Nat} {d : DecState} (hcfg : cfg.ok) (h : DecInv cfg r d)
    (hc : d.consumesCode = true) : d.codeIndex < cfg.decInMax := by
  obtain ⟨-, ⟨hmax, -⟩, -, -⟩ := hcfg
  have hbefore : d.phase ≠ .idle → d.regs.cursor = .before → d.regs.ipos.toNat < cfg.decInMax := fun hp hb =>
    Nat.lt_of_lt_of_le (BitVec.lt_def.1 (CallRegs.cursor_before.1 hb)) (h.cursor hp).2
  cases hp : d.phase with
  | idle => simp [DecState.consumesCode, hp] at hc
  | first => rw [DecState.codeIndex_first hp]; exact hmax
  | scan | loop =>
    rw [DecState.codeIndex_ne (by simp [hp])]
    exact hbefore (by simp [hp]) (by simpa [DecState.consumesCode, hp] using hc)

theorem Inv.decTurn_code_enabled {s : State} (h : Inv s) (hc : s.dec.consumesCode = true) :
    ∃ t, s.decTurn = .next t := by
  rw [State.decTurn_code hc (DecInv.codeIndex_lt h.config h.dec hc), exec_decodeCode]
  exact State.exists_endDec (DecInv.consume_enabled h.config h.dec hc _)

theorem Inv.decTurn_enabled {s : State} (h : Inv s) : ∃ t, s.decTurn = .next t := by
  have hcur : s.dec.phase ≠ .idle → s.dec.regs.cursor = .before ∨ s.dec.regs.cursor = .atEnd := fun hp =>
    CallRegs.cursor_of_le (h.dec.cursor hp).1
  cases hp : s.dec.phase with
  | idle => exact ⟨s, if_pos hp⟩
  | scan =>
    rcases hcur (by simp [hp]) with hc | hc
    · exact h.decTurn_code_enabled (by simp [DecState.consumesCode, hp, hc])
    · rw [State.decTurn_scanEnd hp hc]
      exact State.exists_endDec ⟨_, if_pos ⟨hp, hc⟩⟩
  | first =>
    by_cases hl : s.dec.regs.ilen = 0
    · rw [State.decTurn_badFirst_empty hp hl]
      exact State.exists_endDec ⟨_, (if_pos hl).trans (if_pos ⟨hp, .inl hl⟩)⟩
    · exact h.decTurn_code_enabled (by simpa [DecState.consumesCode, hp] using hl)
  | loop =>
    rcases hcur (by simp [hp]) with hc | hc
    · exact h.decTurn_code_enabled (by simp [DecState.consumesCode, hp, hc])
    · rw [State.decTurn_atEnd hp hc]
      exact State.exists_endDec ⟨_, if_pos ⟨hp, hc⟩⟩

/-! ### The order of steps -/

theorem Inv.runEvent_enabled {s : State} (h : Inv s) (ev : Event) : ∃ t, s.runEvent ev = .next t := by
  cases ev with
  | host a => exact s.hostAccess_next a
  | turn g =>
    cases g with
    | enc => exact h.encTurn_enabled
    | dec => exact h.decTurn_enabled
  | reset => exact ⟨_, rfl⟩

/-- Settles O42: every entry of the order of steps is enabled under the invariant. -/
theorem noReachableStateStops : Obligations.NoReachableStateStops := fun s h =>
  (h.withScript s.nextEvent.2).runEvent_enabled s.nextEvent.1

end Sys2Proof.Machine
end

section
/-! The state at rest and as the host reads it: idle engines, the status word, the dictionary rules, the parameters and
the reset state. -/

namespace Sys2Proof.Machine

/-! ### Idle engines -/

theorem step_encTurn_idle {s : State} {rest : List Event} (hs : s.script = .turn .enc :: rest) (hp : s.enc.phase = .idle) :
    step s = .next (s.withScript rest) := by
  rw [step_cons hs]
  exact if_pos hp

theorem step_decTurn_idle {s : State} {rest : List Event} (hs : s.script = .turn .dec :: rest) (hp : s.dec.phase = .idle) :
    step s = .next (s.withScript rest) := by
  rw [step_cons hs]
  exact if_pos hp

/-- With nothing to repeat and both engines idle, the round after the script leaves the state as it is. -/
theorem run_idle_round {s : State} (hs : s.script = []) (hc : s.cycle = []) (he : s.enc.phase = .idle)
    (hd : s.dec.phase = .idle) : core.run 2 s = .next s := by
  have henc : step s = .next (s.withScript [.turn .dec]) := by
    rw [step_nil hs, hc]
    exact step_encTurn_idle (s := s.withScript [.turn .enc, .turn .dec]) rfl he
  have hdec : step (s.withScript [.turn .dec]) = .next s := by
    rw [step_decTurn_idle (s := s.withScript [.turn .dec]) rfl hd]
    exact congrArg (fun l => Host.Outcome.next (s.withScript l)) hs.symm
  simp only [Host.Core.run, core, henc, hdec]

/-- Settles O9: an idle engine's turn passes, and the rounds after the script keep an idle block as it is. -/
theorem idleEnginesWait : Obligations.IdleEnginesWait := fun _ _ =>
  ⟨step_encTurn_idle, step_decTurn_idle, step_nil, run_idle_round⟩

/-! ### The status word -/

/-- A field of a word above the bits in use adds its value, shifted. -/
theorem toNat_or_field {a : Word} {w k : Nat} (b : BitVec w) (ha : a.toNat < 2 ^ k) (hk : w + k ≤ 32) :
    (a ||| b.zeroExtend 32 <<< k).toNat = a.toNat + 2 ^ k * b.toNat := by
  have hb : b.toNat <<< k < 2 ^ (w + k) := by
    rw [Nat.shiftLeft_eq, Nat.pow_add]
    exact Nat.mul_lt_mul_of_pos_right b.isLt (Nat.two_pow_pos k)
  have hfit : b.toNat <<< k < 2 ^ 32 := Nat.lt_of_lt_of_le hb (Nat.pow_le_pow_right (by decide) hk)
  have hw : b.toNat < 2 ^ 32 := Nat.lt_of_le_of_lt Nat.le_shiftLeft hfit
  rw [BitVec.toNat_or, BitVec.toNat_shiftLeft, BitVec.toNat_setWidth, Nat.mod_eq_of_lt hw, Nat.mod_eq_of_lt hfit,
    Nat.lor_comm, ← Nat.shiftLeft_add_eq_or_of_lt ha, Nat.shiftLeft_eq, Nat.mul_comm, Nat.add_comm]

/-- The status word as the sum of its fields (R42). -/
theorem CallRegs.statusWord_toNat (c : CallRegs) (phase : BitVec 3) :
    (c.statusWord phase).toNat =
      phase.toNat + 16 * c.done.toNat + 32 * c.err.toNat + 256 * c.errcode.num.toNat := by
  have hd := Bool.toNat_lt c.done
  have he := Bool.toNat_lt c.err
  have h0 : (phase.zeroExtend 32).toNat = phase.toNat := BitVec.toNat_setWidth_of_le (by decide)
  have h1 := toNat_or_field (k := 4) (BitVec.ofBool c.done) (a := phase.zeroExtend 32) (by omega) (by decide)
  have h2 := toNat_or_field (k := 5) (BitVec.ofBool c.err) (by rw [h1, BitVec.toNat_ofBool]; omega) (by decide)
  have h3 := toNat_or_field (k := 8) c.errcode.num (by rw [h2, h1, BitVec.toNat_ofBool, BitVec.toNat_ofBool]; omega) (by decide)
  rw [h2, h1, h0, BitVec.toNat_ofBool, BitVec.toNat_ofBool] at h3
  exact h3

/-- The fields of the status word, bit by bit (R42). -/
theorem CallRegs.statusWord_fields (c : CallRegs) (phase : BitVec 3) :
    (c.statusWord phase).extractLsb' 0 3 = phase ∧ (c.statusWord phase).getLsbD 3 = false ∧
    (c.statusWord phase).getLsbD 4 = c.done ∧ (c.statusWord phase).getLsbD 5 = c.err ∧
    (c.statusWord phase).extractLsb' 6 2 = 0#2 ∧ (c.statusWord phase).extractLsb' 8 4 = c.errcode.num ∧
    (c.statusWord phase).extractLsb' 12 20 = 0#20 := by
  have hw := c.statusWord_toNat phase
  have hp := phase.isLt
  have hd := Bool.toNat_lt c.done
  have he := Bool.toNat_lt c.err
  have hn := c.errcode.num.isLt
  have field : ∀ {w : Nat} (i : Nat) (v : BitVec w), (c.statusWord phase).toNat / 2 ^ i % 2 ^ w = v.toNat →
      (c.statusWord phase).extractLsb' i w = v := by
    intro w i v h
    apply BitVec.eq_of_toNat_eq
    rw [BitVec.extractLsb'_toNat, Nat.shiftRight_eq_div_pow, h]
  have bit : ∀ (i : Nat) (v : Bool), (c.statusWord phase).toNat / 2 ^ i % 2 = v.toNat →
      (c.statusWord phase).getLsbD i = v := by
    intro i v h
    rw [BitVec.getLsbD, Nat.testBit_eq_decide_div_mod_eq, h]
    cases v <;> rfl
  rw [hw] at field bit
  exact ⟨field 0 _ (by omega), bit 3 _ (by rw [Bool.toNat_false]; omega), bit 4 _ (by omega), bit 5 _ (by omega),
    field 6 _ (by rw [BitVec.toNat_ofNat]; omega), field 8 _ (by omega), field 12 _ (by rw [BitVec.toNat_ofNat]; omega)⟩

/-- While busy the flags and the error code are 0 (R42, R204). -/
theorem RegsInv.busy_flags {n : Nat} {c : CallRegs} (h : RegsInv false n c) :
    c.done = false ∧ c.err = false ∧ c.errcode = .none := by
  obtain ⟨hd, he⟩ := h.busy rfl
  exact ⟨hd, he, by simpa [he] using h.errcode⟩

theorem Inv.busy_flags {s : State} (h : Inv s) {g : Engine} (hb : s.stateNum g ≠ 0) :
    (s.regsOf g).done = false ∧ (s.regsOf g).err = false ∧ (s.regsOf g).errcode = .none := by
  cases g with
  | enc => exact (h.enc.busyRegs rfl (State.stateNum_enc.not.1 hb)).busy_flags
  | dec => exact (h.dec.busyRegs rfl (State.stateNum_dec.not.1 hb)).busy_flags

/-- Settles O11: the fields are those of `statusWord`, and the invariant gives the busy clause. -/
theorem statusWordFields : Obligations.StatusWordFields := by
  intro s g
  obtain ⟨hstate, h3, h4, h5, h6, h8, h12⟩ := (s.regsOf g).statusWord_fields (s.stateNum g)
  refine ⟨hstate, h3, h4, h5, h6, h8, h12, fun h hb => ?_, by cases g <;> decide, rfl, fun _ => rfl⟩
  obtain ⟨hd, he, hc⟩ := h.busy_flags hb
  exact ⟨h4.trans hd, h5.trans he, h8.trans (by rw [hc]; rfl)⟩

/-! ### The dictionary rules -/

theorem Entry.isLiteral_iff {e : Entry} : e.isLiteral = true ↔ e.code.toNat ≤ 255 := isLitCode_iff

/-- The multi-byte entries are those with a code from 256 on (R34 item 3). -/
theorem Dict.multi_eq_filter (d : Dict) : d.multi = d.ent.filter (fun e => decide (256 ≤ e.code.toNat)) := by
  refine List.filter_congr fun e _ => ?_
  rw [Entry.isLiteral, isLitCode, ← decide_not]
  exact decide_eq_decide.2 (by omega)

theorem Dict.mem_multi_iff {d : Dict} {e : Entry} : e ∈ d.multi ↔ e ∈ d.ent ∧ 256 ≤ e.code.toNat := by
  rw [Dict.multi_eq_filter, List.mem_filter, decide_eq_true_eq]

theorem Dict.mem_literals_iff {d : Dict} {e : Entry} : e ∈ d.literals ↔ e ∈ d.ent ∧ e.code.toNat ≤ 255 := by
  rw [Dict.literals, List.mem_filter, Entry.isLiteral_iff]

/-- R34 item 1: no code twice, among the literal and among the multi-byte entries, whose codes are apart. -/
theorem DictInv.codes_nodup {d : Dict} (h : DictInv d) : (d.ent.map Entry.code).Nodup := by
  have hsplit : (d.literals ++ d.multi).Perm d.ent := List.filter_append_perm _ _
  have hmulti : (d.multi.map Entry.code).Nodup := by
    refine List.Nodup.of_map BitVec.toNat ?_
    rw [List.map_map]
    exact h.multiCodes ▸ List.nodup_range'
  refine (hsplit.map Entry.code).nodup_iff.1 ?_
  rw [List.map_append, List.nodup_append]
  refine ⟨h.literalOnce, hmulti, fun x hx y hy hxy => ?_⟩
  obtain ⟨a, ha, rfl⟩ := List.mem_map.1 hx
  obtain ⟨b, hb, rfl⟩ := List.mem_map.1 hy
  have hlow := (Dict.mem_literals_iff.1 ha).2
  have hhigh := (Dict.mem_multi_iff.1 hb).2
  rw [hxy] at hlow
  omega

/-- R33: `NEXT` counts the multi-byte entries from 256, of which there are at most 4095. -/
theorem DictInv.next_bounds {d : Dict} (h : DictInv d) : 256 ≤ d.next.toNat ∧ d.next.toNat ≤ 4351 := by
  have hn := h.next
  have hm := h.multi_le
  simp only [firstMbCode] at hn
  omega

/-- R34 item 3, with the codes spelled out: 256, 257, ... up to `NEXT`. -/
theorem DictInv.multi_codes {d : Dict} (h : DictInv d) :
    (d.ent.filter (fun e => decide (256 ≤ e.code.toNat))).map (fun e => e.code.toNat) =
      List.range' 256 (d.next.toNat - 256) := by
  rw [← Dict.multi_eq_filter, h.multiCodes, h.next, Nat.add_sub_cancel_left]

/-- The rules of R34 items 1 to 4 and R33, spelled out, of one dictionary. -/
theorem DictInv.rules {d : Dict} (h : DictInv d) :
    (d.ent.map Entry.code).Nodup ∧
    (∀ e ∈ d.ent, e.code.toNat ≤ 255 → e.pat = [e.code.truncate 8]) ∧
    (∀ e ∈ d.ent, 256 ≤ e.code.toNat → 2 ≤ e.pat.length) ∧
    (d.ent.filter (fun e => decide (256 ≤ e.code.toNat))).map (fun e => e.code.toNat) =
      List.range' 256 (d.next.toNat - 256) ∧
    d.nent ≤ 4096 ∧ 256 ≤ d.next.toNat ∧ d.next.toNat ≤ 4351 ∧ ∀ e ∈ d.ent, e.pat.length ≤ 4096 := by
  obtain ⟨hlow, hhigh⟩ := h.next_bounds
  refine ⟨h.codes_nodup, fun e he hl => ?_, fun e he hm => ?_, h.multi_codes, h.capacity, hlow, hhigh, fun e he => ?_⟩
  · exact h.literalPattern e (Dict.mem_literals_iff.2 ⟨he, hl⟩)
  · exact (h.multiLength e (Dict.mem_multi_iff.2 ⟨he, hm⟩)).1
  · have := (h.length_le (Dict.mem_patterns he)).2
    omega

/-- Settles O43: the rules of one dictionary, for each engine's, and R34 item 5 for DICT_E. -/
theorem dictionaryRulesHold : Obligations.DictionaryRulesHold := by
  intro s h
  refine ⟨fun g => ?_, h.enc.unique⟩
  cases g with
  | enc => exact h.enc.dict.rules
  | dec => exact h.dec.dict.rules

/-! ### The parameters -/

/-- Settles O45: the parameters are in the frame of every step. -/
theorem noStepChangesTheParameters : Obligations.NoStepChangesTheParameters := fun _ _ h => (step_frame h).1

/-! ### The reset state -/

/-- Settles O37: each register of either engine, by evaluation of the reset state. -/
theorem resetStateValues : Obligations.ResetStateValues := by
  refine ⟨rfl, rfl, fun g => ?_, rfl, rfl, rfl, rfl, rfl, rfl, rfl, rfl, rfl, rfl⟩
  cases g with
  | enc => exact ⟨rfl, rfl, rfl, rfl, rfl, rfl, rfl, rfl, rfl, rfl, rfl⟩
  | dec => exact ⟨rfl, rfl, rfl, rfl, rfl, rfl, rfl, rfl, rfl, rfl, rfl⟩

theorem Config.suggested_ok : Config.suggested.ok := by decide

/-- Settles O40: both engines are in their reset state in each of the three. -/
theorem resetMeetsTheInvariant : Obligations.ResetMeetsTheInvariant :=
  ⟨Inv.of_reset Config.suggested_ok rfl rfl, fun _ hc => Inv.of_reset hc rfl rfl, fun _ hc => Inv.of_reset hc rfl rfl⟩

end Sys2Proof.Machine
end

section
/-! The bus decoder (R61, R63): which accesses decode, and to what. -/

namespace Sys2Proof.Machine

/-! ### The windows of R61 -/

/-- The register window decodes 32-bit accesses at multiples of 4 (R63). -/
theorem decodeReg_ok_iff {a : BusAccess} {off : Nat} {i : Instr} :
    decodeReg a off = .ok i ↔ (a.bits = 32 ∧ off % 4 = 0) ∧
      ((a.kind = .read ∧ i = .hostRdreg (regAt off)) ∨ (a.kind = .write ∧ i = decodeRegWrite (regAt off) a.data)) := by
  rw [decodeReg]
  split
  · rename_i hw
    simp [hw]
  · rename_i hw
    split
    · rename_i ha
      simp [ha]
    · rename_i ha
      rw [not_not] at hw ha
      cases hk : a.kind <;> simp [hw, ha, eq_comm]

/-- A buffer window decodes accesses of the element's width at an element below the count, and writes to an input buffer
only (R63). -/
theorem decodeBuf_ok_iff {cfg : Config} {S : Space} {a : BusAccess} {rel : Nat} {i : Instr} :
    decodeBuf cfg S a rel = .ok i ↔ a.bits = 8 * S.elemBytes ∧ ∃ n < S.count cfg, rel = S.elemBytes * n ∧
      ((a.kind = .read ∧ i = .hostRdbuf S n) ∨
        (a.kind = .write ∧ S.isInput = true ∧ i = .hostWrbuf S n (busValue S a.data))) := by
  have hpos : 0 < S.elemBytes := by cases S <;> decide
  constructor
  · intro h
    rw [decodeBuf] at h
    split at h
    · cases h
    · split at h
      · cases h
      · split at h
        · cases h
        · rename_i hw ha hn
          rw [not_not] at hw ha
          refine ⟨hw, rel / S.elemBytes, Nat.lt_of_not_le hn, (Nat.mul_div_cancel' (Nat.dvd_of_mod_eq_zero ha)).symm, ?_⟩
          split at h
          · rename_i hk
            exact .inl ⟨hk, (Except.ok.inj h).symm⟩
          · rename_i hk
            split at h
            · rename_i hin
              exact .inr ⟨hk, hin, (Except.ok.inj h).symm⟩
            · cases h
  · rintro ⟨hw, n, hn, rfl, hk⟩
    rw [decodeBuf, if_neg (not_not.2 hw), if_neg (not_not.2 (Nat.mul_mod_right _ _)), Nat.mul_div_cancel_left n hpos,
      if_neg (Nat.not_le.2 hn)]
    rcases hk with ⟨hk, rfl⟩ | ⟨hk, hin, rfl⟩
    · rw [hk]
    · rw [hk]
      exact if_pos hin

/-- An access that decodes is one in the register window or one in the window of a buffer. -/
theorem decodeOffset_ok {cfg : Config} {a : BusAccess} {off : Nat} {i : Instr} (h : decodeOffset cfg a off = .ok i) :
    (off < 0x1000 ∧ decodeReg a off = .ok i) ∨
      ∃ S : Space, S.window ≤ off ∧ decodeBuf cfg S a (off - S.window) = .ok i := by
  rw [decodeOffset] at h
  split at h
  · exact .inl ⟨‹_›, h⟩
  split at h
  · cases h
  split at h
  · exact .inr ⟨.encIbuf, Nat.le_of_not_lt ‹_›, h⟩
  split at h
  · exact .inr ⟨.encObuf, Nat.le_of_not_lt ‹_›, h⟩
  split at h
  · cases h
  split at h
  · exact .inr ⟨.decIbuf, Nat.le_of_not_lt ‹_›, h⟩
  split at h
  · exact .inr ⟨.decObuf, Nat.le_of_not_lt ‹_›, h⟩
  · cases h

/-- For the sizes R8 admits, every element of a buffer lies in its window. -/
theorem decodeOffset_window {cfg : Config} (hc : cfg.ok) (a : BusAccess) {S : Space} {n : Nat} (hn : n < S.count cfg) :
    decodeOffset cfg a (S.window + S.elemBytes * n) = decodeBuf cfg S a (S.elemBytes * n) := by
  obtain ⟨⟨-, henc⟩, ⟨-, hdec⟩, ⟨-, hout⟩, -⟩ := hc
  cases S <;> simp only [Space.count, Space.window, Space.elemBytes, encOutMax] at hn ⊢ <;>
    simp (disch := omega) only [decodeOffset, if_neg, if_pos, Nat.add_sub_cancel_left]

/-- Everything an access can decode to: an operation on the register at its offset, or on an element of a buffer. -/
theorem decodeBus_ok {cfg : Config} {a : BusAccess} {i : Instr} (h : decodeBus cfg a = .ok i) :
    cfg.lzwBase ≤ a.addr ∧
      ((a.addr - cfg.lzwBase < 0x1000 ∧ decodeReg a (a.addr - cfg.lzwBase) = .ok i) ∨
        ∃ (S : Space) (n : Nat), n < S.count cfg ∧ a.addr - cfg.lzwBase = S.window + S.elemBytes * n ∧
          decodeBuf cfg S a (S.elemBytes * n) = .ok i) := by
  rw [decodeBus] at h
  split at h
  · cases h
  · refine ⟨Nat.le_of_not_lt ‹_›, (decodeOffset_ok h).imp id ?_⟩
    rintro ⟨S, hS, hb⟩
    obtain ⟨-, n, hn, hrel, -⟩ := decodeBuf_ok_iff.1 hb
    exact ⟨S, n, hn, by omega, hrel ▸ hb⟩

theorem decodeBus_reg {cfg : Config} {a : BusAccess} (hbase : cfg.lzwBase ≤ a.addr) (hoff : a.addr - cfg.lzwBase < 0x1000) :
    decodeBus cfg a = decodeReg a (a.addr - cfg.lzwBase) := by
  rw [decodeBus, if_neg (Nat.not_lt.2 hbase), decodeOffset, if_pos hoff]

theorem decodeBus_window {cfg : Config} (hc : cfg.ok) {a : BusAccess} {S : Space} {n : Nat} (hbase : cfg.lzwBase ≤ a.addr)
    (hn : n < S.count cfg) (hoff : a.addr - cfg.lzwBase = S.window + S.elemBytes * n) :
    decodeBus cfg a = decodeBuf cfg S a (S.elemBytes * n) := by
  rw [decodeBus, if_neg (Nat.not_lt.2 hbase), hoff, decodeOffset_window hc a hn]

/-! ### Decoded operands are well-formed -/

/-- An aligned offset of the register window names a register of R38 or a reserved offset R38 does not list. -/
theorem regAt_wellFormed {off : Nat} (hoff : off < 0x1000) (ha : off % 4 = 0) : (regAt off).wellFormed = true := by
  unfold regAt
  split
  case h_15 => simp_all [Reg.wellFormed, Reg.listedOffsets]
  all_goals rfl

theorem decodeRegWrite_wellFormed {cfg : Config} {r : Reg} (v : Word) (hr : r.wellFormed = true) :
    (decodeRegWrite r v).wellFormed cfg = true := by
  by_cases hs : r.isStartWrite v = true
  · cases r with
    | ctrl g => cases g <;> simp [decodeRegWrite, hs, Instr.wellFormed]
    | _ => cases hs
  · simp [decodeRegWrite, hs, Instr.wellFormed, hr]

/-- A byte space is written with a value of eight bits. -/
theorem busValue_encIbuf_lt (v : Word) : (busValue .encIbuf v).toNat < 256 := by
  rw [busValue, BitVec.toNat_setWidth_of_le (by decide)]
  exact BitVec.isLt _

theorem decodeReg_wellFormed {cfg : Config} {a : BusAccess} {off : Nat} {i : Instr} (hoff : off < 0x1000)
    (h : decodeReg a off = .ok i) : i.wellFormed cfg = true := by
  obtain ⟨⟨-, ha⟩, ⟨-, rfl⟩ | ⟨-, rfl⟩⟩ := decodeReg_ok_iff.1 h
  · exact regAt_wellFormed hoff ha
  · exact decodeRegWrite_wellFormed a.data (regAt_wellFormed hoff ha)

theorem decodeBuf_wellFormed {cfg : Config} {S : Space} {a : BusAccess} {rel : Nat} {i : Instr}
    (h : decodeBuf cfg S a rel = .ok i) : i.wellFormed cfg = true := by
  obtain ⟨-, n, hn, -, ⟨-, rfl⟩ | ⟨-, hin, rfl⟩⟩ := decodeBuf_ok_iff.1 h
  · exact decide_eq_true hn
  · have hval : S ≠ .encIbuf ∨ (busValue S a.data).toNat < 256 := by
      by_cases hS : S = .encIbuf
      · exact .inr (hS ▸ busValue_encIbuf_lt a.data)
      · exact .inl hS
    simpa [Instr.wellFormed, hin, hn] using hval

/-- Settles O3: a register operand by its offset, a buffer operand by the bounds of its window. -/
theorem decodedAccessIsWellFormed : Obligations.DecodedAccessIsWellFormed := by
  intro cfg a i _ h
  obtain ⟨-, ⟨hoff, h⟩ | ⟨S, _, -, -, h⟩⟩ := decodeBus_ok h
  · exact decodeReg_wellFormed hoff h
  · exact decodeBuf_wellFormed h

/-! ### Which accesses decode -/

theorem exists_decodeReg_ok {a : BusAccess} {off : Nat} :
    (∃ i, decodeReg a off = .ok i) ↔ a.bits = 32 ∧ off % 4 = 0 := by
  simp only [decodeReg_ok_iff]
  constructor
  · rintro ⟨i, h, -⟩
    exact h
  · intro h
    cases hkind : a.kind with
    | read => exact ⟨_, h, .inl ⟨rfl, rfl⟩⟩
    | write => exact ⟨_, h, .inr ⟨rfl, rfl⟩⟩

/-- Whether element `n` of a buffer can be accessed depends on the width, and for an output buffer on the kind (R63). -/
theorem exists_decodeBuf_ok {cfg : Config} {S : Space} {a : BusAccess} {n : Nat} (hn : n < S.count cfg) :
    (∃ i, decodeBuf cfg S a (S.elemBytes * n) = .ok i) ↔
      a.bits = 8 * S.elemBytes ∧ (S.isInput = true ∨ a.kind = .read) := by
  simp only [decodeBuf_ok_iff]
  constructor
  · rintro ⟨i, hw, -, -, -, ⟨hk, -⟩ | ⟨-, hin, -⟩⟩
    · exact ⟨hw, .inr hk⟩
    · exact ⟨hw, .inl hin⟩
  · rintro ⟨hw, hk⟩
    cases hkind : a.kind with
    | read => exact ⟨_, hw, n, hn, rfl, .inl ⟨rfl, rfl⟩⟩
    | write => exact ⟨_, hw, n, hn, rfl, .inr ⟨rfl, by simpa [hkind] using hk, rfl⟩⟩

theorem Space.exists_iff {p : Space → Prop} : (∃ S, p S) ↔ p .encIbuf ∨ p .encObuf ∨ p .decIbuf ∨ p .decObuf := by
  constructor
  · rintro ⟨S, h⟩
    cases S with
    | encIbuf => exact .inl h
    | encObuf => exact .inr (.inl h)
    | decIbuf => exact .inr (.inr (.inl h))
    | decObuf => exact .inr (.inr (.inr h))
  · rintro (h | h | h | h)
    exacts [⟨_, h⟩, ⟨_, h⟩, ⟨_, h⟩, ⟨_, h⟩]

/-- The accesses that decode, over the register window and the four buffers at once. -/
theorem exists_decodeBus_ok {cfg : Config} (hc : cfg.ok) {a : BusAccess} :
    (∃ i, decodeBus cfg a = .ok i) ↔ cfg.lzwBase ≤ a.addr ∧
      ((a.addr - cfg.lzwBase < 0x1000 ∧ a.bits = 32 ∧ (a.addr - cfg.lzwBase) % 4 = 0) ∨
        ∃ S : Space, ∃ n < S.count cfg, a.addr - cfg.lzwBase = S.window + S.elemBytes * n ∧
          a.bits = 8 * S.elemBytes ∧ (S.isInput = true ∨ a.kind = .read)) := by
  constructor
  · rintro ⟨i, h⟩
    obtain ⟨hbase, ⟨hoff, h⟩ | ⟨S, n, hn, hoff, h⟩⟩ := decodeBus_ok h
    · exact ⟨hbase, .inl ⟨hoff, exists_decodeReg_ok.1 ⟨i, h⟩⟩⟩
    · exact ⟨hbase, .inr ⟨S, n, hn, hoff, (exists_decodeBuf_ok hn).1 ⟨i, h⟩⟩⟩
  · rintro ⟨hbase, ⟨hoff, h⟩ | ⟨S, n, hn, hoff, h⟩⟩
    · rw [decodeBus_reg hbase hoff]
      exact exists_decodeReg_ok.2 h
    · rw [decodeBus_window hc hbase hn hoff]
      exact (exists_decodeBuf_ok hn).2 h

end Sys2Proof.Machine
end

section
/-! Host accesses as steps: the decoded operation, the bus error, and reads. -/

namespace Sys2Proof.Machine

theorem State.hostAccess_ok {s : State} {a : BusAccess} {i : Instr} (h : decodeBus s.cfg a = .ok i) :
    s.hostAccess a = exec i s := by
  rw [State.hostAccess, h]

theorem State.hostAccess_error {s : State} {a : BusAccess} {why : DecodeError} (h : decodeBus s.cfg a = .error why) :
    s.hostAccess a = .next (s.withReply (.busError why)) := by
  rw [State.hostAccess, h]
  rfl

/-- Settles O5: the entry of the order is the access, and the access is the operation it decodes to. -/
theorem stepRunsTheDecodedAccess : Obligations.StepRunsTheDecodedAccess := fun s _ rest _ hs h =>
  (step_cons hs).trans (State.hostAccess_ok (s := s.withScript rest) h)

/-- Settles O4: the accesses that decode, space by space, and the bus error of the others. -/
theorem invalidAccessChangesNothing : Obligations.InvalidAccessChangesNothing := by
  intro s a rest hc hs
  refine ⟨?_, fun why h => (step_cons hs).trans (State.hostAccess_error (s := s.withScript rest) h)⟩
  rw [exists_decodeBus_ok hc, Space.exists_iff]
  simp [Space.count, Space.window, Space.elemBytes, Space.isInput, encOutMax]

/-! ### Reads -/

/-- What the host is answered to a read: the register, the element, or the bus error of an invalid access. -/
def State.readAnswer (s : State) (a : BusAccess) : Reply :=
  match decodeBus s.cfg a with
  | .ok (.hostRdreg r) => .reg (s.readReg r)
  | .ok (.hostRdbuf S i) => .elem ((s.specifiedElem S i).getD (s.unspecifiedElem S))
  | .ok _ => .none
  | .error why => .busError why

/-- The operations a read decodes to. -/
theorem decodeBus_read {cfg : Config} {a : BusAccess} {i : Instr} (hr : a.kind = .read) (h : decodeBus cfg a = .ok i) :
    (∃ r, i = .hostRdreg r) ∨ ∃ S n, i = .hostRdbuf S n ∧ n < S.count cfg := by
  obtain ⟨-, ⟨-, h⟩ | ⟨S, _, -, -, h⟩⟩ := decodeBus_ok h
  · obtain ⟨-, ⟨-, rfl⟩ | ⟨hw, -⟩⟩ := decodeReg_ok_iff.1 h
    · exact .inl ⟨_, rfl⟩
    · rw [hr] at hw
      cases hw
  · obtain ⟨-, n, hn, -, ⟨-, rfl⟩ | ⟨hw, -⟩⟩ := decodeBuf_ok_iff.1 h
    · exact .inr ⟨S, n, rfl, hn⟩
    · rw [hr] at hw
      cases hw

theorem State.readElem_eq (s : State) (S : Space) (i : Nat) :
    ∃ n, s.readElem S i =
      (s.withReply (.elem ((s.specifiedElem S i).getD (s.unspecifiedElem S)))).withFreeReads n := by
  rw [State.readElem]
  cases s.specifiedElem S i with
  | some v => exact ⟨s.freeReads, rfl⟩
  | none => exact ⟨s.freeReads + 1, rfl⟩

/-- A read completes, and changes nothing but what the host is answered and the counter of unspecified reads. -/
theorem State.hostAccess_read (s : State) {a : BusAccess} (hr : a.kind = .read) :
    ∃ n, s.hostAccess a = .next ((s.withReply (s.readAnswer a)).withFreeReads n) := by
  rw [State.readAnswer]
  cases h : decodeBus s.cfg a with
  | error why => exact ⟨s.freeReads, State.hostAccess_error h⟩
  | ok i =>
    rw [State.hostAccess_ok h]
    obtain ⟨r, rfl⟩ | ⟨S, i, rfl, hi⟩ := decodeBus_read hr h
    · exact ⟨s.freeReads, rfl⟩
    · obtain ⟨n, hn⟩ := s.readElem_eq S i
      exact ⟨n, (if_pos hi).trans (congrArg _ hn)⟩

/-- The answer to a read of a specified element, or to any other read, is a function of the block (R66). -/
theorem State.readAnswer_congr {s t : State} {a : BusAccess} (hcfg : t.cfg = s.cfg) (henc : t.enc = s.enc)
    (hdec : t.dec = s.dec) (hres : t.resets = s.resets)
    (hspec : ∀ S i, decodeBus s.cfg a = .ok (.hostRdbuf S i) → s.specifiedElem S i ≠ none) :
    t.readAnswer a = s.readAnswer a := by
  have hreg : t.readReg = s.readReg := by
    funext r
    cases r <;> simp [State.readReg, State.regsOf, State.stateNum, hcfg, henc, hdec]
  have helem : t.specifiedElem = s.specifiedElem := by
    funext S i
    simp only [State.specifiedElem, henc, hdec, hres]
  rw [State.readAnswer, State.readAnswer, hcfg, hreg, helem]
  split
  · rfl
  · rename_i S i h
    obtain ⟨v, hv⟩ := Option.ne_none_iff_exists'.1 (hspec S i h)
    rw [hv, Option.getD_some, Option.getD_some]
  · rfl
  · rfl

theorem step_read {s : State} {a : BusAccess} {rest : List Event} (hr : a.kind = .read) (hs : s.script = .host a :: rest) :
    ∃ n, step s = .next (((s.withScript rest).withReply (s.readAnswer a)).withFreeReads n) := by
  rw [step_cons hs]
  exact (s.withScript rest).hostAccess_read hr

/-- Settles O16: both reads complete with the block as it was, and their answer is a function of the block. -/
theorem readsAreFreeOfSideEffects : Obligations.ReadsAreFreeOfSideEffects := by
  intro s a rest hr hs
  obtain ⟨n, hfirst⟩ := step_read hr hs
  obtain ⟨m, hsecond⟩ := step_read (a := a) (rest := rest)
    (s := ((s.withScript (.host a :: rest)).withReply (s.readAnswer a)).withFreeReads n) hr rfl
  exact ⟨_, _, hfirst, hsecond, rfl, rfl, rfl, rfl, rfl, rfl, rfl, rfl,
    fun hspec => State.readAnswer_congr (s := s) rfl rfl rfl rfl hspec⟩

end Sys2Proof.Machine
end

section
/-! The four buffers along a step: an engine leaves its input as it is and writes consecutive elements of its output buffer, and
the host writes elements of an input buffer, all within the element count (R60, R64, R65, R69, R73). -/

namespace Sys2Proof.Machine

/-! ### What an engine writes -/

/-- The buffer of `n` elements after a write of consecutive elements it has (none of them, where nothing is written). -/
def Buf.WrittenWithin {w : Nat} (n : Nat) (b c : Buf w) : Prop :=
  ∃ i vs, i + vs.length ≤ n ∧ c = b.setMany i vs

theorem Buf.writtenWithin_self {w : Nat} (n : Nat) (b : Buf w) : Buf.WrittenWithin n b b :=
  ⟨0, [], Nat.zero_le n, rfl⟩

theorem Buf.writtenWithin_set {w n i : Nat} (b : Buf w) (v : BitVec w) (h : i < n) : Buf.WrittenWithin n b (b.set i v) :=
  ⟨i, [v], h, rfl⟩

theorem Buf.WrittenWithin.wf {w n : Nat} {b c : Buf w} (h : Buf.WrittenWithin n b c) (hb : Buf.wf n b) : Buf.wf n c := by
  obtain ⟨i, vs, hi, rfl⟩ := h
  exact Buf.wf_setMany hb vs hi

/-- What a step of ENC does to its buffers and its length. -/
structure EncState.StepWrites (e e' : EncState) : Prop where
  ibuf : e'.ibuf = e.ibuf
  ilen : e'.regs.ilen = e.regs.ilen
  obuf : Buf.WrittenWithin encOutMax e.obuf e'.obuf

/-- What a step of DEC does to its buffers and its length. -/
structure DecState.StepWrites (cfg : Config) (d d' : DecState) : Prop where
  ibuf : d'.ibuf = d.ibuf
  ilen : d'.regs.ilen = d.regs.ilen
  obuf : Buf.WrittenWithin cfg.decOutMax d.obuf d'.obuf

theorem State.encTurn_writes {s t : State} (h : s.encTurn = .next t) : EncState.StepWrites s.enc t.enc := by
  have same := Buf.writtenWithin_self encOutMax s.enc.obuf
  obtain ⟨-, rfl⟩ | ⟨-, e, rfl, hs⟩ := State.encTurn_cases h
  · exact ⟨rfl, rfl, same⟩
  rcases hs with h | h | h | h | h | h | h
  · obtain ⟨-, -, -, ⟨-, rfl⟩ | ⟨-, -, rfl⟩ | ⟨-, -, rfl⟩⟩ := EncState.scanStep_ok h <;> exact ⟨rfl, rfl, same⟩
  · obtain ⟨-, -, rfl⟩ := EncState.scanEndStep_ok h
    exact ⟨rfl, rfl, same⟩
  · obtain ⟨-, -, -, -, rfl⟩ := EncState.hitStep_ok h
    exact ⟨rfl, rfl, same⟩
  · obtain ⟨-, -, -, -, -, hout, _, _, k, -, -, rfl⟩ := EncState.missStep_ok h
    exact ⟨rfl, rfl, Buf.writtenWithin_set _ k hout⟩
  · obtain ⟨-, -, -, -, -, rfl⟩ := EncState.fullStep_ok h
    exact ⟨rfl, rfl, same⟩
  · obtain ⟨-, -, rfl⟩ := EncState.eoiStep_ok h
    exact ⟨rfl, rfl, same⟩
  · obtain ⟨-, ⟨-, rfl⟩ | ⟨-, hout, k, -, rfl⟩⟩ := EncState.flushStep_ok h
    · exact ⟨rfl, rfl, same⟩
    · exact ⟨rfl, rfl, Buf.writtenWithin_set _ k hout⟩

/-! ### What DEC writes -/

/-- The error entry leaves both buffers and the length (R250). -/
theorem DecState.fail_writes (cfg : Config) (d : DecState) (code : ErrCode) (info : Word) :
    DecState.StepWrites cfg d (d.fail code info) :=
  ⟨rfl, rfl, Buf.writtenWithin_self _ _⟩

/-- The loop's tail writes `next` at the cursor. -/
theorem DecState.append_writes {cfg : Config} {new next : Pattern} {d d' : DecState}
    (hfit : d.regs.opos.toNat + next.length ≤ cfg.decOutMax) (h : d.append new next = .ok d') :
    DecState.StepWrites cfg d d' := by
  obtain ⟨_, _, -, rfl⟩ := DecState.append_ok h
  exact ⟨rfl, rfl, _, next, hfit, rfl⟩

theorem DecState.knownStep_writes {cfg : Config} {k : Code} {d d' : DecState} (h : d.knownStep cfg k = .ok d') :
    DecState.StepWrites cfg d d' := by
  obtain ⟨-, -, -, hfit, r0, r, hr, ha⟩ := DecState.knownStep_ok h
  rw [DecState.fits_iff, DecState.nextLen, hr] at hfit
  exact DecState.append_writes hfit ha

theorem DecState.kwkwkStep_writes {cfg : Config} {k : Code} {d d' : DecState} (h : d.kwkwkStep cfg k = .ok d') :
    DecState.StepWrites cfg d d' := by
  obtain ⟨-, -, -, hfit, hnone, l0, l, -, ha⟩ := DecState.kwkwkStep_ok h
  rw [DecState.fits_iff, DecState.nextLen, hnone] at hfit
  exact DecState.append_writes (by rw [List.length_append]; exact hfit) ha

theorem DecState.consume_writes {cfg : Config} {k : Code} {d d' : DecState} (h : d.consume cfg k = .ok d') :
    DecState.StepWrites cfg d d' := by
  have same := Buf.writtenWithin_self cfg.decOutMax d.obuf
  unfold DecState.consume at h
  split at h
  · cases h
  · obtain ⟨-, -, ⟨-, rfl⟩ | ⟨-, -, -, rfl⟩ | ⟨-, -, -, rfl⟩⟩ := DecState.scanStep_ok h <;> exact ⟨rfl, rfl, same⟩
  · split at h
    · cases h
    · split at h
      · obtain ⟨-, -, hout, b, -, rfl⟩ := DecState.firstStep_ok h
        exact ⟨rfl, rfl, Buf.writtenWithin_set _ b hout⟩
      · obtain ⟨-, -, rfl⟩ := DecState.badFirstStep_ok h
        exact d.fail_writes cfg _ _
  · split at h
    · obtain ⟨-, -, -, rfl⟩ := DecState.fullStep_ok h
      exact d.fail_writes cfg _ _
    · split at h
      · obtain ⟨-, -, -, -, rfl⟩ := DecState.ovfStep_ok h
        exact d.fail_writes cfg _ _
      · split at h
        · exact DecState.knownStep_writes h
        · exact DecState.kwkwkStep_writes h

theorem State.decTurn_writes {s t : State} (h : s.decTurn = .next t) : DecState.StepWrites s.cfg s.dec t.dec := by
  have same := Buf.writtenWithin_self s.cfg.decOutMax s.dec.obuf
  obtain ⟨-, rfl⟩ | ⟨-, d, rfl, hs⟩ := State.decTurn_cases h
  · exact ⟨rfl, rfl, same⟩
  rcases hs with ⟨-, h⟩ | h | ⟨k, h⟩ | h | h
  · exact DecState.consume_writes h
  · obtain ⟨-, -, rfl⟩ := DecState.scanEndStep_ok h
    exact ⟨rfl, rfl, same⟩
  · obtain ⟨-, -, rfl⟩ := DecState.badFirstStep_ok h
    exact s.dec.fail_writes s.cfg _ _
  · obtain ⟨-, -, -, rfl⟩ := DecState.fullStep_ok h
    exact s.dec.fail_writes s.cfg _ _
  · obtain ⟨-, -, rfl⟩ := DecState.endStep_ok h
    exact ⟨rfl, rfl, same⟩

/-! ### The canonical form -/

theorem Memory.wf_withEnc {s : State} {e : EncState} (h : Memory.wf s) (hi : Buf.wf s.cfg.encInMax e.ibuf)
    (ho : Buf.wf encOutMax e.obuf) : Memory.wf (s.withEnc e) := by
  obtain ⟨-, -, hdi, hdo⟩ := h
  exact ⟨hi, ho, hdi, hdo⟩

theorem Memory.wf_withDec {s : State} {d : DecState} (h : Memory.wf s) (hi : Buf.wf s.cfg.decInMax d.ibuf)
    (ho : Buf.wf s.cfg.decOutMax d.obuf) : Memory.wf (s.withDec d) := by
  obtain ⟨hei, heo, -, -⟩ := h
  exact ⟨hei, heo, hi, ho⟩

theorem EncState.start_bufs (cfg : Config) (e : EncState) : (e.start cfg).ibuf = e.ibuf ∧ (e.start cfg).obuf = e.obuf := by
  rw [EncState.start]
  split
  · split <;> exact ⟨rfl, rfl⟩
  · exact ⟨rfl, rfl⟩

theorem DecState.start_bufs (cfg : Config) (d : DecState) : (d.start cfg).ibuf = d.ibuf ∧ (d.start cfg).obuf = d.obuf := by
  rw [DecState.start]
  split
  · split <;> exact ⟨rfl, rfl⟩
  · exact ⟨rfl, rfl⟩

theorem Memory.wf_start {s : State} (h : Memory.wf s) (g : Engine) : Memory.wf (s.start g) := by
  have ⟨hei, heo, hdi, hdo⟩ := h
  cases g with
  | enc =>
    obtain ⟨hi, ho⟩ := s.enc.start_bufs s.cfg
    exact wf_withEnc h (by rwa [hi]) (by rwa [ho])
  | dec =>
    obtain ⟨hi, ho⟩ := s.dec.start_bufs s.cfg
    exact wf_withDec h (by rwa [hi]) (by rwa [ho])

theorem Memory.wf_writeIlen {s : State} (h : Memory.wf s) (g : Engine) (v : Word) : Memory.wf (s.writeIlen g v) := by
  cases g <;> rw [State.writeIlen] <;> split <;> exact h

/-- A host write of an element its buffer has keeps the canonical form (R203). -/
theorem Memory.wf_writeElem {s : State} (h : Memory.wf s) {S : Space} {i : Nat} (hi : i < S.count s.cfg) (v : BitVec 16) :
    Memory.wf (s.writeElem S i v) := by
  have ⟨hei, heo, hdi, hdo⟩ := h
  cases S with
  | encIbuf =>
    rw [State.writeElem]
    split
    · exact wf_withEnc h (Buf.wf_set hei _ hi) heo
    · exact h
  | decIbuf =>
    rw [State.writeElem]
    split
    · exact wf_withDec h (Buf.wf_set hdi v hi) hdo
    · exact h
  | encObuf => exact h
  | decObuf => exact h

theorem Memory.wf_hostAccess {s t : State} {a : BusAccess} (h : Memory.wf s) (ht : s.hostAccess a = .next t) :
    Memory.wf t := by
  rcases State.hostAccess_cases ht with ⟨-, g, -, rfl⟩ | ⟨g, v, -, rfl⟩ | ⟨S, i, v, -, -, hi, rfl⟩ | ⟨r, n, rfl⟩
  · exact wf_start h g
  · exact wf_writeIlen h g v
  · exact wf_writeElem h hi v
  · exact h

theorem Memory.wf_encTurn {s t : State} (h : Memory.wf s) (ht : s.encTurn = .next t) : Memory.wf t := by
  have ⟨hei, heo, _, _⟩ := h
  have hw := State.encTurn_writes ht
  rw [State.encTurn_frame ht]
  exact wf_withEnc h (hw.ibuf ▸ hei) (hw.obuf.wf heo)

theorem Memory.wf_decTurn {s t : State} (h : Memory.wf s) (ht : s.decTurn = .next t) : Memory.wf t := by
  have ⟨_, _, hdi, hdo⟩ := h
  have hw := State.decTurn_writes ht
  rw [State.decTurn_frame ht]
  exact wf_withDec h (hw.ibuf ▸ hdi) (hw.obuf.wf hdo)

theorem Memory.wf_runEvent {s t : State} {ev : Event} (h : Memory.wf s) (ht : s.runEvent ev = .next t) : Memory.wf t := by
  cases ev with
  | host a => exact wf_hostAccess h ht
  | turn g =>
    cases g with
    | enc => exact wf_encTurn h ht
    | dec => exact wf_decTurn h ht
  | reset =>
    cases ht
    exact ⟨rfl, rfl, rfl, rfl⟩

/-- Settles O39: whatever entry of the order of steps is next, what it writes is within the element count. -/
theorem stepKeepsMemoryCanonical : Obligations.StepKeepsMemoryCanonical := fun s _ h ht =>
  Memory.wf_runEvent (s := s.withScript s.nextEvent.2) h ht

/-! ### The input of a busy engine -/

theorem State.hostAccess_resets {s t : State} {a : BusAccess} (h : s.hostAccess a = .next t) : t.resets = s.resets := by
  rcases State.hostAccess_cases h with ⟨-, g, -, rfl⟩ | ⟨g, v, -, rfl⟩ | ⟨S, i, v, -, -, -, rfl⟩ | ⟨r, n, rfl⟩
  · cases g <;> rfl
  · cases g <;> simp only [State.withReply_resets, State.writeIlen] <;> split <;> rfl
  · cases S with
    | encIbuf | decIbuf => simp only [State.withReply_resets, State.writeElem]; split <;> rfl
    | encObuf | decObuf => rfl
  · rfl

/-- Only RESET makes the content of unwritten elements arbitrary anew (R272). -/
theorem State.runEvent_resets {s t : State} {ev : Event} (hr : ev ≠ .reset) (h : s.runEvent ev = .next t) :
    t.resets = s.resets := by
  cases ev with
  | host a => exact State.hostAccess_resets h
  | turn g =>
    cases g with
    | enc => rw [State.encTurn_frame h, State.withEnc_resets]
    | dec => rw [State.decTurn_frame h, State.withDec_resets]
  | reset => exact absurd rfl hr

/-- While ENC is busy the host is ignored and ENC's own turn leaves its input (R69, R73). -/
theorem State.runEvent_encInput {s t : State} {ev : Event} (hr : ev ≠ .reset) (hb : s.enc.phase ≠ .idle)
    (h : s.runEvent ev = .next t) : t.enc.regs.ilen = s.enc.regs.ilen ∧ t.enc.ibuf = s.enc.ibuf := by
  cases ev with
  | host a =>
    obtain ⟨henc, -⟩ := State.hostAccess_engine h
    rw [henc hb]
    exact ⟨rfl, rfl⟩
  | turn g =>
    cases g with
    | enc =>
      have hw := State.encTurn_writes h
      exact ⟨hw.ilen, hw.ibuf⟩
    | dec =>
      rw [State.decTurn_frame h]
      exact ⟨rfl, rfl⟩
  | reset => exact absurd rfl hr

/-- While DEC is busy the host is ignored and DEC's own turn leaves its input (R69, R73). -/
theorem State.runEvent_decInput {s t : State} {ev : Event} (hr : ev ≠ .reset) (hb : s.dec.phase ≠ .idle)
    (h : s.runEvent ev = .next t) : t.dec.regs.ilen = s.dec.regs.ilen ∧ t.dec.ibuf = s.dec.ibuf := by
  cases ev with
  | host a =>
    obtain ⟨-, hdec, -⟩ := State.hostAccess_engine h
    rw [hdec hb]
    exact ⟨rfl, rfl⟩
  | turn g =>
    cases g with
    | enc =>
      rw [State.encTurn_frame h]
      exact ⟨rfl, rfl⟩
    | dec =>
      have hw := State.decTurn_writes h
      exact ⟨hw.ilen, hw.ibuf⟩
  | reset => exact absurd rfl hr

/-- Settles O50: the length and the input buffer of a busy engine stay, and so does the content of unwritten elements. -/
theorem inputIsFixedDuringACall : Obligations.InputIsFixedDuringACall := by
  intro s t ev rest hs hr h
  rw [step_cons hs] at h
  have hres : t.resets = s.resets := State.runEvent_resets (s := s.withScript rest) hr h
  refine ⟨fun hb => ?_, fun hb => ?_⟩
  · obtain ⟨hilen, hibuf⟩ := State.runEvent_encInput (s := s.withScript rest) hr hb h
    exact ⟨hilen, fun i => by rw [EncState.inByte, EncState.inByte, hibuf, hres, State.withScript_enc]⟩
  · obtain ⟨hilen, hibuf⟩ := State.runEvent_decInput (s := s.withScript rest) hr hb h
    exact ⟨hilen, fun i => by rw [DecState.inCode, DecState.inCode, hibuf, hres, State.withScript_dec]⟩

end Sys2Proof.Machine
end

section
/-! Encodings (30_encoding.md R90 to R99): what an operation is encoded as decodes to it again. -/

namespace Sys2Proof.Machine

/-! ### Code words -/

@[simp] theorem decodeCode_codeOfByte (b : Byte) : decodeCode (codeOfByte b) = .lit b := by
  rw [decodeCode, if_pos (isLitCode_codeOfByte b), byteOfCode_codeOfByte]

theorem decodeCode_of_ge {k : Code} (h : 256 ≤ k.toNat) : decodeCode k = .ref k :=
  if_neg (by rw [isLitCode_iff]; omega)

/-! ### The operands of a bus access -/

/-- A register of R38 stands at its offset, and a reserved offset is its own. -/
theorem regAt_offset {r : Reg} (h : r.wellFormed = true) : regAt r.offset = r := by
  cases r with
  | reserved off =>
    show regAt off = .reserved off
    unfold regAt
    split
    case h_15 => rfl
    all_goals exact absurd h (by decide)
  | ctrl g | status g | ilen g | ocnt g | errinfo g => cases g <;> rfl
  | _ => rfl

/-- R38: every register lies in the REG window, at a multiple of 4. -/
theorem Reg.offset_aligned {r : Reg} (h : r.wellFormed = true) : r.offset < 0x1000 ∧ r.offset % 4 = 0 := by
  cases r with
  | reserved off =>
    simp only [Reg.wellFormed, Bool.and_eq_true, decide_eq_true_eq, beq_iff_eq] at h
    exact h.1
  | ctrl g | status g | ilen g | ocnt g | errinfo g => cases g <;> decide
  | _ => decide

/-- R96: bit 0 of a START word is 1 and the operand stands above it. -/
theorem startWord_getLsbD (x : BitVec 31) (i : Nat) :
    (startWord x).getLsbD i = if i < 1 then (1#1).getLsbD i else x.getLsbD (i - 1) := by
  rw [startWord, BitVec.getLsbD_cast]
  exact BitVec.getLsbD_append

/-- The ignored bits of a START word are its bits [31:1] (R96). -/
theorem startWord_extractLsb' (x : BitVec 31) : (startWord x).extractLsb' 1 31 = x := by
  apply BitVec.eq_of_getLsbD_eq
  intro i hi
  simp [startWord_getLsbD, hi]

/-- The bus carries a value of the width of the space's element unchanged (R203). -/
theorem busValue_zeroExtend {S : Space} {v : BitVec 16} (hin : S.isInput = true) (hv : S ≠ .encIbuf ∨ v.toNat < 256) :
    busValue S (v.zeroExtend 32) = v := by
  have hlt := v.isLt
  apply BitVec.eq_of_toNat_eq
  cases S with
  | encIbuf =>
    have hv : v.toNat < 256 := hv.resolve_left (fun h => h rfl)
    simp only [busValue, BitVec.toNat_setWidth]
    omega
  | decIbuf =>
    simp only [busValue, BitVec.toNat_setWidth]
    omega
  | encObuf | decObuf => cases hin

/-! ### Bus accesses -/

theorem decodeBus_readReg (cfg : Config) {r : Reg} (h : r.wellFormed = true) :
    decodeBus cfg (readReg cfg r) = .ok (.hostRdreg r) := by
  obtain ⟨hlt, ha⟩ := Reg.offset_aligned h
  have hoff : (readReg cfg r).addr - cfg.lzwBase = r.offset := Nat.add_sub_cancel_left ..
  rw [decodeBus_reg (Nat.le_add_right ..) (hoff ▸ hlt), hoff, decodeReg_ok_iff, regAt_offset h]
  exact ⟨⟨rfl, ha⟩, .inl ⟨rfl, rfl⟩⟩

theorem decodeBus_writeReg (cfg : Config) {r : Reg} (v : Word) (h : r.wellFormed = true) :
    decodeBus cfg (writeReg cfg r v) = .ok (decodeRegWrite r v) := by
  obtain ⟨hlt, ha⟩ := Reg.offset_aligned h
  have hoff : (writeReg cfg r v).addr - cfg.lzwBase = r.offset := Nat.add_sub_cancel_left ..
  rw [decodeBus_reg (Nat.le_add_right ..) (hoff ▸ hlt), hoff, decodeReg_ok_iff, regAt_offset h]
  exact ⟨⟨rfl, ha⟩, .inr ⟨rfl, rfl⟩⟩

/-- Written to a control register, a START word is the START of its engine (R96). -/
theorem decodeRegWrite_startWord (x : BitVec 31) :
    decodeRegWrite (.ctrl .enc) (startWord x) = .encStart x ∧ decodeRegWrite (.ctrl .dec) (startWord x) = .decStart x := by
  simp [decodeRegWrite, Reg.isStartWrite, startWord_getLsbD, startWord_extractLsb']

theorem decodeBus_readElem {cfg : Config} (hc : cfg.ok) {S : Space} {i : Nat} (hi : i < S.count cfg) :
    decodeBus cfg (readElem cfg S i) = .ok (.hostRdbuf S i) := by
  have haddr : (readElem cfg S i).addr = cfg.lzwBase + (S.window + S.elemBytes * i) := Nat.add_assoc ..
  rw [decodeBus_window hc (haddr ▸ Nat.le_add_right ..) hi (haddr ▸ Nat.add_sub_cancel_left ..), decodeBuf_ok_iff]
  exact ⟨rfl, i, hi, rfl, .inl ⟨rfl, rfl⟩⟩

theorem decodeBus_writeElem {cfg : Config} (hc : cfg.ok) {S : Space} {i : Nat} {v : BitVec 16} (hin : S.isInput = true)
    (hi : i < S.count cfg) (hv : S ≠ .encIbuf ∨ v.toNat < 256) :
    decodeBus cfg (writeElem cfg S i v) = .ok (.hostWrbuf S i v) := by
  have haddr : (writeElem cfg S i v).addr = cfg.lzwBase + (S.window + S.elemBytes * i) := Nat.add_assoc ..
  rw [decodeBus_window hc (haddr ▸ Nat.le_add_right ..) hi (haddr ▸ Nat.add_sub_cancel_left ..), decodeBuf_ok_iff]
  exact ⟨rfl, i, hi, rfl, .inr ⟨rfl, hin, congrArg _ (busValue_zeroExtend hin hv).symm⟩⟩

/-! ### Every operation -/

/-- R99: the dictionary operations, and only they, are selected by nothing. -/
theorem encode_eq_none_iff {cfg : Config} {i : Instr} : encode cfg i = none ↔ i.format = .dictOp := by
  cases i <;> simp [encode, Instr.format]

theorem decode_encode {cfg : Config} (hc : cfg.ok) {i : Instr} (hwf : i.wellFormed cfg = true) {sel : Selector}
    (h : encode cfg i = some sel) : decode cfg sel = .ok i := by
  cases i with
  | dictClear | dictInsert | dictFindp | dictFindc => cases h
  | lit b => cases h; exact congrArg _ (decodeCode_codeOfByte b)
  | ref c => cases h; exact congrArg _ (decodeCode_of_ge (of_decide_eq_true hwf))
  | encStart x => cases h; exact (decodeBus_writeReg cfg _ rfl).trans (congrArg _ (decodeRegWrite_startWord x).1)
  | decStart x => cases h; exact (decodeBus_writeReg cfg _ rfl).trans (congrArg _ (decodeRegWrite_startWord x).2)
  | hostRdreg r => cases h; exact decodeBus_readReg cfg hwf
  | hostWrreg r v =>
    cases h
    obtain ⟨hr, hstart⟩ : r.wellFormed = true ∧ r.isStartWrite v = false := by simpa [Instr.wellFormed] using hwf
    exact (decodeBus_writeReg cfg v hr).trans (congrArg _ (if_neg (by simp [hstart])))
  | hostRdbuf S i => cases h; exact decodeBus_readElem hc (of_decide_eq_true hwf)
  | hostWrbuf S i v =>
    cases h
    obtain ⟨⟨hin, hi⟩, hv⟩ : (S.isInput = true ∧ i < S.count cfg) ∧ (S ≠ .encIbuf ∨ v.toNat < 256) := by
      simpa [Instr.wellFormed] using hwf
    exact decodeBus_writeElem hc hin hi hv
  | encScan | encScanEnd | encHit | encMiss | encFull | encEoi | encFlush => cases h; rfl
  | decScan | decScanEnd | decFirst | decBadFirst | decKnown | decKwkwk | decFull | decOvf | decEnd => cases h; rfl

/-- Settles O2: the two halves, over the constructors of `Instr`. -/
theorem decodeOfEncodeIsIdentity : Obligations.DecodeOfEncodeIsIdentity :=
  fun _ _ hc hwf => ⟨encode_eq_none_iff, fun _ => decode_encode hc hwf⟩

/-- Settles O1: literal words and accesses, each decoded by evaluation. -/
theorem tableWordsDecode : Obligations.TableWordsDecode := by
  unfold Obligations.TableWordsDecode
  decide

end Sys2Proof.Machine
end

section
/-! What DEC does with a code word, row by row of R98, and the row a turn of each engine runs (R94, R98). -/

namespace Sys2Proof.Machine

/-! ### Where DEC consumes a code word -/

theorem DecState.consumesCode_iff {d : DecState} :
    d.consumesCode = true ↔
      (d.phase = .scan ∨ d.phase = .loop) ∧ d.regs.ipos < d.regs.ilen ∨ d.phase = .first ∧ d.regs.ilen ≠ 0 := by
  rw [← CallRegs.cursor_before]
  cases hp : d.phase <;> simp [DecState.consumesCode, hp]

/-- R23: the element DEC's next step reads is one of its input. -/
theorem DecState.codeIndex_lt_ilen {d : DecState} (h : d.consumesCode = true) : d.codeIndex < d.regs.ilen.toNat := by
  obtain ⟨hp, hb⟩ | ⟨hp, hl⟩ := DecState.consumesCode_iff.1 h
  · rw [DecState.codeIndex_ne (by rcases hp with hp | hp <;> simp [hp])]
    exact BitVec.lt_def.1 hb
  · rw [DecState.codeIndex_first hp]
    exact Nat.pos_of_ne_zero fun h => hl (BitVec.eq_of_toNat_eq h)

/-! ### The step R98 selects for a code word -/

section
variable {cfg : Config} {k : Code} {d : DecState}

theorem DecState.consume_first (hp : d.phase = .first) (hl : d.regs.ilen ≠ 0) (hf : d.dict.findC k ≠ none) :
    d.consume cfg k = d.firstStep cfg k := by
  simp only [DecState.consume, hp, if_neg hl, if_pos (Option.isSome_iff_ne_none.2 hf)]

theorem DecState.consume_badFirst (hp : d.phase = .first) (hl : d.regs.ilen ≠ 0) (hf : d.dict.findC k = none) :
    d.consume cfg k = d.badFirstStep (some k) := by
  simp only [DecState.consume, hp, if_neg hl, hf, Option.isSome_none, Bool.false_eq_true, if_false]

theorem DecState.consume_full (hp : d.phase = .loop) (hfull : d.dict.full = true) : d.consume cfg k = d.fullStep := by
  simp [DecState.consume, hp, hfull]

theorem DecState.consume_ovf (hp : d.phase = .loop) (hroom : d.dict.full = false) (hfits : d.fits cfg k = false) :
    d.consume cfg k = d.ovfStep cfg k := by
  simp [DecState.consume, hp, hroom, hfits]

theorem DecState.consume_known (hp : d.phase = .loop) (hroom : d.dict.full = false) (hfits : d.fits cfg k = true)
    (hf : d.dict.findC k ≠ none) : d.consume cfg k = d.knownStep cfg k := by
  simp [DecState.consume, hp, hroom, hfits, Option.isSome_iff_ne_none.2 hf]

theorem DecState.consume_kwkwk (hp : d.phase = .loop) (hroom : d.dict.full = false) (hfits : d.fits cfg k = true)
    (hf : d.dict.findC k = none) : d.consume cfg k = d.kwkwkStep cfg k := by
  simp [DecState.consume, hp, hroom, hfits, hf]

theorem DecState.fits_eq_false : d.fits cfg k = false ↔ cfg.decOutMax < d.regs.opos.toNat + d.nextLen k := by
  rw [← Bool.not_eq_true, DecState.fits_iff, Nat.not_le]

end

/-- On a full table the capacity test of R98 holds (log 16). -/
theorem Dict.full_of_nent_eq {d : Dict} (h : d.nent = 4096) : d.full = true := Dict.full_eq_true.2 h.ge

/-! ### The row a turn of DEC runs -/

/-- A turn of DEC that consumes a code word applies to it the step R98 selects. -/
theorem State.decTurn_consume {s : State} (hlen : s.dec.regs.ilen.toNat ≤ s.cfg.decInMax) (hc : s.dec.consumesCode = true) :
    s.decTurn = s.endDec (s.dec.consume s.cfg (s.dec.inCode s.resets s.dec.codeIndex)) := by
  rw [State.decTurn_code hc (Nat.lt_of_lt_of_le (DecState.codeIndex_lt_ilen hc) hlen), exec_decodeCode]

/-- Where that step reads the element at the cursor, it reads the code word. -/
theorem State.decTurn_withElement {s : State} {f : Code → DecState → Except Fault DecState}
    (hlen : s.dec.regs.ilen.toNat ≤ s.cfg.decInMax) (hc : s.dec.consumesCode = true)
    (hf : s.dec.consume s.cfg (s.dec.inCode s.resets s.dec.codeIndex) = f (s.dec.inCode s.resets s.dec.codeIndex) s.dec) :
    s.decTurn = s.endDec (s.dec.withElement s.cfg s.resets f) := by
  rw [State.decTurn_consume hlen hc, hf,
    DecState.withElement_eq (Nat.lt_of_lt_of_le (DecState.codeIndex_lt_ilen hc) hlen)]

/-- Settles O6: the cursor of SCAN and LOOP is `IPOS`, that of FIRST is 0. -/
theorem stepRunsTheCodeWordAtTheCursor : Obligations.StepRunsTheCodeWordAtTheCursor := by
  intro s rest hs
  rw [step_cons hs]
  have hturn {i : Nat} (hc : s.dec.consumesCode = true) (hidx : s.dec.codeIndex = i) (hi : i < s.cfg.decInMax) :
      (s.withScript rest).decTurn = exec (decodeCode (s.dec.inCode s.resets i)) (s.withScript rest) := by
    subst hidx
    exact State.decTurn_code (s := s.withScript rest) hc hi
  constructor
  · intro hp hb
    exact hturn (DecState.consumesCode_iff.2 (.inl ⟨hp, hb⟩))
      (DecState.codeIndex_ne (by rcases hp with hp | hp <;> simp [hp]))
  · intro hp hl
    exact hturn (DecState.consumesCode_iff.2 (.inr ⟨hp, hl⟩)) (DecState.codeIndex_first hp)

/-- Settles O8: the rows that consume a code word are the step R98 selects for it, with the element at the cursor read. -/
theorem decTurnIsTheSelectedRow : Obligations.DecTurnIsTheSelectedRow := by
  intro s rest hs hlen d k
  rw [step_cons hs]
  have hbefore (hp : d.phase = .scan ∨ d.phase = .loop) (hb : d.regs.ipos < d.regs.ilen) : d.consumesCode = true :=
    DecState.consumesCode_iff.2 (.inl ⟨hp, hb⟩)
  have hfirst (hp : d.phase = .first) (hl : d.regs.ilen ≠ 0) : d.consumesCode = true :=
    DecState.consumesCode_iff.2 (.inr ⟨hp, hl⟩)
  have hloop (hp : d.phase = .loop) : d.inCode s.resets d.codeIndex = k := by
    rw [DecState.codeIndex_ne (by simp [hp])]
  have hroom (hn : d.dict.nent < 4096) : d.dict.full = false := Dict.full_eq_false.2 hn
  refine ⟨fun hp hb => ?_, fun hp hb => ?_, fun hp hl hf => ?_, fun hp hf => ?_, fun hp hb => ?_, fun hp hb hn => ?_,
    fun hp hb hn ho => ?_, fun hp hb hn ho hf => ?_, fun hp hb hn ho hf => ?_⟩
  · exact State.decTurn_withElement (s := s.withScript rest) hlen (hbefore (.inl hp) hb) (DecState.consume_scan hp)
  · exact State.decTurn_scanEnd (s := s.withScript rest) hp (CallRegs.cursor_atEnd.2 hb)
  · refine State.decTurn_withElement (s := s.withScript rest) hlen (hfirst hp hl) (DecState.consume_first hp hl ?_)
    rwa [← DecState.codeIndex_first hp] at hf
  · by_cases hl : d.regs.ilen = 0
    · exact State.decTurn_badFirst_empty (s := s.withScript rest) hp hl
    · refine (State.decTurn_withElement (s := s.withScript rest) (f := fun k => DecState.badFirstStep (some k)) hlen
        (hfirst hp hl) (DecState.consume_badFirst hp hl ?_)).trans (congrArg _ (if_neg hl).symm)
      rw [← DecState.codeIndex_first hp] at hf
      exact hf.resolve_left hl
  · exact State.decTurn_atEnd (s := s.withScript rest) hp (CallRegs.cursor_atEnd.2 hb)
  · exact (State.decTurn_consume (s := s.withScript rest) hlen (hbefore (.inr hp) hb)).trans
      (congrArg _ (DecState.consume_full hp (Dict.full_of_nent_eq hn)))
  · refine State.decTurn_withElement (s := s.withScript rest) hlen (hbefore (.inr hp) hb)
      (DecState.consume_ovf hp (hroom hn) (DecState.fits_eq_false.2 ?_))
    rwa [← hloop hp] at ho
  · rw [← hloop hp] at ho hf
    exact State.decTurn_withElement (s := s.withScript rest) hlen (hbefore (.inr hp) hb)
      (DecState.consume_known hp (hroom hn) (DecState.fits_iff.2 ho) hf)
  · rw [← hloop hp] at ho hf
    exact State.decTurn_withElement (s := s.withScript rest) hlen (hbefore (.inr hp) hb)
      (DecState.consume_kwkwk hp (hroom hn) (DecState.fits_iff.2 ho) hf)

/-! ### The row a turn of ENC runs -/

/-- Settles O7: in MATCH with input left the lookup of `P` and the next byte decides, then the room in the dictionary. -/
theorem encTurnIsTheSelectedRow : Obligations.EncTurnIsTheSelectedRow := by
  intro s rest hs hlen e c
  rw [step_cons hs]
  have hmatch (hp : e.phase = .matching) (hb : e.regs.ipos < e.regs.ilen) :=
    State.encTurn_before (s := s.withScript rest) hp (CallRegs.cursor_before.2 hb)
      (EncState.element_eq (Nat.lt_of_lt_of_le (BitVec.lt_def.1 hb) hlen))
  have hmiss (hf : e.dict.findP (e.p ++ [c]) = none) : ¬ (e.dict.findP (e.p ++ [c])).isSome = true := by simp [hf]
  refine ⟨fun hp hb => ?_, fun hp hb => ?_, fun hp hb hf => ?_, fun hp hb hf hn => ?_, fun hp hb hf hn => ?_,
    fun hp hb => ?_, fun hp => ?_⟩
  · exact State.encTurn_scan (s := s.withScript rest) hp (CallRegs.cursor_before.2 hb)
  · exact State.encTurn_scanEnd (s := s.withScript rest) hp (CallRegs.cursor_atEnd.2 hb)
  · exact (hmatch hp hb).trans (congrArg (exec · _) (if_pos (Option.isSome_iff_ne_none.2 hf)))
  · have hroom : ¬ e.dict.full = true := by simp [Dict.full_eq_false.2 hn]
    exact (hmatch hp hb).trans (congrArg (exec · _) ((if_neg (hmiss hf)).trans (if_neg hroom)))
  · exact (hmatch hp hb).trans
      (congrArg (exec · _) ((if_neg (hmiss hf)).trans (if_pos (Dict.full_of_nent_eq hn))))
  · exact State.encTurn_eoi (s := s.withScript rest) hp (CallRegs.cursor_atEnd.2 hb)
  · exact State.encTurn_flush (s := s.withScript rest) hp

end Sys2Proof.Machine
end

section
/-! A code word, `LIT` or `REF`, where DEC consumes one in a state that meets the invariant (R92 to R94, R171 to R178, R183). -/

namespace Sys2Proof.Machine

/-- A code word as an instruction is DEC consuming the word (log 13). -/
theorem exec_codeWord {s : State} {i : Instr} {k : Code}
    (h : (∃ b : Byte, i = .lit b ∧ k = b.zeroExtend 16) ∨ (i = .ref k ∧ 256 ≤ k.toNat)) :
    exec i s = s.endDec (s.dec.consume s.cfg k) := by
  obtain ⟨b, rfl, rfl⟩ | ⟨rfl, -⟩ := h <;> rfl

/-! ### SCAN -/

/-- R34: the literal entries have different codes of at most 255, so there are at most 256. -/
theorem DictInv.literals_le {d : Dict} (h : DictInv d) : d.literals.length ≤ 256 := by
  have hnodup : (d.literals.map fun e => e.code.toNat).Nodup := by
    have := h.literalOnce.map (f := BitVec.toNat) fun _ _ => BitVec.eq_of_toNat_eq
    rwa [List.map_map] at this
  have hsub : (d.literals.map fun e => e.code.toNat) ⊆ List.range 256 := by
    intro n hn
    obtain ⟨e, he, rfl⟩ := List.mem_map.1 hn
    have hle := isLitCode_iff.1 (List.mem_filter.1 he).2
    exact List.mem_range.2 (by omega)
  simpa using (hnodup.subperm hsub).length_le

/-- A dictionary of literals alone has room (R123). -/
theorem DictInv.full_of_literals {d : Dict} (h : DictInv d) (hm : d.multi = []) : d.full = false := by
  have hlen := h.literals_le
  rw [Dict.full_eq_false, DictInv.length_split, hm, List.length_nil, dictCap]
  omega

/-- R171: a new literal is inserted, any other code only moves the cursor. -/
theorem DecInv.scanStep_effect {cfg : Config} {r : Nat} {d d' : DecState} {k : Code} (h : DecInv cfg r d)
    (hd : d.scanStep k = .ok d') :
    d'.phase = .scan ∧ d'.regs = { d.regs with ipos := d.regs.ipos + 1 } ∧ d'.obuf = d.obuf ∧ d'.last = d.last ∧
      d'.dict.next = d.dict.next ∧
      (k.toNat ≤ 255 → (∀ e ∈ d.dict.ent, e.code ≠ k) → d'.dict.ent = d.dict.ent ++ [⟨k, [byteOfCode k]⟩]) ∧
      (256 ≤ k.toNat ∨ (∃ e ∈ d.dict.ent, e.code = k) → d'.dict = d.dict) := by
  obtain ⟨hp, -, ⟨hk, rfl⟩ | ⟨hlit, hnew, -, rfl⟩ | ⟨-, -, hfull, -⟩⟩ := DecState.scanStep_ok hd
  · refine ⟨hp, rfl, rfl, rfl, rfl, fun hle hnone => ?_, fun _ => rfl⟩
    have hmem := hk.resolve_left (by simp [isLitCode_iff.2 hle])
    obtain ⟨e, he, rfl⟩ := List.mem_map.1 hmem
    exact absurd rfl (hnone e he)
  · refine ⟨hp, rfl, rfl, rfl, rfl, fun _ _ => by rw [codeOfByte_byteOfCode hlit], ?_⟩
    rintro (hge | ⟨e, he, rfl⟩)
    · have hle := isLitCode_iff.1 hlit
      omega
    · exact absurd (List.mem_map_of_mem he) hnew
  · obtain ⟨hm, -⟩ := h.scan hp
    rw [h.dict.full_of_literals hm] at hfull
    cases hfull

/-! ### FIRST -/

/-- R184: in FIRST the dictionary holds literals only, so what is found is the byte of the code. -/
theorem DecInv.findC_first {cfg : Config} {r : Nat} {d : DecState} (h : DecInv cfg r d) (hp : d.phase = .first) {k : Code}
    {q : Pattern} (hf : d.dict.findC k = some q) : q = [byteOfCode k] := by
  obtain ⟨-, hm, -⟩ := h.first hp
  have hent := Dict.mem_ent_iff.1 (Dict.mem_of_findC hf)
  rw [hm] at hent
  exact h.dict.literalPattern _ (hent.resolve_right (by simp))

/-! ### LOOP -/

section
variable {cfg : Config} {r : Nat} {d : DecState}

/-- R28: in LOOP the last pattern has a byte. -/
theorem DecInv.last_pos (h : DecInv cfg r d) (hp : d.phase = .loop) : 1 ≤ d.last.length := by
  obtain ⟨hlast, -⟩ := h.loop hp
  exact (h.dict.length_le hlast).1

/-- The length R98 compares with the bound is that of the pattern `next` of R180. -/
theorem DecInv.nextLen_eq (h : DecInv cfg r d) (hp : d.phase = .loop) (k : Code) :
    d.nextLen k = (decodeNext d.dict d.last k).1.length := by
  have hlast := h.last_pos hp
  rw [DecState.nextLen, decodeNext]
  cases d.dict.findC k with
  | some q => rfl
  | none => simp [hlast]

/-- The pattern `new` of R180 is `LAST` and one byte. -/
theorem DecInv.length_decodeNext_new (h : DecInv cfg r d) (hp : d.phase = .loop) (k : Code) :
    (decodeNext d.dict d.last k).2.length = d.last.length + 1 := by
  have hlast := h.last_pos hp
  rw [decodeNext]
  cases hf : d.dict.findC k with
  | some q =>
    have hq := List.length_pos_iff.2 (h.dict.pattern_ne_nil (Dict.mem_of_findC hf))
    rw [List.length_append, List.length_take_of_le hq]
  | none => rw [List.length_append, List.length_take_of_le hlast]

/-- With room in the table and in the output, DEC appends the patterns of R180 (R175, R176, R183). -/
theorem DecState.consume_append {k : Code} {d' : DecState} (hp : d.phase = .loop) (hroom : d.dict.full = false)
    (hfits : d.fits cfg k = true) (hd : d.consume cfg k = .ok d') :
    d.append (decodeNext d.dict d.last k).2 (decodeNext d.dict d.last k).1 = .ok d' := by
  rw [decodeNext]
  cases hf : d.dict.findC k with
  | some q =>
    rw [DecState.consume_known hp hroom hfits (by simp [hf])] at hd
    obtain ⟨-, -, -, -, r0, r, hq, ha⟩ := DecState.knownStep_ok hd
    obtain rfl := Option.some.inj (hf.symm.trans hq)
    exact ha
  | none =>
    rw [DecState.consume_kwkwk hp hroom hfits hf] at hd
    obtain ⟨-, -, -, -, -, l0, l, hl, ha⟩ := DecState.kwkwkStep_ok hd
    rw [hl] at ha ⊢
    exact ha

/-- The loop's tail on a multi-byte pattern and an output that fits: one entry, `next` at the output cursor, both cursors
moved (R175, R176). -/
theorem DecState.append_effect {new next : Pattern} {d' : DecState} (hnew : new.length ≠ 1)
    (hfit : d.regs.opos.toNat + next.length < 2 ^ 32) (ha : d.append new next = .ok d') :
    d'.phase = d.phase ∧ d'.last = next ∧ d'.dict.ent = d.dict.ent ++ [⟨d.dict.next, new⟩] ∧
      d'.dict.next = d.dict.next + 1 ∧ d'.regs = { d.regs with opos := d'.regs.opos, ipos := d.regs.ipos + 1 } ∧
      d'.regs.opos.toNat = d.regs.opos.toNat + next.length ∧
      (∀ n (h : n < next.length), d'.obuf.get? (d.regs.opos.toNat + n) = some next[n]) ∧
      ∀ j, j < d.regs.opos.toNat ∨ d.regs.opos.toNat + next.length ≤ j → d'.obuf.get? j = d.obuf.get? j := by
  obtain ⟨n, t, hins, rfl⟩ := DecState.append_ok ha
  obtain ⟨-, hent, hcode⟩ := Dict.insert_cases hins
  obtain ⟨-, rfl, hnext⟩ := hcode.resolve_left fun ⟨b, hb, _⟩ => hnew (by simp [hb])
  refine ⟨rfl, rfl, hent, hnext, rfl, ?_, fun n hn => ?_, fun j hj => ?_⟩
  · rw [BitVec.toNat_add, BitVec.toNat_ofNat, Nat.add_mod_mod, Nat.mod_eq_of_lt hfit]
  · rw [Buf.get?_setMany, if_pos (by omega), Nat.add_sub_cancel_left, List.getElem?_eq_getElem hn]
  · rw [Buf.get?_setMany, if_neg (by omega)]

end

/-- Settles O34: under the invariant the step completes, and in each phase it is the one row of R98 selected for the word. -/
theorem codeWordIsConsumed : Obligations.CodeWordIsConsumed := by
  intro s i k hinv hc hi
  have h := hinv.dec
  obtain ⟨d, hd⟩ := DecInv.consume_enabled hinv.config h hc k
  have hl (hp : s.dec.phase = .first) : s.dec.regs.ilen ≠ 0 := by simpa [DecState.consumesCode, hp] using hc
  have hroom (hn : s.dec.dict.nent < 4096) : s.dec.dict.full = false := Dict.full_eq_false.2 hn
  have hword {n : Nat} (hn : n ≤ s.cfg.decOutMax) : n < 2 ^ 32 := by
    obtain ⟨-, -, ⟨-, hmax⟩, -⟩ := hinv.config
    omega
  refine ⟨d, by rw [exec_codeWord hi, hd]; rfl, (DecState.consume_writes hd).ibuf, fun hp => ?_, fun hp hf => ?_,
    fun hp hf => ?_, fun hp hn => ?_, fun hp hn ho => ?_, fun hp hn ho => ?_⟩
  · rw [DecState.consume_scan hp] at hd
    exact h.scanStep_effect hd
  · rw [DecState.consume_badFirst hp (hl hp) hf] at hd
    obtain ⟨-, -, rfl⟩ := DecState.badFirstStep_ok hd
    rfl
  · rw [DecState.consume_first hp (hl hp) hf] at hd
    obtain ⟨-, -, -, b, hb, rfl⟩ := DecState.firstStep_ok hd
    obtain rfl : b = byteOfCode k := List.singleton_inj.1 (h.findC_first hp hb)
    exact ⟨rfl, rfl, rfl, rfl, Buf.get?_set_self .., fun j hj => Buf.get?_set_ne _ _ hj⟩
  · rw [DecState.consume_full hp (Dict.full_of_nent_eq hn)] at hd
    obtain ⟨-, -, -, rfl⟩ := DecState.fullStep_ok hd
    rfl
  · rw [← h.nextLen_eq hp] at ho
    rw [DecState.consume_ovf hp (hroom hn) (DecState.fits_eq_false.2 ho)] at hd
    obtain ⟨-, -, -, -, rfl⟩ := DecState.ovfStep_ok hd
    rfl
  · have hnew : (decodeNext s.dec.dict s.dec.last k).2.length ≠ 1 := by
      have hlast := h.last_pos hp
      rw [h.length_decodeNext_new hp]
      omega
    have hfits : s.dec.fits s.cfg k = true := by rwa [DecState.fits_iff, h.nextLen_eq hp]
    have ha := DecState.append_effect hnew (hword ho) (DecState.consume_append hp (hroom hn) hfits hd)
    rwa [hp] at ha

end Sys2Proof.Machine
end

section
/-! A step or code word run where R98 does not select it stops (log 11): a step that completes had the condition of its row. -/

namespace Sys2Proof.Machine

/-- If a step of ENC completes under a condition only, it stops where the condition does not hold. -/
theorem State.endEnc_stops {s : State} {r : Except Fault EncState} {C : Prop} (hr : ∀ e, r = .ok e → C) (h : ¬ C) :
    ∃ f, s.endEnc r = .fault f := by
  cases r with
  | ok e => exact absurd (hr e rfl) h
  | error f => exact ⟨f, rfl⟩

/-- If a step of DEC completes under a condition only, it stops where the condition does not hold. -/
theorem State.endDec_stops {s : State} {r : Except Fault DecState} {C : Prop} (hr : ∀ d, r = .ok d → C) (h : ¬ C) :
    ∃ f, s.endDec r = .fault f := by
  cases r with
  | ok d => exact absurd (hr d rfl) h
  | error f => exact ⟨f, rfl⟩

/-- The same of a step on the element at DEC's cursor. -/
theorem State.withElement_stops {s : State} {f : Code → DecState → Except Fault DecState} {C : Prop}
    (hf : ∀ d, f (s.dec.inCode s.resets s.dec.codeIndex) s.dec = .ok d → C) (h : ¬ C) :
    ∃ e, s.endDec (s.dec.withElement s.cfg s.resets f) = .fault e :=
  State.endDec_stops (fun d hd => hf d (DecState.withElement_ok hd).2) h

/-! ### Idle engines (R22) -/

/-- Every ENC step needs a busy ENC. -/
theorem exec_encFsm_idle {s : State} (hp : s.enc.phase = .idle) {i : Instr} (hi : i.format = .encFsm) :
    exec i s = .fault .notEnabled := by
  cases i with
  | encScan => simp [execEncScan, EncState.scanStep, hp]
  | encScanEnd => simp [execEncScanEnd, EncState.scanEndStep, hp]
  | encHit => simp [execEncHit, EncState.hitStep, hp]
  | encMiss => simp [execEncMiss, EncState.missStep, hp]
  | encFull => simp [execEncFull, EncState.fullStep, hp]
  | encEoi => simp [execEncEoi, EncState.eoiStep, hp]
  | encFlush => simp [execEncFlush, EncState.flushStep, hp]
  | _ => cases hi

/-- A step on the element at the cursor that is not enabled for any code stops, out of range where there is no element. -/
theorem State.withElement_notEnabled {s : State} (hp : s.dec.phase = .idle) {f : Code → DecState → Except Fault DecState}
    (hf : ∀ k, f k s.dec = .error .notEnabled) :
    ∃ e, s.endDec (s.dec.withElement s.cfg s.resets f) = .fault e ∧
      (s.dec.regs.ipos.toNat < s.cfg.decInMax → e = .notEnabled) := by
  have hidx := DecState.codeIndex_ne (d := s.dec) (by simp [hp])
  by_cases hi : s.dec.codeIndex < s.cfg.decInMax
  · rw [DecState.withElement_eq hi, hf]
    exact ⟨_, rfl, fun _ => rfl⟩
  · refine ⟨.outOfRange, ?_, fun h => absurd (hidx ▸ h) hi⟩
    simp [DecState.withElement, DecState.element, hi]

/-- Every DEC step and every code word needs a busy DEC. -/
theorem exec_decFsm_idle {s : State} (hp : s.dec.phase = .idle) {i : Instr} (hi : i.format = .decFsm ∨ i.format = .code16) :
    ∃ f, exec i s = .fault f ∧ (s.dec.regs.ipos.toNat < s.cfg.decInMax → f = .notEnabled) := by
  have stop {r : Except Fault DecState} (h : r = .error .notEnabled) :
      ∃ f, s.endDec r = .fault f ∧ (s.dec.regs.ipos.toNat < s.cfg.decInMax → f = .notEnabled) :=
    ⟨_, congrArg s.endDec h, fun _ => rfl⟩
  cases i with
  | lit b => exact stop (by simp [DecState.consume, hp])
  | ref c => exact stop (by simp [DecState.consume, hp])
  | decScan => exact State.withElement_notEnabled hp fun k => by simp [DecState.scanStep, hp]
  | decScanEnd => exact stop (by simp [DecState.scanEndStep, hp])
  | decFirst => exact State.withElement_notEnabled hp fun k => by simp [DecState.firstStep, hp]
  | decBadFirst =>
    show ∃ f, execDecBadFirst s = .fault f ∧ _
    rw [execDecBadFirst]
    split
    · exact stop (by simp [DecState.badFirstStep, hp])
    · exact State.withElement_notEnabled hp fun k => by simp [DecState.badFirstStep, hp]
  | decKnown => exact State.withElement_notEnabled hp fun k => by simp [DecState.knownStep, hp]
  | decKwkwk => exact State.withElement_notEnabled hp fun k => by simp [DecState.kwkwkStep, hp]
  | decFull => exact stop (by simp [DecState.fullStep, hp])
  | decOvf => exact State.withElement_notEnabled hp fun k => by simp [DecState.ovfStep, hp]
  | decEnd => exact stop (by simp [DecState.endStep, hp])
  | _ => rcases hi with hi | hi <;> cases hi

/-! ### The condition of a row is what its step needs -/

/-- `DEC.BADFIRST` completes under its row of R98 only. -/
theorem exec_decBadFirst_stops {s : State}
    (h : ¬ (s.dec.phase = .first ∧ (s.dec.regs.ilen = 0 ∨ s.dec.dict.findC (s.dec.inCode s.resets 0) = none))) :
    ∃ f, exec .decBadFirst s = .fault f := by
  refine State.endDec_stops (fun d hd => ?_) h
  split at hd
  · obtain ⟨hp, -, -⟩ := DecState.badFirstStep_ok hd
    exact ⟨hp, .inl ‹_›⟩
  · obtain ⟨-, hk⟩ := DecState.withElement_ok hd
    obtain ⟨hp, hf, -⟩ := DecState.badFirstStep_ok hk
    rw [DecState.codeIndex_first hp] at hf
    exact ⟨hp, hf⟩

/-- A code word is consumed only where DEC consumes one. -/
theorem DecState.consumesCode_of_consume {cfg : Config} {k : Code} {d d' : DecState} (h : d.consume cfg k = .ok d') :
    d.consumesCode = true := by
  rw [DecState.consumesCode_iff]
  unfold DecState.consume at h
  split at h
  · cases h
  · obtain ⟨hp, hb, -⟩ := DecState.scanStep_ok h
    exact .inl ⟨.inl hp, hb⟩
  · rename_i hp
    split at h
    · cases h
    · exact .inr ⟨hp, ‹_›⟩
  · rename_i hp
    refine .inl ⟨.inr hp, ?_⟩
    split at h
    · obtain ⟨-, hb, -⟩ := DecState.fullStep_ok h
      exact hb
    · split at h
      · obtain ⟨-, hb, -⟩ := DecState.ovfStep_ok h
        exact hb
      · split at h
        · obtain ⟨-, hb, -⟩ := DecState.knownStep_ok h
          exact hb
        · obtain ⟨-, hb, -⟩ := DecState.kwkwkStep_ok h
          exact hb

theorem exec_code16_stops {s : State} (h : ¬ s.dec.consumesCode = true) {i : Instr} (hi : i.format = .code16) :
    ∃ f, exec i s = .fault f := by
  cases i with
  | lit b => exact State.endDec_stops (fun _ => DecState.consumesCode_of_consume) h
  | ref c => exact State.endDec_stops (fun _ => DecState.consumesCode_of_consume) h
  | _ => cases hi

/-- Settles O36: a step that completes shows the condition of its row, by what each step can do. -/
theorem unselectedStepStops : Obligations.UnselectedStepStops := by
  intro s e c d k
  have hloop (hp : d.phase = .loop) : d.inCode s.resets d.codeIndex = k := by
    rw [DecState.codeIndex_ne (by simp [hp])]
  refine ⟨fun hp i => exec_encFsm_idle hp, fun hp i => exec_decFsm_idle hp,
    State.endEnc_stops fun e' h => ?encScan, State.endEnc_stops fun e' h => ?encScanEnd,
    State.endEnc_stops fun e' h => ?encHit, State.endEnc_stops fun e' h => ?encMiss,
    State.endEnc_stops fun e' h => ?encFull, State.endEnc_stops fun e' h => ?encEoi,
    State.endEnc_stops fun e' h => (EncState.flushStep_ok h).1,
    State.withElement_stops fun d' h => ?decScan, State.endDec_stops fun d' h => ?decScanEnd,
    State.withElement_stops fun d' h => ?decFirst, exec_decBadFirst_stops,
    State.withElement_stops fun d' h => ?decKnown, State.withElement_stops fun d' h => ?decKwkwk,
    State.endDec_stops fun d' h => ?decFull, State.withElement_stops fun d' h => ?decOvf,
    State.endDec_stops fun d' h => ?decEnd,
    fun h i => exec_code16_stops (mt DecState.consumesCode_iff.1 h)⟩
  case encScan =>
    obtain ⟨hp, hb, -⟩ := EncState.scanStep_ok h
    exact ⟨hp, hb⟩
  case encScanEnd =>
    obtain ⟨hp, hb, -⟩ := EncState.scanEndStep_ok h
    exact ⟨hp, hb⟩
  case encHit =>
    obtain ⟨hp, hb, -, hf, -⟩ := EncState.hitStep_ok h
    exact ⟨hp, hb, mt Dict.findP_eq_none.1 (not_not.2 hf)⟩
  case encMiss =>
    obtain ⟨hp, hb, -, hf, hroom, -⟩ := EncState.missStep_ok h
    exact ⟨hp, hb, Dict.findP_eq_none.2 hf, Dict.full_eq_false.1 hroom⟩
  case encFull =>
    obtain ⟨hp, hb, -, hf, hfull, -⟩ := EncState.fullStep_ok h
    exact ⟨hp, hb, Dict.findP_eq_none.2 hf, Dict.full_eq_true.1 hfull⟩
  case encEoi =>
    obtain ⟨hp, hb, -⟩ := EncState.eoiStep_ok h
    exact ⟨hp, hb⟩
  case decScan =>
    obtain ⟨hp, hb, -⟩ := DecState.scanStep_ok h
    exact ⟨hp, hb⟩
  case decScanEnd =>
    obtain ⟨hp, hb, -⟩ := DecState.scanEndStep_ok h
    exact ⟨hp, hb⟩
  case decFirst =>
    obtain ⟨hp, hl, -, b, hf, -⟩ := DecState.firstStep_ok h
    rw [DecState.codeIndex_first hp] at hf
    exact ⟨hp, hl, Option.ne_none_iff_exists'.2 ⟨_, hf⟩⟩
  case decKnown =>
    obtain ⟨hp, hb, hroom, hfits, r0, r, hf, -⟩ := DecState.knownStep_ok h
    rw [hloop hp] at hfits hf
    exact ⟨hp, hb, Dict.full_eq_false.1 hroom, DecState.fits_iff.1 hfits, Option.ne_none_iff_exists'.2 ⟨_, hf⟩⟩
  case decKwkwk =>
    obtain ⟨hp, hb, hroom, hfits, hf, -⟩ := DecState.kwkwkStep_ok h
    rw [hloop hp] at hfits hf
    exact ⟨hp, hb, Dict.full_eq_false.1 hroom, DecState.fits_iff.1 hfits, hf⟩
  case decFull =>
    obtain ⟨hp, hb, hfull, -⟩ := DecState.fullStep_ok h
    exact ⟨hp, hb, Dict.full_eq_true.1 hfull⟩
  case decOvf =>
    obtain ⟨hp, hb, hroom, hfits, -⟩ := DecState.ovfStep_ok h
    rw [hloop hp] at hfits
    exact ⟨hp, hb, Dict.full_eq_false.1 hroom, DecState.fits_eq_false.1 hfits⟩
  case decEnd =>
    obtain ⟨hp, hb, -⟩ := DecState.endStep_ok h
    exact ⟨hp, hb⟩

end Sys2Proof.Machine
end

section
/-! The dictionary operations as instructions of their own (R120 to R127), and the bound on the entries through SCAN. -/

namespace Sys2Proof.Machine

/-! ### The dictionary of an engine -/

@[simp] theorem State.dictOf_setDict (s : State) (g : Engine) (d : Dict) : (s.setDict g d).dictOf g = d := by
  cases g <;> rfl

@[simp] theorem State.dictOf_withDictRet (s : State) (g : Engine) (r : DictRet) : (s.withDictRet r).dictOf g = s.dictOf g := by
  cases g <;> rfl

@[simp] theorem State.setDict_setDict (s : State) (g : Engine) (c d : Dict) : (s.setDict g c).setDict g d = s.setDict g d := by
  cases g <;> rfl

theorem State.setDict_withDictRet (s : State) (g : Engine) (d : Dict) (r : DictRet) :
    (s.withDictRet r).setDict g d = (s.setDict g d).withDictRet r := by
  cases g <;> rfl

/-- Settles O19: the state after it is the state before with the empty dictionary and no result. -/
theorem dictClearEmpties : Obligations.DictClearEmpties := by
  intro T s
  have hdict : ((s.setDict T .empty).withDictRet .none).dictOf T = .empty := by
    rw [State.dictOf_withDictRet, State.dictOf_setDict]
  refine ⟨_, rfl, congrArg Dict.ent hdict, congrArg Dict.nent hdict, congrArg Dict.next hdict, fun d => ?_⟩
  rw [State.setDict_withDictRet, State.setDict_setDict]

/-! ### Insertion -/

/-- With room `INSERT` succeeds (R123); what it then does is `Dict.insert_cases`. -/
theorem Dict.insert_of_room {d : Dict} (h : d.nent < 4096) (p : Pattern) : ∃ k d', d.insert p = some (k, d') := by
  cases hi : d.insert p with
  | none => exact absurd (Dict.full_eq_true.1 (Dict.insert_eq_none.1 hi)) (Nat.not_le.2 h)
  | some r => exact ⟨r.1, r.2, rfl⟩

section
variable {T : Engine} {p : Pattern} {s : State}

theorem execDictInsert_full (h : (s.dictOf T).insert p = none) :
    execDictInsert T p s = .next ((s.fail T .capacity).withDictRet .failed) := by
  rw [execDictInsert, h]

theorem execDictInsert_pattern {k : Code} {d : Dict} (h : (s.dictOf T).insert p = some (k, d)) (hp : p ≠ []) :
    execDictInsert T p s = .next ((s.setDict T d).withDictRet (.code k)) := by
  rw [execDictInsert, h]
  exact if_neg hp

theorem execDictInsert_empty {r : Code × Dict} (h : (s.dictOf T).insert p = some r) (hp : p = []) :
    execDictInsert T p s = .fault .illegalOperand := by
  rw [execDictInsert, h]
  exact if_pos hp

end

/-- Settles O20: with room by what `INSERT` can do, on a full dictionary by its failure. -/
theorem dictInsertAppendsOneEntry : Obligations.DictInsertAppendsOneEntry := by
  intro T p s
  refine ⟨fun hp hroom => ?_, fun hfull => ?_, fun hp hroom => ?_⟩
  · obtain ⟨k, d, hins⟩ := Dict.insert_of_room hroom p
    obtain ⟨-, hent, hcode⟩ := Dict.insert_cases hins
    refine ⟨k, d, execDictInsert_pattern hins (List.length_pos_iff.1 hp), hent, ?_, fun b hb => ?_, fun h2 => ?_⟩
    · rw [Dict.nent, Dict.nent, hent, List.length_append, List.length_singleton]
    · obtain ⟨c, hc, hk, hnext⟩ | ⟨hlen, -⟩ := hcode
      · obtain rfl : c = b := List.singleton_inj.1 (hc.symm.trans hb)
        exact ⟨hk, hnext⟩
      · exact absurd (congrArg List.length hb) hlen
    · obtain ⟨c, rfl, -⟩ | ⟨-, hk⟩ := hcode
      · exact absurd h2 (Nat.not_succ_le_self 1)
      · exact hk
  · exact execDictInsert_full (Dict.insert_eq_none.2 (Dict.full_eq_true.2 (Nat.le_of_eq hfull.symm)))
  · obtain ⟨k, d, hins⟩ := Dict.insert_of_room hroom p
    exact execDictInsert_empty hins (List.length_eq_zero_iff.1 hp)

/-! ### Lookups -/

/-- Where all matches are one value, the pick does not depend on the list that holds them (R127). -/
theorem pickMatch_congr {α : Type} {f : List α → Nat} {l l' : List α} (hmem : ∀ x, x ∈ l' ↔ x ∈ l)
    (hone : ∀ x ∈ l, ∀ y ∈ l, x = y) : pickMatch f l' = pickMatch f l := by
  have hnil : l' = [] ↔ l = [] := by simp only [List.eq_nil_iff_forall_not_mem, hmem]
  cases h : pickMatch f l with
  | none => exact pickMatch_eq_none.2 (hnil.2 (pickMatch_eq_none.1 h))
  | some x =>
    cases h' : pickMatch f l' with
    | none => rw [pickMatch_eq_none.2 (hnil.1 (pickMatch_eq_none.1 h'))] at h; exact nomatch h
    | some y => exact congrArg some (hone y ((hmem y).1 (mem_of_pickMatch h')) x (mem_of_pickMatch h))

/-- With no pattern twice, `FINDP` depends on the set of entries only (R127). -/
theorem Dict.findP_congr {d d' : Dict} (hd : d.patterns.Nodup) (h : ∀ e, e ∈ d'.ent ↔ e ∈ d.ent) (p : Pattern) :
    d'.findP p = d.findP p := by
  refine pickMatch_congr (fun k => ?_) fun k hk j hj => ?_
  · rw [Dict.mem_codesOf, Dict.mem_codesOf, h]
  · exact congrArg Entry.code (List.inj_on_of_nodup_map hd (Dict.mem_codesOf.1 hk) (Dict.mem_codesOf.1 hj) rfl)

/-- Settles O21: what `FINDP` can answer, and that with no pattern twice the set of entries gives it. -/
theorem dictFindpIsExactMatch : Obligations.DictFindpIsExactMatch := by
  intro T p s
  refine ⟨(s.dictOf T).findP p, rfl, ?_, fun _ => Dict.mem_of_findP, fun hd s' h => ?_⟩
  · rw [Dict.findP_eq_none, Dict.patterns, List.mem_map, not_exists]
    exact forall_congr' fun _ => not_and
  · rw [exec_dictFindp, execDictFindp, Dict.findP_congr hd h]

/-- R34 item 1: an entry is known by its code. -/
theorem DictInv.pattern_unique {d : Dict} (h : DictInv d) {k : Code} {p q : Pattern} (hp : (⟨k, p⟩ : Entry) ∈ d.ent)
    (hq : (⟨k, q⟩ : Entry) ∈ d.ent) : p = q :=
  congrArg Entry.pat (List.inj_on_of_nodup_map h.codes_nodup hp hq rfl)

/-- Under the rules of R34, `FINDC` depends on the set of entries only (R127). -/
theorem DictInv.findC_congr {d d' : Dict} (hd : DictInv d) (h : ∀ e, e ∈ d'.ent ↔ e ∈ d.ent) (k : Code) :
    d'.findC k = d.findC k := by
  refine pickMatch_congr (fun p => ?_) fun p hp q hq => ?_
  · rw [Dict.mem_patternsOf, Dict.mem_patternsOf, h]
  · exact hd.pattern_unique (Dict.mem_patternsOf.1 hp) (Dict.mem_patternsOf.1 hq)

/-- R126: every code from 256 up to `NEXT` is the code of an entry, and no code from `NEXT` on is. -/
theorem DictInv.mem_codes_iff {d : Dict} (h : DictInv d) {k : Code} (hk : 256 ≤ k.toNat) :
    k ∈ d.ent.map Entry.code ↔ k.toNat < d.next.toNat := by
  constructor
  · intro hmem
    obtain ⟨e, he, rfl⟩ := List.mem_map.1 hmem
    exact (h.multi_code_lt (Dict.mem_multi_iff.2 ⟨he, hk⟩)).2
  · intro hlt
    have hrange : k.toNat ∈ d.multi.map fun e => e.code.toNat := by
      rw [h.multiCodes, List.mem_range'_1]
      rw [h.next] at hlt
      exact ⟨hk, hlt⟩
    obtain ⟨e, he, hcode⟩ := List.mem_map.1 hrange
    exact List.mem_map.2 ⟨e, (Dict.mem_multi_iff.1 he).1, BitVec.eq_of_toNat_eq hcode⟩

/-- Settles O22: what `FINDC` can answer, and under the rules of R34 which codes it finds and that they are found once. -/
theorem dictFindcIsExactMatch : Obligations.DictFindcIsExactMatch := by
  intro T k s
  refine ⟨(s.dictOf T).findC k, rfl, ?_, fun _ => Dict.mem_of_findC, fun h hk => ?_, fun h _ _ => h.pattern_unique,
    fun hd s' h => ?_⟩
  · rw [Dict.findC_eq_none, List.mem_map, not_exists]
    exact forall_congr' fun _ => not_and
  · rw [ne_eq, Dict.findC_eq_none, not_not, h.mem_codes_iff hk]
  · rw [exec_dictFindc, execDictFindc, hd.findC_congr h]

/-! ### The entries through SCAN -/

/-- There are at most 256 literal entries: their codes are different numbers below 256 (R34 items 1 and 2). -/
theorem DictInv.literals_length_le {d : Dict} (h : DictInv d) : d.literals.length ≤ 256 := by
  have hnodup : ((d.literals.map Entry.code).map BitVec.toNat).Nodup :=
    h.literalOnce.map fun _ _ => BitVec.eq_of_toNat_eq
  have hsub : (d.literals.map Entry.code).map BitVec.toNat ⊆ List.range 256 := by
    intro n hn
    obtain ⟨k, hk, rfl⟩ := List.mem_map.1 hn
    obtain ⟨e, he, rfl⟩ := List.mem_map.1 hk
    exact List.mem_range.2 (Nat.lt_succ_of_le (Dict.mem_literals_iff.1 he).2)
  simpa using (List.subperm_of_subset hnodup hsub).length_le

/-- A dictionary of literals only holds at most 256 entries (R123, R141, R171). -/
theorem DictInv.nent_le_of_multi_eq_nil {d : Dict} (h : DictInv d) (hm : d.multi = []) : d.nent ≤ 256 := by
  rw [Dict.nent, DictInv.length_split, hm]
  exact h.literals_length_le

/-- Settles O44: in these phases the invariant has literal entries only. -/
theorem scanNeverFillsTheDictionary : Obligations.ScanNeverFillsTheDictionary := by
  intro s h
  refine ⟨fun hp => ?_, fun hp => ?_⟩
  · obtain ⟨hm, -⟩ := h.enc.scan hp
    exact h.enc.dict.nent_le_of_multi_eq_nil hm
  · refine h.dec.dict.nent_le_of_multi_eq_nil ?_
    obtain hp | hp := hp
    · exact (h.dec.scan hp).1
    · obtain ⟨-, hm, -⟩ := h.dec.first hp
      exact hm

end Sys2Proof.Machine
end

section
/-! What each step of ENC writes, and START (R140 to R147). -/

namespace Sys2Proof.Machine

/-! ### START -/

section
variable {cfg : Config} {e : EncState}

theorem EncState.start_busy (hp : e.phase ≠ .idle) : e.start cfg = e := if_neg hp

theorem EncState.start_idle (hp : e.phase = .idle) (hlen : e.regs.ilen.toNat ≤ cfg.encInMax) :
    e.start cfg = { e with phase := .scan, regs := e.regs.cleared, p := [], dict := .empty } := by
  rw [EncState.start, if_pos hp, if_neg (Nat.not_lt.2 hlen)]

theorem EncState.start_badLen (hp : e.phase = .idle) (hlen : cfg.encInMax < e.regs.ilen.toNat) :
    e.start cfg = { e with regs := e.regs.badLen, p := [], dict := .empty } := by
  rw [EncState.start, if_pos hp, if_pos hlen]

end

/-- Settles O17: busy, or idle with a length within or beyond the input buffer. -/
theorem encStartBeginsACall : Obligations.EncStartBeginsACall := by
  intro x s
  refine ⟨s.enc.start s.cfg, rfl, EncState.start_busy, fun hp => ?_⟩
  by_cases hlen : s.enc.regs.ilen.toNat ≤ s.cfg.encInMax
  · rw [EncState.start_idle hp hlen]
    exact ⟨rfl, rfl, rfl, rfl, rfl, rfl, rfl, rfl, rfl, rfl, fun _ => ⟨rfl, rfl, rfl, rfl⟩,
      fun h => absurd hlen (Nat.not_le.2 h)⟩
  · rw [EncState.start_badLen hp (Nat.not_le.1 hlen)]
    exact ⟨rfl, rfl, rfl, rfl, rfl, rfl, rfl, rfl, rfl, rfl, fun h => absurd h hlen, fun _ => ⟨hp, rfl, rfl, rfl⟩⟩

/-! ### SCAN and the phase changes -/

section
variable {cfg : Config} {r : Nat} {e : EncState}

theorem EncState.scanStep_known (hp : e.phase = .scan) (hb : e.regs.ipos < e.regs.ilen)
    (hin : e.regs.ipos.toNat < cfg.encInMax)
    (hk : codeOfByte (e.inByte r e.regs.ipos.toNat) ∈ e.dict.ent.map Entry.code) :
    e.scanStep cfg r = .ok { e with regs := { e.regs with ipos := e.regs.ipos + 1 } } := by
  rw [EncState.scanStep, if_pos ⟨hp, CallRegs.cursor_before.2 hb⟩, EncState.element_eq hin]
  exact if_pos (Dict.isSome_findC.2 hk)

theorem EncState.scanStep_new (hp : e.phase = .scan) (hb : e.regs.ipos < e.regs.ilen)
    (hin : e.regs.ipos.toNat < cfg.encInMax)
    (hk : codeOfByte (e.inByte r e.regs.ipos.toNat) ∉ e.dict.ent.map Entry.code) (hroom : e.dict.full = false) :
    e.scanStep cfg r = .ok { e with
      dict := { e.dict with
        ent := e.dict.ent ++ [⟨codeOfByte (e.inByte r e.regs.ipos.toNat), [e.inByte r e.regs.ipos.toNat]⟩] }
      regs := { e.regs with ipos := e.regs.ipos + 1 } } := by
  rw [EncState.scanStep, if_pos ⟨hp, CallRegs.cursor_before.2 hb⟩, EncState.element_eq hin]
  refine (if_neg (mt Dict.isSome_findC.1 hk)).trans ?_
  rw [Dict.insert_literal hroom]

end

/-- Settles O23: by the two ways `ENC.SCAN` goes, as the code is there or not. -/
theorem encScanInsertsNewLiterals : Obligations.EncScanInsertsNewLiterals := by
  intro s hp hb hin b
  constructor
  · rintro ⟨e, he, hcode⟩
    exact congrArg s.endEnc (EncState.scanStep_known hp hb hin (List.mem_map.2 ⟨e, he, hcode⟩))
  · intro hnew hroom
    refine congrArg s.endEnc (EncState.scanStep_new hp hb hin ?_ (Dict.full_eq_false.2 hroom))
    intro hmem
    obtain ⟨e, he, hcode⟩ := List.mem_map.1 hmem
    exact hnew e he hcode

/-- Settles O24: each of the two is enabled at the end of the input and writes what its rule says. -/
theorem encPhaseChanges : Obligations.EncPhaseChanges := fun s =>
  ⟨fun hp hb => congrArg s.endEnc (if_pos ⟨hp, CallRegs.cursor_atEnd.2 hb⟩),
    fun hp hb => congrArg s.endEnc (if_pos ⟨hp, CallRegs.cursor_atEnd.2 hb⟩)⟩

/-! ### MATCH -/

/-- Settles O25: the step is enabled, and a hit can do one thing only. -/
theorem encHitExtendsThePattern : Obligations.EncHitExtendsThePattern := by
  intro s hp hb hin hf
  obtain ⟨e, he⟩ := EncState.hit_enabled hp (CallRegs.cursor_before.2 hb) (EncState.element_eq hin)
    (Option.isSome_iff_ne_none.2 hf)
  obtain ⟨-, -, -, -, rfl⟩ := EncState.hitStep_ok he
  exact congrArg s.endEnc he

/-- A cursor below the size of the output buffer does not wrap (R64). -/
theorem toNat_succ_of_lt_encOutMax {o : Word} (h : o.toNat < encOutMax) : (o + 1).toNat = o.toNat + 1 :=
  succ_toNat_of_lt (b := 4096) (BitVec.lt_def.2 h)

/-- An entry appended does not change the lookup of another pattern (R125). -/
theorem Dict.findP_append_of_ne (d : Dict) {p q : Pattern} (h : q ≠ p) (k n : Code) :
    Dict.findP { ent := d.ent ++ [⟨k, q⟩], next := n } p = d.findP p := by
  simp [Dict.findP, Dict.codesOf, h]

/-- R33: `NEXT` does not wrap. -/
theorem DictInv.next_succ {d : Dict} (h : DictInv d) : (d.next + 1).toNat = d.next.toNat + 1 := by
  obtain ⟨-, hmax⟩ := h.next_bounds
  have hone : (1 : Code).toNat = 1 := rfl
  rw [BitVec.toNat_add, hone]
  omega

/-- R153: in MATCH a pattern that misses has at least two bytes. -/
theorem EncInv.length_of_miss {cfg : Config} {r : Nat} {e : EncState} (h : EncInv cfg r e) (hp : e.phase = .matching)
    (hb : e.regs.ipos < e.regs.ilen) (hmiss : e.p ++ [e.inByte r e.regs.ipos.toNat] ∉ e.dict.patterns) :
    (e.p ++ [e.inByte r e.regs.ipos.toNat]).length ≠ 1 := by
  have hlen := (h.dict.length_le (h.mem_of_miss hp hb hmiss)).1
  rw [List.length_append, List.length_singleton]
  omega

/-- Settles O26: under the invariant the miss is enabled, its pattern has more than one byte, and the pattern emitted is not the
one inserted. -/
theorem encMissLearnsAndEmits : Obligations.EncMissLearnsAndEmits := by
  intro s hinv hp hb hf hroom
  have h := hinv.enc
  obtain ⟨e, he⟩ := h.miss_enabled hp hb (Dict.findP_eq_none.1 hf) (Dict.full_eq_false.2 hroom)
  obtain ⟨-, -, -, hmiss, hfull, hout, n, t, k, hins, hfind, rfl⟩ := EncState.missStep_ok he
  rw [Dict.insert_multi hfull (h.length_of_miss hp hb hmiss)] at hins
  cases hins
  rw [Dict.findP_append_of_ne _ (by simp)] at hfind
  exact ⟨_, k, congrArg s.endEnc he, hfind, hout, rfl, h.dict.next_succ, Buf.get?_set_self ..,
    fun j hj => Buf.get?_set_ne _ _ hj, rfl, rfl, rfl, rfl⟩

/-! ### FLUSH -/

/-- R153: in FLUSH the pattern is ε only after the empty input, which emitted nothing. -/
theorem EncInv.opos_of_flush_nil {cfg : Config} {r : Nat} {e : EncState} (h : EncInv cfg r e) (hp : e.phase = .flush)
    (hnil : e.p = []) : e.regs.opos = 0 := by
  obtain ⟨-, hop, hempty, hmem⟩ := h.flush hp
  have hlen : e.regs.ilen = 0 := by
    by_contra hne
    have := (h.dict.length_le (hmem hne)).1
    simp [hnil] at this
  obtain ⟨-, hm⟩ := hempty hlen
  exact BitVec.eq_of_toNat_eq (by rw [hop, hm]; rfl)

/-- Settles O27: under the invariant the step is enabled; it goes by whether `P` is empty. -/
theorem encFlushFinishesTheCall : Obligations.EncFlushFinishesTheCall := by
  intro s hinv hp
  obtain ⟨e, he⟩ := hinv.enc.flush_enabled hp
  refine ⟨e, congrArg s.endEnc he, ?_⟩
  obtain ⟨-, ⟨hnil, rfl⟩ | ⟨hne, hout, k, hfind, rfl⟩⟩ := EncState.flushStep_ok he
  · exact ⟨rfl, rfl, rfl, rfl, rfl, rfl, rfl, rfl, rfl, rfl, rfl, rfl,
      fun _ => ⟨rfl, hinv.enc.opos_of_flush_nil hp hnil, rfl⟩, fun hne => absurd hnil hne⟩
  · exact ⟨rfl, rfl, rfl, rfl, rfl, rfl, rfl, rfl, rfl, rfl, rfl, rfl, fun hnil => absurd hnil hne,
      fun _ => ⟨toNat_succ_of_lt_encOutMax hout, hout, ⟨k, hfind, Buf.get?_set_self ..⟩,
        fun j hj => Buf.get?_set_ne _ _ hj⟩⟩

/-! ### Errors -/

/-- R246: an engine with ERR set is idle, without DONE, without a count, and with an error code. -/
theorem RegsInv.of_err {b : Bool} {n : Nat} {c : CallRegs} (h : RegsInv b n c) (he : c.err = true) :
    b = true ∧ c.done = false ∧ c.ocnt = 0 ∧ c.errcode ≠ .none := by
  have hdone : c.done = false := by
    by_contra hd
    exact h.notBoth ⟨by simpa using hd, he⟩
  have hidle : b = true := by
    by_contra hb
    have := (h.busy (by simpa using hb)).2
    simp [he] at this
  exact ⟨hidle, hdone, by rw [h.ocnt, hdone]; rfl, h.errcode.1 he⟩

/-- Settles O51: the registers rule out everything else, and no index is below a count of 0. -/
theorem errorLeavesNoOutput : Obligations.ErrorLeavesNoOutput := by
  intro s h
  refine ⟨fun he => ?_, fun he => ?_⟩
  · obtain ⟨hidle, hdone, hocnt, hcode⟩ := h.enc.regs.of_err he
    exact ⟨beq_iff_eq.1 hidle, hdone, hocnt, fun i => by simp [State.specifiedElem, hocnt], h.enc.errors.resolve_left hcode⟩
  · obtain ⟨hidle, hdone, hocnt, hcode⟩ := h.dec.regs.of_err he
    exact ⟨beq_iff_eq.1 hidle, hdone, hocnt, fun i => by simp [State.specifiedElem, hocnt], hcode⟩

end Sys2Proof.Machine
end

section
/-! ENC in a call, against the function `encode` (R149): what the call in progress will end in and how many turns that takes
are functions of ENC's state, which each of its turns keeps and counts down. -/

namespace Sys2Proof.Machine

/-! ### The function -/

section
variable {T : Dict} {P : Pattern} {i : Nat} {out : List Code} {c : Byte} {s : List Byte}

theorem encodeScan_known (h : codeOfByte c ∈ T.ent.map Entry.code) : encodeScan T (c :: s) = encodeScan T s :=
  congrArg (encodeScan · s) (if_pos (Dict.isSome_findC.2 h))

theorem encodeScan_new (h : codeOfByte c ∉ T.ent.map Entry.code) : encodeScan T (c :: s) = encodeScan (T.add [c]) s :=
  congrArg (encodeScan · s) (if_neg (mt Dict.isSome_findC.1 h))

theorem encodeLoop_hit (h : P ++ [c] ∈ T.patterns) :
    encodeLoop T P i out (c :: s) = encodeLoop T (P ++ [c]) (i + 1) out s :=
  if_pos (Dict.isSome_findP.2 h)

theorem encodeLoop_full (h : P ++ [c] ∉ T.patterns) (hfull : T.full = true) :
    encodeLoop T P i out (c :: s) = .error (.capacity, i) :=
  (if_neg (mt Dict.isSome_findP.1 h)).trans (if_pos hfull)

theorem encodeLoop_miss (h : P ++ [c] ∉ T.patterns) (hroom : T.full = false) :
    encodeLoop T P i out (c :: s) =
      encodeLoop (T.add (P ++ [c])) [c] (i + 1) (out ++ ((T.add (P ++ [c])).findP P).toList) s :=
  (if_neg (mt Dict.isSome_findP.1 h)).trans (if_neg (by simp [hroom]))

/-- The one error of `encode` is CAPACITY, at an index not yet consumed (R149, R240). -/
theorem encodeLoop_error {e : ErrCode} {j : Nat} (h : encodeLoop T P i out s = .error (e, j)) : e = .capacity ∧ i ≤ j := by
  induction s generalizing T P i out with
  | nil => cases h
  | cons c s ih =>
    by_cases hmem : P ++ [c] ∈ T.patterns
    · rw [encodeLoop_hit hmem] at h
      obtain ⟨he, hj⟩ := ih h
      exact ⟨he, Nat.le_of_succ_le hj⟩
    · cases hfull : T.full with
      | true =>
        rw [encodeLoop_full hmem hfull] at h
        cases h
        exact ⟨rfl, Nat.le_refl _⟩
      | false =>
        rw [encodeLoop_miss hmem hfull] at h
        obtain ⟨he, hj⟩ := ih h
        exact ⟨he, Nat.le_of_succ_le hj⟩

end

theorem Dict.add_of_insert {d d' : Dict} {p : Pattern} {k : Code} (h : d.insert p = some (k, d')) : d.add p = d' := by
  rw [Dict.add, h]
  rfl

/-! ### The input and the output of the call in progress -/

/-- The input from index `i` on. -/
def EncState.inputFrom (resets : Nat) (e : EncState) (i : Nat) : List Byte :=
  (List.range' i (e.regs.ilen.toNat - i)).map (e.inByte resets)

/-- The codes emitted so far. -/
def EncState.emitted (e : EncState) : List Code := (List.range e.regs.opos.toNat).map fun j => (e.obuf.get? j).getD 0

theorem EncState.inputFrom_of_lt (r : Nat) {e : EncState} {i : Nat} (h : i < e.regs.ilen.toNat) :
    e.inputFrom r i = e.inByte r i :: e.inputFrom r (i + 1) := by
  have hlen : e.regs.ilen.toNat - i = e.regs.ilen.toNat - (i + 1) + 1 := by omega
  rw [EncState.inputFrom, hlen, List.range'_succ]
  rfl

theorem EncState.inputFrom_end (r : Nat) (e : EncState) : e.inputFrom r e.regs.ilen.toNat = [] := by
  simp [EncState.inputFrom]

/-- The input in place is the input of the call (R150). -/
theorem State.EncInput.inputFrom_zero {s : State} {bs : List Byte} (h : s.EncInput bs) : s.enc.inputFrom s.resets 0 = bs := by
  obtain ⟨hlen, hbyte⟩ := h
  refine List.ext_getElem (by simp [EncState.inputFrom, hlen]) fun i _ hi => ?_
  simp [EncState.inputFrom, hbyte i hi]

theorem EncState.inByte_congr (r : Nat) {e e' : EncState} (h : e'.ibuf = e.ibuf) : e'.inByte r = e.inByte r := by
  funext i
  rw [EncState.inByte, EncState.inByte, h]

theorem State.EncInput.of_eq {s t : State} {bs : List Byte} (h : s.EncInput bs) (hilen : t.enc.regs.ilen = s.enc.regs.ilen)
    (hibuf : t.enc.ibuf = s.enc.ibuf) (hres : t.resets = s.resets) : t.EncInput bs := by
  rw [State.EncInput, hilen, hres, EncState.inByte_congr _ hibuf]
  exact h

/-- A code written at the output cursor is emitted after those before it (R144, R147). -/
theorem EncState.emitted_emit {e e' : EncState} {k : Code} (ho : e.regs.opos.toNat < encOutMax)
    (hopos : e'.regs.opos = e.regs.opos + 1) (hobuf : e'.obuf = e.obuf.set e.regs.opos.toNat k) :
    e'.emitted = e.emitted ++ [k] := by
  rw [EncState.emitted, hopos, toNat_succ_of_lt_encOutMax ho, List.range_succ, List.map_append, hobuf, EncState.emitted]
  congr 1
  · refine List.map_congr_left fun j hj => ?_
    rw [Buf.get?_set_ne _ _ (Nat.ne_of_lt (List.mem_range.1 hj))]
  · simp

/-- What has been written below the output cursor is what has been emitted. -/
theorem EncInv.get?_obuf {cfg : Config} {r : Nat} {e : EncState} (h : EncInv cfg r e) {j : Nat} (hj : j < e.emitted.length) :
    e.obuf.get? j = some e.emitted[j] := by
  have hlt : j < e.regs.opos.toNat := by simpa [EncState.emitted] using hj
  obtain ⟨k, hk⟩ := Option.isSome_iff_exists.1 (h.written j hlt)
  simp [EncState.emitted, hk]

/-! ### What the call ends in, and when -/

/-- What the call in progress ends in by R149: `encode` gone on with from ENC's dictionary, pattern, cursor and output. Of an idle
engine, what its last call ended in. -/
def EncState.outcome (resets : Nat) (e : EncState) : Except (ErrCode × Nat) (List Code) :=
  match e.phase with
  | .idle => if e.regs.err then .error (e.regs.errcode, e.regs.errinfo.toNat) else .ok e.emitted
  | .scan =>
    encodeLoop (encodeScan e.dict (e.inputFrom resets e.regs.ipos.toNat)) [] 0 [] (e.inputFrom resets 0)
  | .matching => encodeLoop e.dict e.p e.regs.ipos.toNat e.emitted (e.inputFrom resets e.regs.ipos.toNat)
  | .flush => encodeLoop e.dict e.p e.regs.ilen.toNat e.emitted []

/-- The turns MATCH and FLUSH take from the input index `i` on, for an input of `n` bytes and the outcome `res`. -/
def matchTurns (n : Nat) (res : Except (ErrCode × Nat) (List Code)) (i : Nat) : Nat :=
  match res with
  | .ok _ => n - i + 2
  | .error (_, j) => j - i + 1

/-- The turns to the end of the call in progress, exactly (R150). -/
def EncState.turnsLeft (resets : Nat) (e : EncState) : Nat :=
  match e.phase with
  | .idle => 0
  | .scan =>
    e.regs.ilen.toNat - e.regs.ipos.toNat + 1 + matchTurns e.regs.ilen.toNat (e.outcome resets) 0
  | .matching => matchTurns e.regs.ilen.toNat (e.outcome resets) e.regs.ipos.toNat
  | .flush => 1

theorem matchTurns_pos (n : Nat) (res : Except (ErrCode × Nat) (List Code)) (i : Nat) : 0 < matchTurns n res i := by
  unfold matchTurns
  split <;> exact Nat.succ_pos _

/-- A byte of MATCH after which the loop goes on takes one turn. -/
theorem matchTurns_encodeLoop {n i : Nat} (hi : i < n) (T : Dict) (P : Pattern) (out : List Code) (s : List Byte) :
    matchTurns n (encodeLoop T P (i + 1) out s) (i + 1) + 1 = matchTurns n (encodeLoop T P (i + 1) out s) i := by
  cases hres : encodeLoop T P (i + 1) out s with
  | ok out' => simp only [matchTurns]; omega
  | error x =>
    obtain ⟨-, hj⟩ := encodeLoop_error (e := x.1) (j := x.2) hres
    simp only [matchTurns]; omega

section
variable {r : Nat} {e : EncState}

theorem EncState.outcome_scan (hp : e.phase = .scan) : e.outcome r =
    encodeLoop (encodeScan e.dict (e.inputFrom r e.regs.ipos.toNat)) [] 0 [] (e.inputFrom r 0) := by
  simp only [EncState.outcome, hp]

theorem EncState.outcome_matching (hp : e.phase = .matching) :
    e.outcome r = encodeLoop e.dict e.p e.regs.ipos.toNat e.emitted (e.inputFrom r e.regs.ipos.toNat) := by
  simp only [EncState.outcome, hp]

theorem EncState.outcome_flush (hp : e.phase = .flush) :
    e.outcome r = .ok (if e.p = [] then e.emitted else e.emitted ++ (e.dict.findP e.p).toList) := by
  simp only [EncState.outcome, hp, encodeLoop]

theorem EncState.outcome_idle (hp : e.phase = .idle) :
    e.outcome r = if e.regs.err then .error (e.regs.errcode, e.regs.errinfo.toNat) else .ok e.emitted := by
  simp only [EncState.outcome, hp]

theorem EncState.turnsLeft_scan (hp : e.phase = .scan) : e.turnsLeft r =
    e.regs.ilen.toNat - e.regs.ipos.toNat + 1 + matchTurns e.regs.ilen.toNat (e.outcome r) 0 := by
  simp only [EncState.turnsLeft, hp]

theorem EncState.turnsLeft_matching (hp : e.phase = .matching) :
    e.turnsLeft r = matchTurns e.regs.ilen.toNat (e.outcome r) e.regs.ipos.toNat := by
  simp only [EncState.turnsLeft, hp]

theorem EncState.turnsLeft_flush (hp : e.phase = .flush) : e.turnsLeft r = 1 := by
  simp only [EncState.turnsLeft, hp]

theorem EncState.turnsLeft_idle (hp : e.phase = .idle) : e.turnsLeft r = 0 := by
  simp only [EncState.turnsLeft, hp]

/-- The call has turns left exactly while ENC is busy. -/
theorem EncState.turnsLeft_pos : 0 < e.turnsLeft r ↔ e.phase ≠ .idle := by
  cases hp : e.phase with
  | idle => simp [EncState.turnsLeft_idle hp]
  | scan => simp [EncState.turnsLeft_scan hp]
  | matching => simp [EncState.turnsLeft_matching hp, matchTurns_pos]
  | flush => simp [EncState.turnsLeft_flush hp]

end

/-! ### One turn -/

/-- ENC with one more input byte consumed, and a new dictionary, pattern, output cursor and output buffer. -/
def EncState.afterByte (e : EncState) (d : Dict) (p : Pattern) (o : Word) (b : Buf 16) : EncState :=
  { e with dict := d, p := p, obuf := b, regs := { e.regs with ipos := e.regs.ipos + 1, opos := o } }

/-- The step from `e` to `e'` keeps what the call ends in and is one of the turns left. -/
structure EncState.Advances (r : Nat) (e e' : EncState) : Prop where
  outcome : e'.outcome r = e.outcome r
  turns : e'.turnsLeft r + 1 = e.turnsLeft r

section
variable {cfg : Config} {r : Nat} {e e' : EncState}

/-- A step of SCAN that leaves the dictionary as R149 has it after the byte. -/
theorem EncState.Advances.of_scan {d : Dict} (hp : e.phase = .scan) (hb : e.regs.ipos < e.regs.ilen)
    (hd : ∀ s, encodeScan e.dict (e.inByte r e.regs.ipos.toNat :: s) = encodeScan d s) :
    EncState.Advances r e (e.afterByte d e.p e.regs.opos e.obuf) := by
  obtain ⟨hsucc, hlt⟩ := CallRegs.ipos_succ hb
  have hout : (e.afterByte d e.p e.regs.opos e.obuf).outcome r = e.outcome r := by
    rw [EncState.outcome_scan hp, EncState.inputFrom_of_lt r hlt, hd, ← hsucc]
    exact EncState.outcome_scan hp
  refine ⟨hout, ?_⟩
  rw [EncState.turnsLeft_scan (e := e.afterByte ..) hp, EncState.turnsLeft_scan hp, hout]
  simp only [EncState.afterByte, hsucc]
  omega

theorem EncInv.scanStep_advances (h : EncInv cfg r e) (hs : e.scanStep cfg r = .ok e') : EncState.Advances r e e' := by
  obtain ⟨hp, hb, -, ⟨hk, rfl⟩ | ⟨hk, hroom, rfl⟩ | ⟨-, hfull, -⟩⟩ := EncState.scanStep_ok hs
  · exact .of_scan hp hb fun s => encodeScan_known hk
  · exact .of_scan hp hb fun s => by rw [encodeScan_new hk, Dict.add_of_insert (Dict.insert_literal hroom _)]
  · obtain ⟨hm, -⟩ := h.scan hp
    rw [h.dict.full_of_literals hm] at hfull
    cases hfull

theorem EncInv.scanEndStep_advances (h : EncInv cfg r e) (hs : e.scanEndStep = .ok e') : EncState.Advances r e e' := by
  obtain ⟨hp, hb, rfl⟩ := EncState.scanEndStep_ok hs
  obtain ⟨-, hnil, hopos, -⟩ := h.scan hp
  have hout : EncState.outcome r { e with phase := .matching, regs := { e.regs with ipos := 0 } } = e.outcome r := by
    rw [EncState.outcome_matching rfl, EncState.outcome_scan hp, hb, EncState.inputFrom_end, hnil]
    simp only [EncState.emitted, hopos]
    rfl
  refine ⟨hout, ?_⟩
  rw [EncState.turnsLeft_matching rfl, EncState.turnsLeft_scan hp, hout, hb]
  simp [Nat.add_comm]

/-- A step of MATCH that leaves the dictionary, the pattern and the output as R149 has them after the byte. -/
theorem EncState.Advances.of_matching {d : Dict} {p : Pattern} {o : Word} {b : Buf 16} (hp : e.phase = .matching)
    (hb : e.regs.ipos < e.regs.ilen)
    (hloop : ∀ s, encodeLoop e.dict e.p e.regs.ipos.toNat e.emitted (e.inByte r e.regs.ipos.toNat :: s) =
      encodeLoop d p (e.regs.ipos.toNat + 1) (e.afterByte d p o b).emitted s) :
    EncState.Advances r e (e.afterByte d p o b) := by
  obtain ⟨hsucc, hlt⟩ := CallRegs.ipos_succ hb
  have hout := EncState.outcome_matching (r := r) hp
  rw [EncState.inputFrom_of_lt r hlt, hloop] at hout
  have hout' : (e.afterByte d p o b).outcome r = e.outcome r := by
    rw [hout, ← hsucc]
    exact EncState.outcome_matching hp
  refine ⟨hout', ?_⟩
  rw [EncState.turnsLeft_matching (e := e.afterByte ..) hp, EncState.turnsLeft_matching hp, hout', hout]
  simp only [EncState.afterByte, hsucc]
  exact matchTurns_encodeLoop hlt ..

theorem EncState.hitStep_advances (hs : e.hitStep cfg r = .ok e') : EncState.Advances r e e' := by
  obtain ⟨hp, hb, -, hmem, rfl⟩ := EncState.hitStep_ok hs
  exact .of_matching hp hb fun s => encodeLoop_hit hmem

theorem EncState.missStep_advances (hs : e.missStep cfg r = .ok e') : EncState.Advances r e e' := by
  obtain ⟨hp, hb, -, hmiss, hroom, ho, n, t, k, hins, hfind, rfl⟩ := EncState.missStep_ok hs
  refine .of_matching hp hb fun s => ?_
  rw [encodeLoop_miss hmiss hroom, Dict.add_of_insert hins, hfind]
  exact congrArg (encodeLoop t _ _ · s) (EncState.emitted_emit ho rfl rfl).symm

theorem EncState.fullStep_advances (hs : e.fullStep cfg r = .ok e') : EncState.Advances r e e' := by
  obtain ⟨hp, hb, -, hmiss, hfull, rfl⟩ := EncState.fullStep_ok hs
  have hout : e.outcome r = .error (.capacity, e.regs.ipos.toNat) := by
    rw [EncState.outcome_matching hp, EncState.inputFrom_of_lt r (BitVec.lt_def.1 hb), encodeLoop_full hmiss hfull]
  refine ⟨(EncState.outcome_idle rfl).trans hout.symm, ?_⟩
  rw [EncState.turnsLeft_idle rfl, EncState.turnsLeft_matching hp, hout]
  simp [matchTurns]

theorem EncState.eoiStep_advances (hs : e.eoiStep = .ok e') : EncState.Advances r e e' := by
  obtain ⟨hp, hb, rfl⟩ := EncState.eoiStep_ok hs
  have hout : e.outcome r = .ok (if e.p = [] then e.emitted else e.emitted ++ (e.dict.findP e.p).toList) := by
    rw [EncState.outcome_matching hp, hb, EncState.inputFrom_end, encodeLoop]
  refine ⟨(EncState.outcome_flush rfl).trans hout.symm, ?_⟩
  rw [EncState.turnsLeft_flush rfl, EncState.turnsLeft_matching hp, hout, hb]
  simp [matchTurns]

theorem EncInv.flushStep_advances (h : EncInv cfg r e) (hs : e.flushStep = .ok e') : EncState.Advances r e e' := by
  obtain ⟨hp, hcase⟩ := EncState.flushStep_ok hs
  have herr : e.regs.err = false := ((h.busyRegs hp (by simp)).busy rfl).2
  refine ⟨?_, ?_⟩
  · rw [EncState.outcome_flush hp]
    obtain ⟨hnil, rfl⟩ | ⟨hne, ho, k, hfind, rfl⟩ := hcase
    · rw [if_pos hnil]
      exact (EncState.outcome_idle rfl).trans (if_neg (by simp [EncState.finish, herr]))
    · rw [if_neg hne, hfind]
      refine ((EncState.outcome_idle rfl).trans (if_neg (by simp [EncState.finish, herr]))).trans ?_
      exact congrArg Except.ok (EncState.emitted_emit ho rfl rfl)
  · have hidle : e'.phase = .idle := by obtain ⟨-, rfl⟩ | ⟨-, -, k, -, rfl⟩ := hcase <;> rfl
    rw [EncState.turnsLeft_idle hidle, EncState.turnsLeft_flush hp]

end

/-- Every turn of busy ENC keeps what the call ends in and is one of the turns left. -/
theorem Inv.encTurn_advances {s t : State} (h : Inv s) (hb : s.enc.phase ≠ .idle) (ht : s.encTurn = .next t) :
    EncState.Advances s.resets s.enc t.enc := by
  obtain ⟨hp, -⟩ | ⟨-, e, rfl, hs⟩ := State.encTurn_cases ht
  · exact absurd hp hb
  rcases hs with hs | hs | hs | hs | hs | hs | hs
  · exact h.enc.scanStep_advances hs
  · exact h.enc.scanEndStep_advances hs
  · exact EncState.hitStep_advances hs
  · exact EncState.missStep_advances hs
  · exact EncState.fullStep_advances hs
  · exact EncState.eoiStep_advances hs
  · exact h.enc.flushStep_advances hs

/-- Nothing but its own turn and RESET touches busy ENC (R69, R204, R236). -/
theorem State.runEvent_enc_busy {s t : State} {ev : Event} (hr : ev ≠ .reset) (hturn : ev ≠ .turn .enc)
    (hb : s.enc.phase ≠ .idle) (h : s.runEvent ev = .next t) : t.enc = s.enc := by
  cases ev with
  | host a =>
    obtain ⟨henc, -⟩ := State.hostAccess_engine h
    exact henc hb
  | turn g =>
    cases g with
    | enc => exact absurd rfl hturn
    | dec => rw [State.decTurn_frame h]; rfl
  | reset => exact absurd rfl hr

end Sys2Proof.Machine
end

section
/-! A whole ENC call (R150): START, then any schedule short of a RESET that gives ENC its turns. -/

namespace Sys2Proof.Machine

/-! ### The call along an entry of the order of steps -/

/-- ENC is in a call on the input `bs` that ends in what `encode` says, after `n` more turns; with none left it has ended so. -/
structure State.EncCall (bs : List Byte) (n : Nat) (s : State) : Prop where
  inv : Inv s
  input : s.EncInput bs
  outcome : s.enc.outcome s.resets = lzwEncode bs
  turns : s.enc.turnsLeft s.resets = n

section
variable {bs : List Byte} {n : Nat} {s : State}

theorem State.EncCall.withScript (h : s.EncCall bs n) (l : List Event) : (s.withScript l).EncCall bs n :=
  ⟨h.inv.withScript l, h.input, h.outcome, h.turns⟩

theorem State.EncCall.busy (h : s.EncCall bs (n + 1)) : s.enc.phase ≠ .idle :=
  EncState.turnsLeft_pos.1 (by rw [h.turns]; exact Nat.succ_pos n)

theorem State.EncCall.idle (h : s.EncCall bs 0) : s.enc.phase = .idle := by
  by_contra hb
  exact Nat.ne_of_gt (EncState.turnsLeft_pos.2 hb) h.turns

/-- An entry of the order of steps that is neither a RESET nor a turn of ENC leaves the call as it is. -/
theorem State.EncCall.other {t : State} {ev : Event} (h : s.EncCall bs (n + 1)) (hr : ev ≠ .reset) (hturn : ev ≠ .turn .enc)
    (ht : s.runEvent ev = .next t) : t.EncCall bs (n + 1) := by
  have henc := State.runEvent_enc_busy hr hturn h.busy ht
  have hres := State.runEvent_resets hr ht
  exact ⟨h.inv.runEvent ht, h.input.of_eq (by rw [henc]) (by rw [henc]) hres, by rw [henc, hres, h.outcome],
    by rw [henc, hres, h.turns]⟩

/-- A turn of ENC takes one of the turns the call has left. -/
theorem State.EncCall.encTurn {t : State} (h : s.EncCall bs (n + 1)) (ht : s.encTurn = .next t) : t.EncCall bs n := by
  obtain ⟨hout, hturns⟩ := h.inv.encTurn_advances h.busy ht
  have hw := State.encTurn_writes ht
  have hres : t.resets = s.resets := State.runEvent_resets (ev := .turn .enc) (by simp) ht
  refine ⟨h.inv.encTurn ht, h.input.of_eq hw.ilen hw.ibuf hres, by rw [hres, hout, h.outcome], ?_⟩
  rw [h.turns] at hturns
  rw [hres]
  exact Nat.succ_injective hturns

end

/-! ### Runs -/

theorem core_run_succ {s t : State} (h : step s = .next t) (n : Nat) : core.run (n + 1) s = core.run n t := by
  simp only [Host.Core.run, core, h]

/-- One more step at the end of a run. -/
theorem core_run_last {n : Nat} {s u t : State} (hu : core.run n s = .next u) (ht : step u = .next t) :
    core.run (n + 1) s = .next t := by
  induction n generalizing s with
  | zero =>
    cases hu
    exact core_run_succ ht 0
  | succ n ih =>
    cases hs : step s with
    | next v =>
      rw [core_run_succ hs] at hu ⊢
      exact ih hu
    | fault f => simp [Host.Core.run, core, hs] at hu
    | refused r => simp [Host.Core.run, core, hs] at hu

/-- A schedule without RESET that gives ENC fewer turns than its call has left leaves it in the call, with those turns taken. -/
theorem State.EncCall.run {bs : List Byte} {n : Nat} {l tail : List Event} (hl : ∀ ev ∈ l, ev ≠ .reset) {s : State}
    (h : s.EncCall bs (l.count (.turn .enc) + n + 1)) (hs : s.script = l ++ tail) :
    ∃ t, core.run l.length s = .next t ∧ t.script = tail ∧ t.EncCall bs (n + 1) := by
  induction l generalizing s with
  | nil => exact ⟨s, rfl, hs, by simpa using h⟩
  | cons ev l ih =>
    rw [List.forall_mem_cons] at hl
    obtain ⟨hr, hl⟩ := hl
    have hcall := h.withScript (l ++ tail)
    obtain ⟨t, ht⟩ := hcall.inv.runEvent_enabled ev
    have hstep : step s = .next t := (step_cons hs).trans ht
    have hnext : t.EncCall bs (l.count (.turn .enc) + n + 1) := by
      by_cases hev : ev = .turn .enc
      · subst hev
        rw [List.count_cons_self, Nat.add_right_comm _ 1] at hcall
        exact hcall.encTurn ht
      · rw [List.count_cons_of_ne hev] at hcall
        exact hcall.other hr hev ht
    obtain ⟨-, hscript, -⟩ := State.runEvent_frame ht
    obtain ⟨u, hu, hrest⟩ := ih hl hnext hscript
    exact ⟨u, (core_run_succ hstep _).trans hu, hrest⟩

/-! ### ENC.START and the whole call -/

/-- A START word written to `ENC_CTRL` starts ENC (R96, R140). -/
theorem step_encStart {s : State} {w : Word} {l : List Event} (hw : w.getLsbD 0 = true)
    (hs : s.script = .host (writeReg s.cfg (.ctrl .enc) w) :: l) :
    step s = .next (((s.withScript l).start .enc).withReply .ack) := by
  have hdec : decodeBus s.cfg (writeReg s.cfg (.ctrl .enc) w) = .ok (.encStart (w.extractLsb' 1 31)) :=
    (decodeBus_writeReg _ w rfl).trans (congrArg Except.ok (if_pos hw))
  rw [step_cons hs]
  exact State.hostAccess_ok (s := s.withScript l) hdec

/-- START begins a call on the input in place (R140, R150). -/
theorem State.EncInput.start {s t : State} {bs : List Byte} (hin : s.EncInput bs) (h : Inv s) (hp : s.enc.phase = .idle)
    (hlen : bs.length ≤ s.cfg.encInMax) (ht : t = (s.start .enc).withReply .ack) :
    t.EncCall bs (bs.length + 1 + matchTurns bs.length (lzwEncode bs) 0) := by
  have henc : t.enc = { s.enc with phase := .scan, regs := s.enc.regs.cleared, p := [], dict := .empty } :=
    (congrArg State.enc ht).trans (EncState.start_idle hp (hin.1 ▸ hlen))
  have hinv : Inv t := ht ▸ (h.start .enc).withReply _
  have hinput : t.EncInput bs := hin.of_eq (by rw [henc]; rfl) (by rw [henc]) (by rw [ht]; rfl)
  have hphase : t.enc.phase = .scan := by rw [henc]
  have hipos : t.enc.regs.ipos.toNat = 0 := by rw [henc]; rfl
  have hdict : t.enc.dict = .empty := by rw [henc]
  have hout : t.enc.outcome t.resets = lzwEncode bs := by
    rw [EncState.outcome_scan hphase, hipos, hdict, hinput.inputFrom_zero, lzwEncode]
  exact ⟨hinv, hinput, hout, by rw [EncState.turnsLeft_scan hphase, hipos, hout, hinput.1, Nat.sub_zero]⟩

/-- R150: from an idle ENC with the input in place, START and the turns a call takes, with anything short of a RESET interleaved,
end the call, and not one turn earlier. -/
theorem encCall_run {s : State} {bs : List Byte} {w : Word} {n : Nat} {l rest : List Event} (h : Inv s)
    (hp : s.enc.phase = .idle) (hin : s.EncInput bs) (hlen : bs.length ≤ s.cfg.encInMax) (hw : w.getLsbD 0 = true)
    (hl : EncSchedule s.cfg n l) (hturns : bs.length + 1 + matchTurns bs.length (lzwEncode bs) 0 = n + 1)
    (hs : s.script = .host (writeReg s.cfg (.ctrl .enc) w) :: (l ++ .turn .enc :: rest)) :
    ∃ u t, core.run (l.length + 1) s = .next u ∧ u.enc.phase ≠ .idle ∧ core.run (l.length + 2) s = .next t ∧
      t.script = rest ∧ t.EncCall bs 0 ∧ t.enc.regs.done = !t.enc.regs.err := by
  obtain ⟨hcount, hev⟩ := hl
  have hstart := step_encStart hw hs
  have hcall := hin.start (s := s.withScript (l ++ .turn .enc :: rest)) (h.withScript _) hp hlen rfl
  rw [hturns, ← hcount] at hcall
  obtain ⟨u, hu, hscript, hlast⟩ := State.EncCall.run (n := 0) (fun ev he => (hev ev he).1) hcall rfl
  have hrun := (core_run_succ hstart _).trans hu
  have hcall' := hlast.withScript rest
  obtain ⟨t, ht⟩ := hcall'.inv.encTurn_enabled
  obtain ⟨-, hrest, -⟩ := State.runEvent_frame (ev := .turn .enc) ht
  have hend := hcall'.encTurn ht
  obtain ⟨hdone, herr, -⟩ := hcall'.inv.busy_flags (mt State.stateNum_enc.1 hcall'.busy)
  exact ⟨u, t, hrun, hlast.busy, core_run_last hrun ((step_cons hscript).trans ht), hrest, hend,
    State.encTurn_end ht hcall'.busy ⟨hdone, herr⟩ hend.idle⟩

/-- Settles O52: the call ends in the outcome `encode` gives, and an outcome with an output is that of an idle ENC without ERR. -/
theorem encodeCallReturnsTheFunction : Obligations.EncodeCallReturnsTheFunction := by
  intro s bs out w l rest h hp hin hlen hout hw hl hs
  have hturns : bs.length + 1 + matchTurns bs.length (lzwEncode bs) 0 = 2 * bs.length + 2 + 1 := by
    rw [hout]
    simp only [matchTurns]
    omega
  obtain ⟨u, t, hu, hbusy, ht, hrest, hend, hdone⟩ := encCall_run h hp hin hlen hw hl hturns hs
  obtain ⟨hdict, hpat⟩ := hend.inv.enc.idle hend.idle
  have hres := hend.outcome
  rw [EncState.outcome_idle hend.idle, hout] at hres
  cases herr : t.enc.regs.err with
  | true => simp [herr] at hres
  | false =>
    simp only [herr, Bool.false_eq_true, if_false, Except.ok.injEq] at hres
    rw [herr] at hdone
    subst hres
    have hocnt : t.enc.regs.ocnt.toNat = t.enc.emitted.length := by
      rw [hend.inv.enc.regs.ocnt, hdone]
      simp [EncState.emitted]
    exact ⟨u, t, hu, hbusy, ht, hrest, hend.idle, hdone, herr, hocnt, fun j hj => hend.inv.enc.get?_obuf hj, hdict, hpat,
      hend.input⟩

/-- Settles O53: the call ends in the outcome `encode` gives, and an outcome with an error is that of an idle ENC with ERR. -/
theorem encodeCallReportsTheError : Obligations.EncodeCallReportsTheError := by
  intro s bs c i w l rest h hp hin hlen hout hw hl hs
  have hturns : bs.length + 1 + matchTurns bs.length (lzwEncode bs) 0 = bs.length + i + 1 + 1 := by
    rw [hout]
    simp only [matchTurns]
    omega
  obtain ⟨u, t, hu, hbusy, ht, hrest, hend, hdone⟩ := encCall_run h hp hin hlen hw hl hturns hs
  obtain ⟨hdict, hpat⟩ := hend.inv.enc.idle hend.idle
  obtain ⟨hcap, -⟩ := encodeLoop_error hout
  have hres := hend.outcome
  rw [EncState.outcome_idle hend.idle, hout] at hres
  cases herr : t.enc.regs.err with
  | false => simp [herr] at hres
  | true =>
    simp only [herr, if_true, Except.error.injEq, Prod.mk.injEq] at hres
    obtain ⟨hcode, hinfo⟩ := hres
    obtain ⟨-, hnot, hocnt, -⟩ := hend.inv.enc.regs.of_err herr
    exact ⟨u, t, hu, hbusy, ht, hrest, hend.idle, hnot, herr, hcap, hcode, hinfo, hocnt, hdict, hpat, hend.input⟩

end Sys2Proof.Machine
end

section
/-! What each step of DEC writes, and START (R170 to R176, R179). -/

namespace Sys2Proof.Machine

/-! ### START -/

section
variable {cfg : Config} {d : DecState}

theorem DecState.start_busy (hp : d.phase ≠ .idle) : d.start cfg = d := if_neg hp

theorem DecState.start_idle (hp : d.phase = .idle) (hlen : d.regs.ilen.toNat ≤ cfg.decInMax) :
    d.start cfg = { d with phase := .scan, regs := d.regs.cleared, last := [], dict := .empty } := by
  rw [DecState.start, if_pos hp, if_neg (Nat.not_lt.2 hlen)]

theorem DecState.start_badLen (hp : d.phase = .idle) (hlen : cfg.decInMax < d.regs.ilen.toNat) :
    d.start cfg = { d with regs := d.regs.badLen, last := [], dict := .empty } := by
  rw [DecState.start, if_pos hp, if_pos hlen]

end

/-- Settles O18: busy, or idle with a length within or beyond the input buffer. -/
theorem decStartBeginsACall : Obligations.DecStartBeginsACall := by
  intro x s
  refine ⟨s.dec.start s.cfg, rfl, DecState.start_busy, fun hp => ?_⟩
  by_cases hlen : s.dec.regs.ilen.toNat ≤ s.cfg.decInMax
  · rw [DecState.start_idle hp hlen]
    exact ⟨rfl, rfl, rfl, rfl, rfl, rfl, rfl, rfl, rfl, rfl, fun _ => ⟨rfl, rfl, rfl, rfl⟩,
      fun h => absurd hlen (Nat.not_le.2 h)⟩
  · rw [DecState.start_badLen hp (Nat.not_le.1 hlen)]
    exact ⟨rfl, rfl, rfl, rfl, rfl, rfl, rfl, rfl, rfl, rfl, fun h => absurd h hlen, fun _ => ⟨hp, rfl, rfl, rfl⟩⟩

/-! ### SCAN and the phase changes -/

section
variable {k : Code} {d : DecState}

theorem DecState.scanStep_skip (hp : d.phase = .scan) (hb : d.regs.ipos < d.regs.ilen)
    (hk : 255 < k.toNat ∨ k ∈ d.dict.ent.map Entry.code) :
    d.scanStep k = .ok { d with regs := { d.regs with ipos := d.regs.ipos + 1 } } := by
  rw [DecState.scanStep, if_pos ⟨hp, CallRegs.cursor_before.2 hb⟩, if_neg]
  rw [Bool.and_eq_true, isLitCode_iff, Option.isNone_iff_eq_none, Dict.findC_eq_none]
  rintro ⟨hle, hnot⟩
  exact hk.elim (Nat.not_lt.2 hle) hnot

theorem DecState.scanStep_new (hp : d.phase = .scan) (hb : d.regs.ipos < d.regs.ilen) (hle : k.toNat ≤ 255)
    (hk : k ∉ d.dict.ent.map Entry.code) (hroom : d.dict.full = false) :
    d.scanStep k = .ok { d with
      dict := { d.dict with ent := d.dict.ent ++ [⟨k, [byteOfCode k]⟩] }
      regs := { d.regs with ipos := d.regs.ipos + 1 } } := by
  have hlit := isLitCode_iff.2 hle
  rw [DecState.scanStep, if_pos ⟨hp, CallRegs.cursor_before.2 hb⟩, if_pos, Dict.insert_literal hroom,
    codeOfByte_byteOfCode hlit]
  rw [Bool.and_eq_true, Option.isNone_iff_eq_none, Dict.findC_eq_none]
  exact ⟨hlit, hk⟩

end

/-- Settles O28: by the two ways `DEC.SCAN` goes, as the code is a literal not yet there or not. -/
theorem decScanInsertsNewLiterals : Obligations.DecScanInsertsNewLiterals := by
  intro s hp hb hin k
  have hidx := DecState.codeIndex_ne (d := s.dec) (by simp [hp])
  have hexec : exec .decScan s = s.endDec (s.dec.scanStep k) :=
    congrArg s.endDec ((DecState.withElement_eq (hidx ▸ hin)).trans (by rw [hidx]))
  have hmem : k ∈ s.dec.dict.ent.map Entry.code ↔ ∃ e ∈ s.dec.dict.ent, e.code = k := List.mem_map
  constructor
  · intro hk
    rw [hexec, DecState.scanStep_skip hp hb (hk.imp id hmem.2)]
    rfl
  · intro hle hnew hroom
    have hnot : k ∉ s.dec.dict.ent.map Entry.code := fun hk => by
      obtain ⟨e, he, hcode⟩ := hmem.1 hk
      exact hnew e he hcode
    rw [hexec, DecState.scanStep_new hp hb hle hnot (Dict.full_eq_false.2 hroom)]
    rfl

/-- Settles O33: each of the two is enabled at the end of the input and writes what its rule says. -/
theorem decPhaseChanges : Obligations.DecPhaseChanges := fun s =>
  ⟨fun hp hb => ⟨congrArg s.endDec (if_pos ⟨hp, CallRegs.cursor_atEnd.2 hb⟩), DecState.codeIndex_first rfl⟩,
    fun hp hb => congrArg s.endDec (if_pos ⟨hp, CallRegs.cursor_atEnd.2 hb⟩)⟩

/-! ### FIRST -/

/-- Under the invariant the selected step on the code at the cursor completes (R98). -/
theorem Inv.withElement_of_consume {s : State} (h : Inv s) (hc : s.dec.consumesCode = true) {i : Nat}
    (hi : s.dec.codeIndex = i) {f : Code → DecState → Except Fault DecState}
    (hf : s.dec.consume s.cfg (s.dec.inCode s.resets i) = f (s.dec.inCode s.resets i) s.dec) :
    ∃ d, s.dec.withElement s.cfg s.resets f = .ok d ∧ f (s.dec.inCode s.resets i) s.dec = .ok d := by
  obtain ⟨d, hd⟩ := DecInv.consume_enabled h.config h.dec hc (s.dec.inCode s.resets i)
  rw [hf] at hd
  rw [DecState.withElement_eq (DecInv.codeIndex_lt h.config h.dec hc), hi]
  exact ⟨d, hd, hd⟩

/-- Settles O29: under the invariant the step is enabled, and what it finds is the byte of the code. -/
theorem decFirstResolvesTheFirstCode : Obligations.DecFirstResolvesTheFirstCode := by
  intro s hinv hp hl hf
  obtain ⟨d, hexec, hd⟩ := hinv.withElement_of_consume (DecState.consumesCode_iff.2 (.inr ⟨hp, hl⟩))
    (DecState.codeIndex_first hp) (DecState.consume_first hp hl hf)
  obtain ⟨-, -, -, b, hb, rfl⟩ := DecState.firstStep_ok hd
  obtain rfl : b = byteOfCode (s.dec.inCode s.resets 0) := List.singleton_inj.1 (hinv.dec.findC_first hp hb)
  exact ⟨_, congrArg s.endDec hexec, hb, Buf.get?_set_self .., fun j hj => Buf.get?_set_ne _ _ hj, rfl, rfl, rfl, rfl, rfl⟩

/-- R174: the dictionary of FIRST holds the literals of the stream and nothing else, so a code of the stream is absent exactly
when it is no literal code. -/
theorem DecInv.findC_first_eq_none {cfg : Config} {r : Nat} {d : DecState} (h : DecInv cfg r d) (hp : d.phase = .first)
    {i : Nat} (hi : i < d.regs.ilen.toNat) : d.dict.findC (d.inCode r i) = none ↔ 256 ≤ (d.inCode r i).toNat := by
  obtain ⟨-, hm, -, -, hcov⟩ := h.first hp
  rw [Dict.findC_eq_none]
  constructor
  · intro hnot
    by_contra hlt
    exact hnot (hcov i hi (isLitCode_iff.2 (Nat.le_of_lt_succ (Nat.not_le.1 hlt))))
  · intro hge hmem
    obtain ⟨e, he, hcode⟩ := List.mem_map.1 hmem
    have hmulti : e ∈ d.dict.multi := Dict.mem_multi_iff.2 ⟨he, hcode ▸ hge⟩
    rw [hm] at hmulti
    cases hmulti

/-- Settles O30: the step is enabled under the condition of its row, which reduces as the dictionary of FIRST holds the literals
of the stream. -/
theorem decBadFirstIsMalformed : Obligations.DecBadFirstIsMalformed := by
  intro s hinv hp
  constructor
  · intro hcond
    refine congrArg s.endDec (?_ : _ = Except.ok (s.dec.fail .malformed 0))
    by_cases hl : s.dec.regs.ilen = 0
    · exact (if_pos hl).trans (if_pos ⟨hp, .inl hl⟩)
    · have hc := DecState.consumesCode_iff.2 (.inr ⟨hp, hl⟩)
      rw [if_neg hl, DecState.withElement_eq (DecInv.codeIndex_lt hinv.config hinv.dec hc), DecState.codeIndex_first hp]
      exact if_pos ⟨hp, .inr (Option.isNone_iff_eq_none.2 (hcond.resolve_left hl))⟩
  · refine or_congr_right' fun hl => hinv.dec.findC_first_eq_none hp ?_
    exact Nat.pos_of_ne_zero fun h => hl (BitVec.eq_of_toNat_eq h)

/-! ### LOOP -/

/-- In LOOP the tail of the step (R175, R176), for a pattern `new` one byte longer than LAST, adds `new` under the code `NEXT`
and appends `next` to the output. -/
theorem DecInv.append_extends {cfg : Config} {r : Nat} {d d' : DecState} (hcfg : cfg.ok) (h : DecInv cfg r d)
    (hp : d.phase = .loop) {new next : Pattern} (hnew : new.length = d.last.length + 1)
    (hfit : d.regs.opos.toNat + next.length ≤ cfg.decOutMax) (ha : d.append new next = .ok d') :
    d'.dict.ent = d.dict.ent ++ [⟨d.dict.next, new⟩] ∧ d'.dict.next.toNat = d.dict.next.toNat + 1 ∧
      (∀ n (h : n < next.length), d'.obuf.get? (d.regs.opos.toNat + n) = some next[n]) ∧
      (∀ j, j < d.regs.opos.toNat ∨ d.regs.opos.toNat + next.length ≤ j → d'.obuf.get? j = d.obuf.get? j) ∧
      d'.last = next ∧ d'.regs.opos.toNat = d.regs.opos.toNat + next.length ∧
      d'.regs = { d.regs with opos := d'.regs.opos, ipos := d.regs.ipos + 1 } ∧ d'.phase = d.phase ∧ d'.ibuf = d.ibuf := by
  obtain ⟨-, -, ⟨-, hmax⟩, -⟩ := hcfg
  have hlast := h.last_pos hp
  obtain ⟨hphase, hlast', hent, hnext, hregs, hopos, hwritten, hframe⟩ := DecState.append_effect (by omega) (by omega) ha
  exact ⟨hent, by rw [hnext, h.dict.next_succ], hwritten, hframe, hlast', hopos, hregs, hphase,
    (DecState.append_writes hfit ha).ibuf⟩

/-- Settles O31: under the invariant the step is enabled, and it is the tail for the pattern found. -/
theorem decKnownAppendsTheFoundPattern : Obligations.DecKnownAppendsTheFoundPattern := by
  intro s r0 r hinv hp hb hf hn hfit
  have hfits : s.dec.fits s.cfg (s.dec.inCode s.resets s.dec.regs.ipos.toNat) = true := by
    rwa [DecState.fits_iff, DecState.nextLen, hf]
  obtain ⟨d, hexec, hd⟩ := hinv.withElement_of_consume (DecState.consumesCode_iff.2 (.inl ⟨.inr hp, hb⟩))
    (DecState.codeIndex_ne (by simp [hp]))
    (DecState.consume_known hp (Dict.full_eq_false.2 hn) hfits (by simp [hf]))
  obtain ⟨-, -, -, -, r0', r', hf', ha⟩ := DecState.knownStep_ok hd
  cases hf.symm.trans hf'
  exact ⟨d, congrArg s.endDec hexec, hinv.dec.append_extends hinv.config hp List.length_append hfit ha⟩

/-- Settles O32: under the invariant the step is enabled, and it is the tail for `LAST` and its first byte. -/
theorem decKwkwkExtendsLast : Obligations.DecKwkwkExtendsLast := by
  intro s l0 l hinv hp hb hf hn hl hfit
  have hfits : s.dec.fits s.cfg (s.dec.inCode s.resets s.dec.regs.ipos.toNat) = true := by
    rwa [DecState.fits_iff, DecState.nextLen, hf]
  obtain ⟨d, hexec, hd⟩ := hinv.withElement_of_consume (DecState.consumesCode_iff.2 (.inl ⟨.inr hp, hb⟩))
    (DecState.codeIndex_ne (by simp [hp])) (DecState.consume_kwkwk hp (Dict.full_eq_false.2 hn) hfits hf)
  obtain ⟨-, -, -, -, -, l0', l', hl', ha⟩ := DecState.kwkwkStep_ok hd
  cases hl.symm.trans hl'
  have hlen : (s.dec.last ++ [l0]).length = s.dec.last.length + 1 := List.length_append
  obtain ⟨hent, hnext, hwritten, hframe, hlast, hopos, hregs⟩ :=
    hinv.dec.append_extends hinv.config hp hlen (by rwa [hlen]) ha
  rw [hlen] at hframe hopos
  exact ⟨d, congrArg s.endDec hexec, hent, hnext, fun n hle => by rw [hwritten n (by omega), List.getElem?_eq_getElem],
    hframe, hlast, hopos, hregs⟩

end Sys2Proof.Machine
end

section
/-! DEC in a call, against the function `decode` (R180): what the call in progress will end in and how many turns that takes
are functions of DEC's state, which each of its turns keeps and counts down. -/

namespace Sys2Proof.Machine

/-! ### The function -/

/-- The lines of R180 after SCAN: the first code, then LOOP. -/
def decodeFirst (B : Nat) (T : Dict) : List Code → Except (ErrCode × Nat) (List Byte)
  | [] => .error (.malformed, 0)
  | k :: cs =>
    match T.findC k with
    | none => .error (.malformed, 0)
    | some p => decodeLoop B T p 1 p cs

theorem lzwDecode_eq (B : Nat) (cs : List Code) : lzwDecode B cs = decodeFirst B (decodeScan .empty cs) cs := by
  cases cs <;> rfl

section
variable {B : Nat} {T : Dict} {last : Pattern} {i : Nat} {out : List Byte} {k : Code} {cs : List Code}

theorem decodeScan_skip (h : isLitCode k = false ∨ k ∈ T.ent.map Entry.code) :
    decodeScan T (k :: cs) = decodeScan T cs := by
  refine congrArg (decodeScan · cs) (if_neg ?_)
  rw [Bool.and_eq_true, Option.isNone_iff_eq_none, Dict.findC_eq_none]
  rintro ⟨hlit, hnot⟩
  exact hnot (h.resolve_left (by simp [hlit]))

theorem decodeScan_new (hlit : isLitCode k = true) (h : k ∉ T.ent.map Entry.code) :
    decodeScan T (k :: cs) = decodeScan (T.add [byteOfCode k]) cs := by
  refine congrArg (decodeScan · cs) (if_pos ?_)
  rw [Bool.and_eq_true, Option.isNone_iff_eq_none, Dict.findC_eq_none]
  exact ⟨hlit, h⟩

theorem decodeFirst_found {p : Pattern} (h : T.findC k = some p) :
    decodeFirst B T (k :: cs) = decodeLoop B T p 1 p cs := by
  simp only [decodeFirst, h]

theorem decodeFirst_absent (h : T.findC k = none) : decodeFirst B T (k :: cs) = .error (.malformed, 0) := by
  simp only [decodeFirst, h]

theorem decodeLoop_full (hfull : T.full = true) : decodeLoop B T last i out (k :: cs) = .error (.capacity, i) :=
  if_pos hfull

theorem decodeLoop_ovf (hroom : T.full = false) (h : B < out.length + (decodeNext T last k).1.length) :
    decodeLoop B T last i out (k :: cs) = .error (.overflow, i) :=
  (if_neg (by simp [hroom])).trans (if_pos h)

theorem decodeLoop_append (hroom : T.full = false) (h : out.length + (decodeNext T last k).1.length ≤ B) :
    decodeLoop B T last i out (k :: cs) =
      decodeLoop B (T.add (decodeNext T last k).2) (decodeNext T last k).1 (i + 1) (out ++ (decodeNext T last k).1) cs :=
  (if_neg (by simp [hroom])).trans (if_neg (Nat.not_lt.2 h))

/-- The errors of LOOP are CAPACITY and OVERFLOW, at an index not yet consumed (R177, R178). -/
theorem decodeLoop_error {e : ErrCode} {j : Nat} (h : decodeLoop B T last i out cs = .error (e, j)) :
    (e = .capacity ∨ e = .overflow) ∧ i ≤ j := by
  induction cs generalizing T last i out with
  | nil => cases h
  | cons k cs ih =>
    cases hroom : T.full with
    | true =>
      rw [decodeLoop_full hroom] at h
      cases h
      exact ⟨.inl rfl, Nat.le_refl _⟩
    | false =>
      by_cases hfit : out.length + (decodeNext T last k).1.length ≤ B
      · rw [decodeLoop_append hroom hfit] at h
        obtain ⟨he, hj⟩ := ih h
        exact ⟨he, Nat.le_of_succ_le hj⟩
      · rw [decodeLoop_ovf hroom (Nat.not_le.1 hfit)] at h
        cases h
        exact ⟨.inr rfl, Nat.le_refl _⟩

end

/-- The errors of `decode` (R240): MALFORMED at index 0, CAPACITY and OVERFLOW. -/
theorem lzwDecode_error {B : Nat} {cs : List Code} {e : ErrCode} {j : Nat} (h : lzwDecode B cs = .error (e, j)) :
    (e = .malformed ∧ j = 0) ∨ e = .capacity ∨ e = .overflow := by
  rw [lzwDecode_eq] at h
  cases cs with
  | nil =>
    cases h
    exact .inl ⟨rfl, rfl⟩
  | cons k cs =>
    cases hf : (decodeScan .empty (k :: cs)).findC k with
    | none =>
      rw [decodeFirst_absent hf] at h
      cases h
      exact .inl ⟨rfl, rfl⟩
    | some p =>
      rw [decodeFirst_found hf] at h
      obtain ⟨he, -⟩ := decodeLoop_error h
      exact .inr he

/-! ### The input and the output of the call in progress -/

/-- The input codes from index `i` on. -/
def DecState.inputFrom (resets : Nat) (d : DecState) (i : Nat) : List Code :=
  (List.range' i (d.regs.ilen.toNat - i)).map (d.inCode resets)

/-- The bytes output so far. -/
def DecState.output (d : DecState) : List Byte := (List.range d.regs.opos.toNat).map fun j => (d.obuf.get? j).getD 0

theorem DecState.inputFrom_of_lt (r : Nat) {d : DecState} {i : Nat} (h : i < d.regs.ilen.toNat) :
    d.inputFrom r i = d.inCode r i :: d.inputFrom r (i + 1) := by
  have hlen : d.regs.ilen.toNat - i = d.regs.ilen.toNat - (i + 1) + 1 := by omega
  rw [DecState.inputFrom, hlen, List.range'_succ]
  rfl

theorem DecState.inputFrom_end (r : Nat) (d : DecState) : d.inputFrom r d.regs.ilen.toNat = [] := by
  simp [DecState.inputFrom]

/-- The input in place is the input of the call (R181). -/
theorem State.DecInput.inputFrom_zero {s : State} {cs : List Code} (h : s.DecInput cs) : s.dec.inputFrom s.resets 0 = cs := by
  obtain ⟨hlen, hcode⟩ := h
  refine List.ext_getElem (by simp [DecState.inputFrom, hlen]) fun i _ hi => ?_
  simp [DecState.inputFrom, hcode i hi]

theorem DecState.inCode_congr (r : Nat) {d d' : DecState} (h : d'.ibuf = d.ibuf) : d'.inCode r = d.inCode r := by
  funext i
  rw [DecState.inCode, DecState.inCode, h]

theorem DecState.inputFrom_congr (r : Nat) {d d' : DecState} (hilen : d'.regs.ilen = d.regs.ilen) (hibuf : d'.ibuf = d.ibuf)
    (i : Nat) : d'.inputFrom r i = d.inputFrom r i := by
  rw [DecState.inputFrom, DecState.inputFrom, hilen, DecState.inCode_congr r hibuf]

theorem State.DecInput.of_eq {s t : State} {cs : List Code} (h : s.DecInput cs) (hilen : t.dec.regs.ilen = s.dec.regs.ilen)
    (hibuf : t.dec.ibuf = s.dec.ibuf) (hres : t.resets = s.resets) : t.DecInput cs := by
  rw [State.DecInput, hilen, hres, DecState.inCode_congr _ hibuf]
  exact h

@[simp] theorem DecState.length_output (d : DecState) : d.output.length = d.regs.opos.toNat := by
  simp [DecState.output]

/-- What the loop's tail writes at the output cursor is output after what was output before (R175, R176). -/
theorem DecInv.output_append {cfg : Config} {r : Nat} {d d' : DecState} (hcfg : cfg.ok) (h : DecInv cfg r d)
    (hp : d.phase = .loop) {new next : Pattern} (hnew : new.length = d.last.length + 1)
    (hfit : d.regs.opos.toNat + next.length ≤ cfg.decOutMax) (ha : d.append new next = .ok d') :
    d'.output = d.output ++ next := by
  obtain ⟨-, -, hwritten, hframe, -, hopos, -⟩ := h.append_extends hcfg hp hnew hfit ha
  rw [DecState.output, hopos, List.range_add, List.map_append, DecState.output]
  congr 1
  · exact List.map_congr_left fun j hj => by rw [hframe j (.inl (List.mem_range.1 hj))]
  · refine List.ext_getElem (by simp) fun n _ hn => ?_
    simp [hwritten n hn]

/-- What has been written below the output cursor is what has been output. -/
theorem DecInv.get?_obuf {cfg : Config} {r : Nat} {d : DecState} (h : DecInv cfg r d) {j : Nat} (hj : j < d.output.length) :
    d.obuf.get? j = some d.output[j] := by
  obtain ⟨b, hb⟩ := Option.isSome_iff_exists.1 (h.written j (by simpa using hj))
  simp [DecState.output, hb]

/-! ### What the call ends in, and when -/

/-- What the call in progress ends in by R180: `decode` gone on with from DEC's dictionary, LAST, cursor and output. Of an idle
engine, what its last call ended in. -/
def DecState.outcome (cfg : Config) (resets : Nat) (d : DecState) : Except (ErrCode × Nat) (List Byte) :=
  match d.phase with
  | .idle => if d.regs.err then .error (d.regs.errcode, d.regs.errinfo.toNat) else .ok d.output
  | .scan =>
    decodeFirst cfg.decOutMax (decodeScan d.dict (d.inputFrom resets d.regs.ipos.toNat)) (d.inputFrom resets 0)
  | .first => decodeFirst cfg.decOutMax d.dict (d.inputFrom resets 0)
  | .loop =>
    decodeLoop cfg.decOutMax d.dict d.last d.regs.ipos.toNat d.output (d.inputFrom resets d.regs.ipos.toNat)

/-- The turns FIRST and LOOP take from the input index `i` on, for an input of `n` codes and the outcome `res`. -/
def loopTurns (n : Nat) (res : Except (ErrCode × Nat) (List Byte)) (i : Nat) : Nat :=
  match res with
  | .ok _ => n - i + 1
  | .error (_, j) => j - i + 1

/-- The turns to the end of the call in progress, exactly (R181). -/
def DecState.turnsLeft (cfg : Config) (resets : Nat) (d : DecState) : Nat :=
  match d.phase with
  | .idle => 0
  | .scan => d.regs.ilen.toNat - d.regs.ipos.toNat + 1 + loopTurns d.regs.ilen.toNat (d.outcome cfg resets) 0
  | .first => loopTurns d.regs.ilen.toNat (d.outcome cfg resets) 0
  | .loop => loopTurns d.regs.ilen.toNat (d.outcome cfg resets) d.regs.ipos.toNat

theorem loopTurns_pos (n : Nat) (res : Except (ErrCode × Nat) (List Byte)) (i : Nat) : 0 < loopTurns n res i := by
  unfold loopTurns
  split <;> exact Nat.succ_pos _

/-- A code after which the loop goes on takes one turn. -/
theorem loopTurns_decodeLoop {n i : Nat} (hi : i < n) (B : Nat) (T : Dict) (last : Pattern) (out : List Byte) (cs : List Code) :
    loopTurns n (decodeLoop B T last (i + 1) out cs) (i + 1) + 1 = loopTurns n (decodeLoop B T last (i + 1) out cs) i := by
  cases hres : decodeLoop B T last (i + 1) out cs with
  | ok out' => simp only [loopTurns]; omega
  | error x =>
    obtain ⟨-, hj⟩ := decodeLoop_error (e := x.1) (j := x.2) hres
    simp only [loopTurns]; omega

section
variable {cfg : Config} {r : Nat} {d : DecState}

theorem DecState.outcome_idle (hp : d.phase = .idle) :
    d.outcome cfg r = if d.regs.err then .error (d.regs.errcode, d.regs.errinfo.toNat) else .ok d.output := by
  simp only [DecState.outcome, hp]

theorem DecState.outcome_scan (hp : d.phase = .scan) : d.outcome cfg r =
    decodeFirst cfg.decOutMax (decodeScan d.dict (d.inputFrom r d.regs.ipos.toNat)) (d.inputFrom r 0) := by
  simp only [DecState.outcome, hp]

theorem DecState.outcome_first (hp : d.phase = .first) :
    d.outcome cfg r = decodeFirst cfg.decOutMax d.dict (d.inputFrom r 0) := by
  simp only [DecState.outcome, hp]

theorem DecState.outcome_loop (hp : d.phase = .loop) : d.outcome cfg r =
    decodeLoop cfg.decOutMax d.dict d.last d.regs.ipos.toNat d.output (d.inputFrom r d.regs.ipos.toNat) := by
  simp only [DecState.outcome, hp]

theorem DecState.turnsLeft_idle (hp : d.phase = .idle) : d.turnsLeft cfg r = 0 := by
  simp only [DecState.turnsLeft, hp]

theorem DecState.turnsLeft_scan (hp : d.phase = .scan) : d.turnsLeft cfg r =
    d.regs.ilen.toNat - d.regs.ipos.toNat + 1 + loopTurns d.regs.ilen.toNat (d.outcome cfg r) 0 := by
  simp only [DecState.turnsLeft, hp]

theorem DecState.turnsLeft_first (hp : d.phase = .first) :
    d.turnsLeft cfg r = loopTurns d.regs.ilen.toNat (d.outcome cfg r) 0 := by
  simp only [DecState.turnsLeft, hp]

theorem DecState.turnsLeft_loop (hp : d.phase = .loop) :
    d.turnsLeft cfg r = loopTurns d.regs.ilen.toNat (d.outcome cfg r) d.regs.ipos.toNat := by
  simp only [DecState.turnsLeft, hp]

/-- The call has turns left exactly while DEC is busy. -/
theorem DecState.turnsLeft_pos : 0 < d.turnsLeft cfg r ↔ d.phase ≠ .idle := by
  cases hp : d.phase with
  | idle => simp [DecState.turnsLeft_idle hp]
  | scan => simp [DecState.turnsLeft_scan hp]
  | first => simp [DecState.turnsLeft_first hp, loopTurns_pos]
  | loop => simp [DecState.turnsLeft_loop hp, loopTurns_pos]

end

/-! ### One turn -/

/-- The step from `d` to `d'` keeps what the call ends in and is one of the turns left. -/
structure DecState.Advances (cfg : Config) (r : Nat) (d d' : DecState) : Prop where
  outcome : d'.outcome cfg r = d.outcome cfg r
  turns : d'.turnsLeft cfg r + 1 = d.turnsLeft cfg r

section
variable {cfg : Config} {r : Nat} {d d' : DecState}

/-- A step of SCAN that leaves the dictionary as R180 has it after the code. -/
theorem DecState.Advances.of_scan {T : Dict} (hp : d.phase = .scan) (hb : d.regs.ipos < d.regs.ilen)
    (hT : ∀ cs, decodeScan d.dict (d.inCode r d.regs.ipos.toNat :: cs) = decodeScan T cs) :
    DecState.Advances cfg r d { d with dict := T, regs := { d.regs with ipos := d.regs.ipos + 1 } } := by
  obtain ⟨hsucc, hlt⟩ := CallRegs.ipos_succ hb
  have hout : DecState.outcome cfg r { d with dict := T, regs := { d.regs with ipos := d.regs.ipos + 1 } } =
      d.outcome cfg r := by
    rw [DecState.outcome_scan hp, DecState.inputFrom_of_lt r hlt, hT, ← hsucc]
    exact DecState.outcome_scan hp
  refine ⟨hout, ?_⟩
  rw [DecState.turnsLeft_scan (d := { d with dict := T, regs := _ }) hp, DecState.turnsLeft_scan hp, hout]
  simp only [hsucc]
  omega

theorem DecInv.scanStep_advances (h : DecInv cfg r d) (hs : d.scanStep (d.inCode r d.regs.ipos.toNat) = .ok d') :
    DecState.Advances cfg r d d' := by
  obtain ⟨hp, hb, ⟨hk, rfl⟩ | ⟨hlit, hk, hroom, rfl⟩ | ⟨-, -, hfull, -⟩⟩ := DecState.scanStep_ok hs
  · exact .of_scan hp hb fun cs => decodeScan_skip hk
  · exact .of_scan hp hb fun cs => by rw [decodeScan_new hlit hk, Dict.add_of_insert (Dict.insert_literal hroom _)]
  · obtain ⟨hm, -⟩ := h.scan hp
    rw [h.dict.full_of_literals hm] at hfull
    cases hfull

theorem DecState.scanEndStep_advances (hs : d.scanEndStep = .ok d') : DecState.Advances cfg r d d' := by
  obtain ⟨hp, hb, rfl⟩ := DecState.scanEndStep_ok hs
  have hout : DecState.outcome cfg r { d with phase := .first } = d.outcome cfg r := by
    rw [DecState.outcome_first rfl, DecState.outcome_scan hp, hb, DecState.inputFrom_end]
    rfl
  refine ⟨hout, ?_⟩
  rw [DecState.turnsLeft_first rfl, DecState.turnsLeft_scan hp, hout, hb]
  simp [Nat.add_comm]

/-- The error entry ends the call that ends in its error, at the index of the code being processed (R250). -/
theorem DecState.Advances.of_fail {c : ErrCode} {info : Word}
    (hout : d.outcome cfg r = .error (c, info.toNat)) (hturns : d.turnsLeft cfg r = 1) :
    DecState.Advances cfg r d (d.fail c info) :=
  ⟨(DecState.outcome_idle rfl).trans hout.symm, by rw [DecState.turnsLeft_idle rfl, hturns]⟩

/-- MALFORMED ends a call in FIRST on the empty stream, or on a first code the dictionary does not hold (R174). -/
theorem DecState.badFirst_advances (hp : d.phase = .first)
    (hbad : d.regs.ilen = 0 ∨ d.dict.findC (d.inCode r 0) = none) :
    DecState.Advances cfg r d (d.fail .malformed 0) := by
  have hout : d.outcome cfg r = .error (.malformed, 0) := by
    rw [DecState.outcome_first hp]
    by_cases hl : d.regs.ilen.toNat = 0
    · rw [← hl, DecState.inputFrom_end, decodeFirst, hl]
    · rw [DecState.inputFrom_of_lt r (Nat.pos_of_ne_zero hl)]
      exact decodeFirst_absent (hbad.resolve_left fun h => hl (by rw [h]; rfl))
  refine .of_fail hout ?_
  rw [DecState.turnsLeft_first hp, hout]
  rfl

/-- A step that consumes the code at index `i` and leaves DEC in LOOP with the dictionary, LAST and output R180 has after it. -/
theorem DecState.Advances.to_loop (hp : d'.phase = .loop) (hilen : d'.regs.ilen = d.regs.ilen) (hibuf : d'.ibuf = d.ibuf)
    {i : Nat} (hi : i < d.regs.ilen.toNat) (hipos : d'.regs.ipos.toNat = i + 1)
    (hout : d.outcome cfg r = decodeLoop cfg.decOutMax d'.dict d'.last (i + 1) d'.output (d.inputFrom r (i + 1)))
    (hturns : d.turnsLeft cfg r = loopTurns d.regs.ilen.toNat (d.outcome cfg r) i) : DecState.Advances cfg r d d' := by
  have hout' : d'.outcome cfg r = d.outcome cfg r := by
    rw [DecState.outcome_loop hp, hipos, DecState.inputFrom_congr r hilen hibuf, hout]
  refine ⟨hout', ?_⟩
  rw [DecState.turnsLeft_loop hp, hturns, hout', hilen, hipos, hout]
  exact loopTurns_decodeLoop hi ..

theorem DecState.firstStep_advances (hs : d.firstStep cfg (d.inCode r 0) = .ok d') : DecState.Advances cfg r d d' := by
  obtain ⟨hp, hl, -, b, hb, rfl⟩ := DecState.firstStep_ok hs
  have hlt : 0 < d.regs.ilen.toNat := Nat.pos_of_ne_zero fun h => hl (BitVec.eq_of_toNat_eq h)
  refine .to_loop rfl rfl rfl hlt rfl ?_ (DecState.turnsLeft_first hp)
  rw [DecState.outcome_first hp, DecState.inputFrom_of_lt r hlt, decodeFirst_found hb]
  simp [DecState.output]

theorem DecState.fullStep_advances (hs : d.fullStep = .ok d') : DecState.Advances cfg r d d' := by
  obtain ⟨hp, hb, hfull, rfl⟩ := DecState.fullStep_ok hs
  have hout : d.outcome cfg r = .error (.capacity, d.regs.ipos.toNat) := by
    rw [DecState.outcome_loop hp, DecState.inputFrom_of_lt r (BitVec.lt_def.1 hb), decodeLoop_full hfull]
  refine .of_fail hout ?_
  rw [DecState.turnsLeft_loop hp, hout]
  simp [loopTurns]

theorem DecInv.ovfStep_advances (h : DecInv cfg r d) (hs : d.ovfStep cfg (d.inCode r d.regs.ipos.toNat) = .ok d') :
    DecState.Advances cfg r d d' := by
  obtain ⟨hp, hb, hroom, hover, rfl⟩ := DecState.ovfStep_ok hs
  rw [DecState.fits_eq_false, h.nextLen_eq hp, ← DecState.length_output] at hover
  have hout : d.outcome cfg r = .error (.overflow, d.regs.ipos.toNat) := by
    rw [DecState.outcome_loop hp, DecState.inputFrom_of_lt r (BitVec.lt_def.1 hb), decodeLoop_ovf hroom hover]
  refine .of_fail hout ?_
  rw [DecState.turnsLeft_loop hp, hout]
  simp [loopTurns]

/-- With room in the table and in the output, the loop's tail is what R180 does with the code. -/
theorem DecInv.append_advances (hcfg : cfg.ok) (h : DecInv cfg r d) (hp : d.phase = .loop)
    (hb : d.regs.ipos < d.regs.ilen) (hroom : d.dict.full = false) {k : Code} (hk : k = d.inCode r d.regs.ipos.toNat)
    (hfit : d.regs.opos.toNat + (decodeNext d.dict d.last k).1.length ≤ cfg.decOutMax)
    (ha : d.append (decodeNext d.dict d.last k).2 (decodeNext d.dict d.last k).1 = .ok d') :
    DecState.Advances cfg r d d' := by
  obtain ⟨hsucc, hlt⟩ := CallRegs.ipos_succ hb
  have houtput := h.output_append hcfg hp (h.length_decodeNext_new hp k) hfit ha
  obtain ⟨n, t, hins, rfl⟩ := DecState.append_ok ha
  have hout := DecState.outcome_loop (cfg := cfg) (r := r) hp
  rw [DecState.inputFrom_of_lt r hlt, ← hk, decodeLoop_append hroom (by rwa [DecState.length_output]),
    Dict.add_of_insert hins, ← houtput] at hout
  exact .to_loop hp rfl rfl hlt hsucc hout (DecState.turnsLeft_loop hp)

/-- Every code word DEC consumes keeps what the call ends in and takes one of the turns left. -/
theorem DecInv.consume_advances (hcfg : cfg.ok) (h : DecInv cfg r d) (hc : d.consumesCode = true)
    (hs : d.consume cfg (d.inCode r d.codeIndex) = .ok d') : DecState.Advances cfg r d d' := by
  obtain ⟨hp | hp, hb⟩ | ⟨hp, hl⟩ := DecState.consumesCode_iff.1 hc
  · rw [DecState.codeIndex_ne (by simp [hp]), DecState.consume_scan hp] at hs
    exact h.scanStep_advances hs
  · rw [DecState.codeIndex_ne (by simp [hp])] at hs
    cases hroom : d.dict.full with
    | true =>
      rw [DecState.consume_full hp hroom] at hs
      exact DecState.fullStep_advances hs
    | false =>
      cases hfits : d.fits cfg (d.inCode r d.regs.ipos.toNat) with
      | false =>
        rw [DecState.consume_ovf hp hroom hfits] at hs
        exact h.ovfStep_advances hs
      | true =>
        have hfit := DecState.fits_iff.1 hfits
        rw [h.nextLen_eq hp] at hfit
        exact h.append_advances hcfg hp hb hroom rfl hfit (DecState.consume_append hp hroom hfits hs)
  · rw [DecState.codeIndex_first hp] at hs
    cases hf : d.dict.findC (d.inCode r 0) with
    | none =>
      rw [DecState.consume_badFirst hp hl hf] at hs
      obtain ⟨-, -, rfl⟩ := DecState.badFirstStep_ok hs
      exact DecState.badFirst_advances hp (.inr hf)
    | some p =>
      rw [DecState.consume_first hp hl (by simp [hf])] at hs
      exact DecState.firstStep_advances hs

theorem DecInv.endStep_advances (h : DecInv cfg r d) (hs : d.endStep = .ok d') : DecState.Advances cfg r d d' := by
  obtain ⟨hp, hb, rfl⟩ := DecState.endStep_ok hs
  have herr : d.regs.err = false := ((h.busyRegs hp (by simp)).busy rfl).2
  have hout : d.outcome cfg r = .ok d.output := by
    rw [DecState.outcome_loop hp, hb, DecState.inputFrom_end, decodeLoop]
  refine ⟨((DecState.outcome_idle rfl).trans (if_neg (by simp [herr]))).trans hout.symm, ?_⟩
  rw [DecState.turnsLeft_idle rfl, DecState.turnsLeft_loop hp, hout, hb]
  simp [loopTurns]

end

/-- The row of R98 a turn of busy DEC runs: on a code word, at the end of the input, or on the empty stream in FIRST. -/
theorem Inv.decTurn_row {s t : State} (h : Inv s) (hb : s.dec.phase ≠ .idle) (ht : s.decTurn = .next t) :
    (s.dec.consumesCode = true ∧ s.dec.consume s.cfg (s.dec.inCode s.resets s.dec.codeIndex) = .ok t.dec) ∨
    s.dec.scanEndStep = .ok t.dec ∨
    (s.dec.phase = .first ∧ s.dec.regs.ilen = 0 ∧ t.dec = s.dec.fail .malformed 0) ∨ s.dec.endStep = .ok t.dec := by
  obtain ⟨hle, hlen⟩ := h.dec.cursor hb
  by_cases hc : s.dec.consumesCode = true
  · rw [State.decTurn_consume hlen hc] at ht
    obtain ⟨d, hd, rfl⟩ := State.endDec_eq_next.1 ht
    exact .inl ⟨hc, hd⟩
  right
  have hend (hp : s.dec.phase = .scan ∨ s.dec.phase = .loop) : s.dec.regs.cursor = .atEnd :=
    (CallRegs.cursor_of_le hle).resolve_left fun hbefore =>
      hc (DecState.consumesCode_iff.2 (.inl ⟨hp, CallRegs.cursor_before.1 hbefore⟩))
  cases hp : s.dec.phase with
  | idle => exact absurd hp hb
  | scan =>
    rw [State.decTurn_scanEnd hp (hend (.inl hp))] at ht
    obtain ⟨d, hd, rfl⟩ := State.endDec_eq_next.1 ht
    exact .inl hd
  | first =>
    have hl : s.dec.regs.ilen = 0 := by
      by_contra hl
      exact hc (DecState.consumesCode_iff.2 (.inr ⟨hp, hl⟩))
    rw [State.decTurn_badFirst_empty hp hl] at ht
    obtain ⟨d, hd, rfl⟩ := State.endDec_eq_next.1 ht
    obtain ⟨-, -, rfl⟩ := DecState.badFirstStep_ok ((if_pos hl).symm.trans hd)
    exact .inr (.inl ⟨rfl, hl, rfl⟩)
  | loop =>
    rw [State.decTurn_atEnd hp (hend (.inr hp))] at ht
    obtain ⟨d, hd, rfl⟩ := State.endDec_eq_next.1 ht
    exact .inr (.inr hd)

/-- Every turn of busy DEC keeps what the call ends in and is one of the turns left. -/
theorem Inv.decTurn_advances {s t : State} (h : Inv s) (hb : s.dec.phase ≠ .idle) (ht : s.decTurn = .next t) :
    DecState.Advances s.cfg s.resets s.dec t.dec := by
  obtain ⟨hc, hs⟩ | hs | ⟨hp, hl, hs⟩ | hs := h.decTurn_row hb ht
  · exact h.dec.consume_advances h.config hc hs
  · exact DecState.scanEndStep_advances hs
  · rw [hs]
    exact DecState.badFirst_advances hp (.inl hl)
  · exact h.dec.endStep_advances hs

/-- Nothing but its own turn and RESET touches busy DEC (R69, R204, R236). -/
theorem State.runEvent_dec_busy {s t : State} {ev : Event} (hr : ev ≠ .reset) (hturn : ev ≠ .turn .dec)
    (hb : s.dec.phase ≠ .idle) (h : s.runEvent ev = .next t) : t.dec = s.dec := by
  cases ev with
  | host a =>
    obtain ⟨-, hdec, -⟩ := State.hostAccess_engine h
    exact hdec hb
  | turn g =>
    cases g with
    | enc => rw [State.encTurn_frame h]; rfl
    | dec => exact absurd rfl hturn
  | reset => exact absurd rfl hr

end Sys2Proof.Machine
end

section
/-! A whole DEC call (R181): START, then any schedule short of a RESET that gives DEC its turns. -/

namespace Sys2Proof.Machine

/-! ### The call along an entry of the order of steps -/

/-- DEC is in a call on the input `cs` that ends in `res` after `n` more turns; with none left it has ended so. -/
structure State.DecCall (cs : List Code) (res : Except (ErrCode × Nat) (List Byte)) (n : Nat) (s : State) : Prop where
  inv : Inv s
  input : s.DecInput cs
  outcome : s.dec.outcome s.cfg s.resets = res
  turns : s.dec.turnsLeft s.cfg s.resets = n

section
variable {cs : List Code} {res : Except (ErrCode × Nat) (List Byte)} {n : Nat} {s : State}

theorem State.DecCall.withScript (h : s.DecCall cs res n) (l : List Event) : (s.withScript l).DecCall cs res n :=
  ⟨h.inv.withScript l, h.input, h.outcome, h.turns⟩

theorem State.DecCall.busy (h : s.DecCall cs res (n + 1)) : s.dec.phase ≠ .idle :=
  DecState.turnsLeft_pos.1 (by rw [h.turns]; exact Nat.succ_pos n)

theorem State.DecCall.idle (h : s.DecCall cs res 0) : s.dec.phase = .idle := by
  by_contra hb
  exact Nat.ne_of_gt (DecState.turnsLeft_pos.2 hb) h.turns

/-- An entry of the order of steps that is neither a RESET nor a turn of DEC leaves the call as it is. -/
theorem State.DecCall.other {t : State} {ev : Event} (h : s.DecCall cs res (n + 1)) (hr : ev ≠ .reset)
    (hturn : ev ≠ .turn .dec) (ht : s.runEvent ev = .next t) : t.DecCall cs res (n + 1) := by
  have hdec := State.runEvent_dec_busy hr hturn h.busy ht
  have hres := State.runEvent_resets hr ht
  obtain ⟨hcfg, -⟩ := State.runEvent_frame ht
  exact ⟨h.inv.runEvent ht, h.input.of_eq (by rw [hdec]) (by rw [hdec]) hres, by rw [hdec, hcfg, hres, h.outcome],
    by rw [hdec, hcfg, hres, h.turns]⟩

/-- A turn of DEC takes one of the turns the call has left. -/
theorem State.DecCall.decTurn {t : State} (h : s.DecCall cs res (n + 1)) (ht : s.decTurn = .next t) :
    t.DecCall cs res n := by
  obtain ⟨hout, hturns⟩ := h.inv.decTurn_advances h.busy ht
  have hw := State.decTurn_writes ht
  have hres : t.resets = s.resets := State.runEvent_resets (ev := .turn .dec) (by simp) ht
  have hcfg : t.cfg = s.cfg := (State.runEvent_frame (ev := .turn .dec) ht).1
  refine ⟨h.inv.decTurn ht, h.input.of_eq hw.ilen hw.ibuf hres, by rw [hcfg, hres, hout, h.outcome], ?_⟩
  rw [h.turns] at hturns
  rw [hcfg, hres]
  exact Nat.succ_injective hturns

/-- A schedule without RESET that gives DEC fewer turns than its call has left leaves it in the call, with those turns taken. -/
theorem State.DecCall.run {l tail : List Event} (hl : ∀ ev ∈ l, ev ≠ .reset)
    (h : s.DecCall cs res (l.count (.turn .dec) + n + 1)) (hs : s.script = l ++ tail) :
    ∃ t, core.run l.length s = .next t ∧ t.script = tail ∧ t.DecCall cs res (n + 1) := by
  induction l generalizing s with
  | nil => exact ⟨s, rfl, hs, by simpa using h⟩
  | cons ev l ih =>
    rw [List.forall_mem_cons] at hl
    obtain ⟨hr, hl⟩ := hl
    have hcall := h.withScript (l ++ tail)
    obtain ⟨t, ht⟩ := hcall.inv.runEvent_enabled ev
    have hstep : step s = .next t := (step_cons hs).trans ht
    have hnext : t.DecCall cs res (l.count (.turn .dec) + n + 1) := by
      by_cases hev : ev = .turn .dec
      · subst hev
        rw [List.count_cons_self, Nat.add_right_comm _ 1] at hcall
        exact hcall.decTurn ht
      · rw [List.count_cons_of_ne hev] at hcall
        exact hcall.other hr hev ht
    obtain ⟨-, hscript, -⟩ := State.runEvent_frame ht
    obtain ⟨u, hu, hrest⟩ := ih hl hnext hscript
    exact ⟨u, (core_run_succ hstep _).trans hu, hrest⟩

end

/-! ### DEC.START and the whole call -/

/-- A START word written to `DEC_CTRL` starts DEC (R96, R170). -/
theorem step_decStart {s : State} {w : Word} {l : List Event} (hw : w.getLsbD 0 = true)
    (hs : s.script = .host (writeReg s.cfg (.ctrl .dec) w) :: l) :
    step s = .next (((s.withScript l).start .dec).withReply .ack) := by
  have hdec : decodeBus s.cfg (writeReg s.cfg (.ctrl .dec) w) = .ok (.decStart (w.extractLsb' 1 31)) :=
    (decodeBus_writeReg _ w rfl).trans (congrArg Except.ok (if_pos hw))
  rw [step_cons hs]
  exact State.hostAccess_ok (s := s.withScript l) hdec

/-- START begins a call on the input in place (R170, R181). -/
theorem State.DecInput.start {s t : State} {cs : List Code} (hin : s.DecInput cs) (h : Inv s) (hp : s.dec.phase = .idle)
    (hlen : cs.length ≤ s.cfg.decInMax) (ht : t = (s.start .dec).withReply .ack) :
    t.DecCall cs (lzwDecode s.cfg.decOutMax cs)
      (cs.length + 1 + loopTurns cs.length (lzwDecode s.cfg.decOutMax cs) 0) := by
  have hdec : t.dec = { s.dec with phase := .scan, regs := s.dec.regs.cleared, last := [], dict := .empty } :=
    (congrArg State.dec ht).trans (DecState.start_idle hp (hin.1 ▸ hlen))
  have hinput : t.DecInput cs := hin.of_eq (by rw [hdec]; rfl) (by rw [hdec]) (by rw [ht]; rfl)
  have hcfg : t.cfg = s.cfg := by rw [ht]; rfl
  have hphase : t.dec.phase = .scan := by rw [hdec]
  have hipos : t.dec.regs.ipos.toNat = 0 := by rw [hdec]; rfl
  have hdict : t.dec.dict = .empty := by rw [hdec]
  have hout : t.dec.outcome t.cfg t.resets = lzwDecode s.cfg.decOutMax cs := by
    rw [DecState.outcome_scan hphase, hipos, hdict, hinput.inputFrom_zero, hcfg, lzwDecode_eq]
  exact ⟨ht ▸ (h.start .dec).withReply _, hinput, hout,
    by rw [DecState.turnsLeft_scan hphase, hipos, hout, hinput.1, Nat.sub_zero]⟩

/-- R181: from an idle DEC with the input in place, START and the turns a call takes, with anything short of a RESET interleaved,
end the call, and not one turn earlier. -/
theorem decCall_run {s : State} {cs : List Code} {w : Word} {n : Nat} {l rest : List Event} (h : Inv s)
    (hp : s.dec.phase = .idle) (hin : s.DecInput cs) (hlen : cs.length ≤ s.cfg.decInMax) (hw : w.getLsbD 0 = true)
    (hl : DecSchedule s.cfg n l) (hturns : cs.length + 1 + loopTurns cs.length (lzwDecode s.cfg.decOutMax cs) 0 = n + 1)
    (hs : s.script = .host (writeReg s.cfg (.ctrl .dec) w) :: (l ++ .turn .dec :: rest)) :
    ∃ u t, core.run (l.length + 1) s = .next u ∧ u.dec.phase ≠ .idle ∧ core.run (l.length + 2) s = .next t ∧
      t.script = rest ∧ t.DecCall cs (lzwDecode s.cfg.decOutMax cs) 0 ∧ t.dec.regs.done = !t.dec.regs.err := by
  obtain ⟨hcount, hev⟩ := hl
  have hstart := step_decStart hw hs
  have hcall := hin.start (s := s.withScript (l ++ .turn .dec :: rest)) (h.withScript _) hp hlen rfl
  rw [State.withScript_cfg, hturns, ← hcount] at hcall
  obtain ⟨u, hu, hscript, hlast⟩ := State.DecCall.run (n := 0) (fun ev he => (hev ev he).1) hcall rfl
  have hrun := (core_run_succ hstart _).trans hu
  have hcall' := hlast.withScript rest
  obtain ⟨t, ht⟩ := hcall'.inv.decTurn_enabled
  obtain ⟨-, hrest, -⟩ := State.runEvent_frame (ev := .turn .dec) ht
  have hend := hcall'.decTurn ht
  obtain ⟨hdone, herr, -⟩ := hcall'.inv.busy_flags (mt State.stateNum_dec.1 hcall'.busy)
  exact ⟨u, t, hrun, hlast.busy, core_run_last hrun ((step_cons hscript).trans ht), hrest, hend,
    State.decTurn_end ht hcall'.busy ⟨hdone, herr⟩ hend.idle⟩

/-- Settles O54: the call ends in the outcome `decode` gives, and an outcome with an output is that of an idle DEC without ERR. -/
theorem decodeCallReturnsTheFunction : Obligations.DecodeCallReturnsTheFunction := by
  intro s cs out w l rest h hp hin hlen hout hw hl hs
  have hturns : cs.length + 1 + loopTurns cs.length (lzwDecode s.cfg.decOutMax cs) 0 = 2 * cs.length + 1 + 1 := by
    rw [hout]
    simp only [loopTurns]
    omega
  obtain ⟨u, t, hu, hbusy, ht, hrest, hend, hdone⟩ := decCall_run h hp hin hlen hw hl hturns hs
  obtain ⟨hdict, hlast⟩ := hend.inv.dec.idle hend.idle
  have hres := hend.outcome
  rw [DecState.outcome_idle hend.idle, hout] at hres
  cases herr : t.dec.regs.err with
  | true => simp [herr] at hres
  | false =>
    simp only [herr, Bool.false_eq_true, if_false, Except.ok.injEq] at hres
    rw [herr] at hdone
    subst hres
    have hocnt : t.dec.regs.ocnt.toNat = t.dec.output.length := by
      rw [hend.inv.dec.regs.ocnt, hdone, DecState.length_output]
      rfl
    exact ⟨u, t, hu, hbusy, ht, hrest, hend.idle, hdone, herr, hocnt, fun j hj => hend.inv.dec.get?_obuf hj, hdict, hlast,
      hend.input⟩

/-- Settles O55: the call ends in the outcome `decode` gives, and an outcome with an error is that of an idle DEC with ERR. -/
theorem decodeCallReportsTheError : Obligations.DecodeCallReportsTheError := by
  intro s cs c i w l rest h hp hin hlen hout hw hl hs
  have hturns : cs.length + 1 + loopTurns cs.length (lzwDecode s.cfg.decOutMax cs) 0 = cs.length + i + 1 + 1 := by
    rw [hout]
    simp only [loopTurns]
    omega
  obtain ⟨u, t, hu, hbusy, ht, hrest, hend, hdone⟩ := decCall_run h hp hin hlen hw hl hturns hs
  obtain ⟨hdict, hlast⟩ := hend.inv.dec.idle hend.idle
  have hres := hend.outcome
  rw [DecState.outcome_idle hend.idle, hout] at hres
  cases herr : t.dec.regs.err with
  | false => simp [herr] at hres
  | true =>
    simp only [herr, if_true, Except.error.injEq, Prod.mk.injEq] at hres
    obtain ⟨hcode, hinfo⟩ := hres
    obtain ⟨-, hnot, hocnt, -⟩ := hend.inv.dec.regs.of_err herr
    exact ⟨u, t, hu, hbusy, ht, hrest, hend.idle, hnot, herr, lzwDecode_error hout, hcode, hinfo, hocnt, hdict, hlast,
      hend.input⟩

end Sys2Proof.Machine
end

section
/-! The host operations (R200 to R204): what a register or an element reads as, what a write leaves, and a busy engine. -/

namespace Sys2Proof.Machine

/-! ### Reading a register -/

/-- Settles O10: the value read is that of `readReg`, and the status word is the sum of its fields. -/
theorem readRegisterReturnsItsValue : Obligations.ReadRegisterReturnsItsValue := by
  intro r s
  have hstatus (g : Engine) := (s.regsOf g).statusWord_toNat (s.stateNum g)
  refine ⟨s.readReg r, rfl, ?_, ?_, ?_, ?_, ?_, fun g hr => hr ▸ hstatus g, ?_, ?_, ?_, ?_⟩
  all_goals intros; subst r; rfl

/-! ### Writing a register -/

section
variable {s : State} {g : Engine} {v : Word}

theorem State.writeIlen_enc_idle (hp : s.enc.phase = .idle) :
    s.writeIlen .enc v = s.withEnc { s.enc with regs := { s.enc.regs with ilen := v } } := if_pos hp

theorem State.writeIlen_dec_idle (hp : s.dec.phase = .idle) :
    s.writeIlen .dec v = s.withDec { s.dec with regs := { s.dec.regs with ilen := v } } := if_pos hp

theorem State.writeIlen_busy (hb : s.stateNum g ≠ 0) : s.writeIlen g v = s := by
  cases g with
  | enc => exact if_neg (State.stateNum_enc.not.1 hb)
  | dec => exact if_neg (State.stateNum_dec.not.1 hb)

theorem State.start_busy (hb : s.stateNum g ≠ 0) : s.start g = s := by
  cases g with
  | enc => exact congrArg s.withEnc (EncState.start_busy (State.stateNum_enc.not.1 hb))
  | dec => exact congrArg s.withDec (DecState.start_busy (State.stateNum_dec.not.1 hb))

theorem State.writeReg_ctrl_start (hv : v.getLsbD 0 = true) : s.writeReg (.ctrl g) v = s.start g := if_pos hv

theorem State.writeReg_ctrl_noStart (hv : v.getLsbD 0 = false) : s.writeReg (.ctrl g) v = s := by
  rw [State.writeReg, hv]
  rfl

theorem State.writeReg_ctrl_busy (hb : s.stateNum g ≠ 0) : s.writeReg (.ctrl g) v = s := by
  cases hv : v.getLsbD 0 with
  | true => rw [State.writeReg_ctrl_start hv, State.start_busy hb]
  | false => exact State.writeReg_ctrl_noStart hv

/-- Only `G_ILEN` and `G_CTRL` can be written (R201). -/
theorem State.writeReg_readOnly {r : Reg} (hr : ∀ g, r ≠ .ilen g ∧ r ≠ .ctrl g) : s.writeReg r v = s := by
  cases r with
  | ilen g => exact absurd rfl (hr g).1
  | ctrl g => exact absurd rfl (hr g).2
  | _ => rfl

end

/-- Settles O12: a length or a START of an idle engine, and the writes that are ignored. -/
theorem writeRegisterEffect : Obligations.WriteRegisterEffect := by
  intro r v s
  refine ⟨(s.writeReg r v).withReply .ack, rfl, ?_, ?_, ?_, ?_, fun hignored => congrArg (State.withReply · .ack) ?_⟩
  · rintro rfl hp
    exact congrArg (State.withReply · .ack) (State.writeIlen_enc_idle hp)
  · rintro rfl hp
    exact congrArg (State.withReply · .ack) (State.writeIlen_dec_idle hp)
  · rintro rfl hv -
    rw [State.writeReg_ctrl_start hv]
    rfl
  · rintro rfl hv -
    rw [State.writeReg_ctrl_start hv]
    rfl
  · obtain hr | ⟨g, rfl, hv⟩ | ⟨g, rfl | rfl, hb⟩ := hignored
    · exact State.writeReg_readOnly hr
    · exact State.writeReg_ctrl_noStart hv
    · exact State.writeIlen_busy hb
    · exact State.writeReg_ctrl_busy hb

/-! ### Reading an element -/

section
variable {s : State} {S : Space} {i : Nat}

theorem State.readElem_specified {v : BitVec 16} (h : s.specifiedElem S i = some v) :
    s.readElem S i = s.withReply (.elem v) := by
  rw [State.readElem, h]

theorem State.readElem_unspecified (h : s.specifiedElem S i = none) :
    s.readElem S i = (s.withReply (.elem (s.unspecifiedElem S))).withFreeReads (s.freeReads + 1) := by
  rw [State.readElem, h]

theorem State.specifiedElem_encObuf_below (h : i < s.enc.regs.ocnt.toNat) :
    s.specifiedElem .encObuf i = s.enc.obuf.get? i := if_pos h

theorem State.specifiedElem_decObuf_below (h : i < s.dec.regs.ocnt.toNat) :
    s.specifiedElem .decObuf i = (s.dec.obuf.get? i).map (·.zeroExtend 16) := if_pos h

theorem State.specifiedElem_encObuf_beyond (h : s.enc.regs.ocnt.toNat ≤ i) : s.specifiedElem .encObuf i = none :=
  if_neg (Nat.not_lt.2 h)

theorem State.specifiedElem_decObuf_beyond (h : s.dec.regs.ocnt.toNat ≤ i) : s.specifiedElem .decObuf i = none :=
  if_neg (Nat.not_lt.2 h)

theorem exec_hostRdbuf_inRange (hi : i < S.count s.cfg) : exec (.hostRdbuf S i) s = .next (s.readElem S i) := if_pos hi

theorem exec_hostRdbuf_pastEnd (hi : S.count s.cfg ≤ i) :
    exec (.hostRdbuf S i) s = .next (s.withReply (.busError .pastEnd)) := if_neg (Nat.not_lt.2 hi)

theorem State.readElem_frame : (s.readElem S i).cfg = s.cfg ∧ (s.readElem S i).enc = s.enc ∧ (s.readElem S i).dec = s.dec ∧
    (s.readElem S i).script = s.script ∧ (s.readElem S i).resets = s.resets := by
  obtain ⟨n, hread⟩ := s.readElem_eq S i
  rw [hread]
  exact ⟨rfl, rfl, rfl, rfl, rfl⟩

end

/-- Settles O13: beyond the buffer the bus error, within it the element `specifiedElem` gives, and a free value where it gives
none. -/
theorem readBufferReturnsTheElement : Obligations.ReadBufferReturnsTheElement := by
  intro S i s
  by_cases hi : i < S.count s.cfg
  · obtain ⟨hcfg, henc, hdec, hscript, hresets⟩ := State.readElem_frame (s := s) (S := S) (i := i)
    refine ⟨s.readElem S i, exec_hostRdbuf_inRange hi, hcfg, henc, hdec, hscript, hresets,
      fun h => absurd hi (Nat.not_lt.2 h), fun _ => ⟨?_, ?_, ?_, ?_, ?_, ?_⟩⟩
    · rintro rfl
      exact State.readElem_specified rfl
    · rintro rfl
      exact State.readElem_specified rfl
    · rintro rfl hocnt v hv
      exact State.readElem_specified ((State.specifiedElem_encObuf_below hocnt).trans hv)
    · rintro rfl hocnt v hv
      exact State.readElem_specified ((State.specifiedElem_decObuf_below hocnt).trans (congrArg _ hv))
    · rintro rfl hocnt
      rw [State.readElem_unspecified (State.specifiedElem_encObuf_beyond hocnt)]
      exact ⟨rfl, rfl⟩
    · rintro rfl hocnt
      rw [State.readElem_unspecified (State.specifiedElem_decObuf_beyond hocnt)]
      exact ⟨rfl, rfl⟩
  · exact ⟨_, exec_hostRdbuf_pastEnd (Nat.not_lt.1 hi), rfl, rfl, rfl, rfl, rfl, fun _ => rfl, fun h => absurd h hi⟩

/-! ### Writing an element -/

section
variable {s : State} {S : Space} {i : Nat} {v : BitVec 16}

theorem State.writeElem_enc_idle (hp : s.enc.phase = .idle) :
    s.writeElem .encIbuf i v = s.withEnc { s.enc with ibuf := s.enc.ibuf.set i (v.truncate 8) } := if_pos hp

theorem State.writeElem_dec_idle (hp : s.dec.phase = .idle) :
    s.writeElem .decIbuf i v = s.withDec { s.dec with ibuf := s.dec.ibuf.set i v } := if_pos hp

theorem State.writeElem_enc_busy (hp : s.enc.phase ≠ .idle) : s.writeElem .encIbuf i v = s := if_neg hp

theorem State.writeElem_dec_busy (hp : s.dec.phase ≠ .idle) : s.writeElem .decIbuf i v = s := if_neg hp

theorem exec_hostWrbuf_inRange (hin : S.isInput = true) (hi : i < S.count s.cfg) :
    exec (.hostWrbuf S i v) s = .next ((s.writeElem S i v).withReply .ack) := (if_pos hin).trans (if_pos hi)

theorem exec_hostWrbuf_pastEnd (hin : S.isInput = true) (hi : S.count s.cfg ≤ i) :
    exec (.hostWrbuf S i v) s = .next (s.withReply (.busError .pastEnd)) :=
  (if_pos hin).trans (if_neg (Nat.not_lt.2 hi))

theorem exec_hostWrbuf_readOnly (hout : S.isInput = false) :
    exec (.hostWrbuf S i v) s = .next (s.withReply (.busError .readOnly)) := by
  rw [exec_hostWrbuf, execHostWrbuf, hout]
  rfl

end

/-- Settles O14: an output buffer is read-only; in an input buffer the element is stored while the engine is idle, and an index
beyond the buffer is refused. -/
theorem writeBufferStoresOneElement : Obligations.WriteBufferStoresOneElement := by
  intro S i v s
  cases S with
  | encObuf | decObuf =>
    exact ⟨_, exec_hostWrbuf_readOnly rfl, nofun, nofun, nofun, nofun, fun _ => rfl, nofun⟩
  | encIbuf =>
    rcases Nat.lt_or_ge i s.cfg.encInMax with hi | hi
    · refine ⟨_, exec_hostWrbuf_inRange rfl hi, fun _ _ hp => ?_, nofun, fun _ _ hp => ?_, nofun, nofun,
        fun _ h => absurd hi (Nat.not_lt.2 h)⟩
      · exact ⟨_, congrArg (State.withReply · .ack) (State.writeElem_enc_idle hp), Buf.get?_set_self _ i _,
          fun _ hj => Buf.get?_set_ne _ _ hj⟩
      · rw [State.writeElem_enc_busy hp]
    · have hbeyond := Nat.not_lt.2 hi
      exact ⟨_, exec_hostWrbuf_pastEnd rfl hi, fun _ h => absurd h hbeyond, nofun, fun _ h => absurd h hbeyond, nofun, nofun,
        fun _ _ => rfl⟩
  | decIbuf =>
    rcases Nat.lt_or_ge i s.cfg.decInMax with hi | hi
    · refine ⟨_, exec_hostWrbuf_inRange rfl hi, nofun, fun _ _ hp => ?_, nofun, fun _ _ hp => ?_, nofun,
        fun _ h => absurd hi (Nat.not_lt.2 h)⟩
      · exact ⟨_, congrArg (State.withReply · .ack) (State.writeElem_dec_idle hp), Buf.get?_set_self _ i _,
          fun _ hj => Buf.get?_set_ne _ _ hj⟩
      · rw [State.writeElem_dec_busy hp]
    · have hbeyond := Nat.not_lt.2 hi
      exact ⟨_, exec_hostWrbuf_pastEnd rfl hi, nofun, fun _ h => absurd h hbeyond, nofun, fun _ h => absurd h hbeyond, nofun,
        fun _ _ => rfl⟩

/-! ### A busy engine -/

/-- While busy there is no result and no error to report (R26, R30, R204). -/
theorem RegsInv.busy_results {n : Nat} {c : CallRegs} (h : RegsInv false n c) : c.ocnt = 0 ∧ c.errinfo = 0 := by
  obtain ⟨hdone, herr, -⟩ := h.busy_flags
  exact ⟨by simpa [hdone] using h.ocnt, h.errinfo herr⟩

theorem Inv.busy_results {s : State} (h : Inv s) {g : Engine} (hb : s.stateNum g ≠ 0) :
    s.readReg (.ocnt g) = 0 ∧ s.readReg (.errinfo g) = 0 := by
  cases g with
  | enc => exact (h.enc.busyRegs rfl (State.stateNum_enc.not.1 hb)).busy_results
  | dec => exact (h.dec.busyRegs rfl (State.stateNum_dec.not.1 hb)).busy_results

/-- The status word of a busy engine is its state's number alone (R204). -/
theorem Inv.busy_status {s : State} (h : Inv s) {g : Engine} (hb : s.stateNum g ≠ 0) :
    (s.readReg (.status g)).toNat = (s.stateNum g).toNat := by
  obtain ⟨hdone, herr, hcode⟩ := h.busy_flags hb
  rw [State.readReg, CallRegs.statusWord_toNat, hdone, herr, hcode]
  rfl

/-- Settles O15: the access leaves the engine, and the invariant makes its count and its error 0, so that no output element is
specified. -/
theorem busyEngineIgnoresTheHost : Obligations.BusyEngineIgnoresTheHost := by
  intro s t a rest h hs ht
  rw [step_cons hs] at ht
  obtain ⟨henc, hdec, -⟩ := State.hostAccess_engine ht
  refine ⟨fun hp => ?_, fun hp => ?_⟩
  · have hb : s.stateNum .enc ≠ 0 := State.stateNum_enc.not.2 hp
    obtain ⟨hocnt, herrinfo⟩ := h.busy_results hb
    have hnone : s.enc.regs.ocnt = 0 := hocnt
    exact ⟨henc hp, hocnt, herrinfo, rfl, h.busy_status hb,
      fun i => State.specifiedElem_encObuf_beyond (by simp [hnone]), fun _ => rfl⟩
  · have hb : s.stateNum .dec ≠ 0 := State.stateNum_dec.not.2 hp
    obtain ⟨hocnt, herrinfo⟩ := h.busy_results hb
    have hnone : s.dec.regs.ocnt = 0 := hocnt
    exact ⟨hdec hp, hocnt, herrinfo, rfl, h.busy_status hb,
      fun i => State.specifiedElem_decObuf_beyond (by simp [hnone]), fun _ => rfl⟩

end Sys2Proof.Machine
end

section
/-! What the function `encode` (R149) emits: a successful run after SCAN is a derivation `Encodes`, whose codes are bounded (R225,
R228, R230) and begin with a literal (R155). -/

namespace Sys2Proof.Machine

/-! ### The dictionary under R34 -/

section
variable {d : Dict} {k : Code} {p q : Pattern} {b : Byte}

/-- R34 item 1: `FINDC` answers the pattern of the one entry with the code (R126). -/
theorem DictInv.findC_of_mem (h : DictInv d) (he : (⟨k, p⟩ : Entry) ∈ d.ent) : d.findC k = some p := by
  obtain ⟨q, hq⟩ := Option.isSome_iff_exists.1 (Dict.isSome_findC.2 (List.mem_map_of_mem he))
  rw [hq, h.pattern_unique (Dict.mem_of_findC hq) he]

/-- R34 item 2 for an entry given by its code and pattern. -/
theorem DictInv.pattern_of_literal (h : DictInv d) (he : (⟨k, p⟩ : Entry) ∈ d.ent) (hk : isLitCode k = true) :
    p = [byteOfCode k] :=
  h.findC_literal hk (h.findC_of_mem he)

/-- R34 items 2 and 3: an entry of one byte has that byte's literal code. -/
theorem DictInv.code_of_byte (h : DictInv d) (he : (⟨k, [b]⟩ : Entry) ∈ d.ent) : k = codeOfByte b := by
  cases hk : isLitCode k with
  | true =>
    obtain rfl := List.singleton_inj.1 (h.pattern_of_literal he hk)
    exact (codeOfByte_byteOfCode hk).symm
  | false =>
    have hmulti : (⟨k, [b]⟩ : Entry) ∈ d.multi := List.mem_filter.2 ⟨he, by simp [Entry.isLiteral, hk]⟩
    exact absurd (h.multiLength _ hmulti).1 (by simp)

theorem DictInv.findC_codeOfByte (h : DictInv d) (hb : codeOfByte b ∈ d.ent.map Entry.code) :
    d.findC (codeOfByte b) = some [b] := by
  obtain ⟨p, hp⟩ := Option.isSome_iff_exists.1 (Dict.isSome_findC.2 hb)
  rw [hp, h.findC_literal (isLitCode_codeOfByte b) hp, byteOfCode_codeOfByte]

theorem DictInv.byte_mem_patterns (h : DictInv d) (hb : codeOfByte b ∈ d.ent.map Entry.code) : [b] ∈ d.patterns :=
  Dict.mem_patterns (Dict.mem_of_findC (h.findC_codeOfByte hb))

theorem Dict.add_literal (hroom : d.full = false) (b : Byte) :
    d.add [b] = { d with ent := d.ent ++ [⟨codeOfByte b, [b]⟩] } :=
  Dict.add_of_insert (Dict.insert_literal hroom b)

theorem Dict.add_multi (hroom : d.full = false) (hp : p.length ≠ 1) :
    d.add p = { ent := d.ent ++ [⟨d.next, p⟩], next := d.next + 1 } :=
  Dict.add_of_insert (Dict.insert_multi hroom hp)

/-- The entry of a pattern one byte longer than one of the dictionary's, added while there is room, keeps the rules of R34 and is
the last multi-byte entry. -/
theorem DictInv.add_extension (h : DictInv d) (hroom : d.full = false) (hq : q ∈ d.patterns) (hp : p.length = q.length + 1) :
    DictInv (d.add p) ∧ (d.add p).multi = d.multi ++ [⟨d.next, p⟩] ∧ (d.add p).literals = d.literals ∧
      (d.add p).ent = d.ent ++ [⟨d.next, p⟩] := by
  obtain ⟨hpos, hlen⟩ := h.length_le hq
  obtain ⟨e, he, -⟩ := List.mem_map.1 hq
  rw [Dict.add_multi hroom (by omega)]
  exact ⟨h.insert_multi hroom (by omega) (by omega) (h.literals_ne_nil (List.ne_nil_of_mem he)), h.multi_append p,
    h.literals_append p, rfl⟩

end

/-! ### SCAN -/

/-- A dictionary of literal entries alone, as SCAN builds it. -/
structure LiteralDict (d : Dict) : Prop where
  dict : DictInv d
  multi : d.multi = []

/-- The SCAN of `encode` adds the literals of its bytes, and nothing else (R141, R149). -/
theorem LiteralDict.scan {d : Dict} (h : LiteralDict d) (s : List Byte) :
    LiteralDict (encodeScan d s) ∧
      ∀ k, k ∈ (encodeScan d s).ent.map Entry.code ↔ k ∈ d.ent.map Entry.code ∨ k ∈ s.map codeOfByte := by
  induction s generalizing d with
  | nil => exact ⟨h, fun k => by simp [encodeScan]⟩
  | cons b s ih =>
    by_cases hb : codeOfByte b ∈ d.ent.map Entry.code
    · rw [encodeScan_known hb]
      obtain ⟨hlit, hcodes⟩ := ih h
      refine ⟨hlit, fun k => ?_⟩
      rw [hcodes, List.map_cons, List.mem_cons]
      constructor
      · exact Or.imp_right .inr
      · rintro (hk | rfl | hk)
        exacts [.inl hk, .inl hb, .inr hk]
    · have hroom := h.dict.full_of_literals h.multi
      have hadd : LiteralDict (d.add [b]) := by
        rw [Dict.add_literal hroom]
        exact ⟨h.dict.insert_literal hroom hb, by simpa [Dict.multi, Entry.isLiteral] using h.multi⟩
      rw [encodeScan_new hb]
      obtain ⟨hlit, hcodes⟩ := ih hadd
      refine ⟨hlit, fun k => ?_⟩
      rw [hcodes, Dict.add_literal hroom, List.map_append, List.mem_append, List.map_cons, List.mem_cons, or_assoc]
      simp

/-- The SCAN of `decode` is that of `encode` on the bytes of the literal codes (R141, R171). -/
theorem decodeScan_eq_encodeScan (d : Dict) (cs : List Code) :
    decodeScan d cs = encodeScan d ((cs.filter isLitCode).map byteOfCode) := by
  induction cs generalizing d with
  | nil => rfl
  | cons k cs ih =>
    cases hk : isLitCode k with
    | false => rw [decodeScan_skip (.inl hk), List.filter_cons_of_neg (by simp [hk]), ih]
    | true =>
      rw [List.filter_cons_of_pos hk, List.map_cons]
      by_cases hmem : k ∈ d.ent.map Entry.code
      · rw [decodeScan_skip (.inr hmem), encodeScan_known (by rwa [codeOfByte_byteOfCode hk]), ih]
      · rw [decodeScan_new hk hmem, encodeScan_new (by rwa [codeOfByte_byteOfCode hk]), ih]

theorem LiteralDict.empty : LiteralDict .empty := ⟨.empty, rfl⟩

/-- The dictionary `encode` has after SCAN: the literals of the input. -/
theorem literalDict_encodeScan (bs : List Byte) : LiteralDict (encodeScan .empty bs) := (LiteralDict.empty.scan bs).1

theorem mem_encodeScan {bs : List Byte} {k : Code} :
    k ∈ (encodeScan .empty bs).ent.map Entry.code ↔ k ∈ bs.map codeOfByte := by
  rw [(LiteralDict.empty.scan bs).2]
  simp

/-- The dictionary `decode` has after SCAN: the literals of the stream. -/
theorem literalDict_decodeScan (cs : List Code) : LiteralDict (decodeScan .empty cs) := by
  rw [decodeScan_eq_encodeScan]
  exact literalDict_encodeScan _

theorem mem_decodeScan {cs : List Code} {k : Code} :
    k ∈ (decodeScan .empty cs).ent.map Entry.code ↔ k ∈ cs ∧ isLitCode k = true := by
  rw [decodeScan_eq_encodeScan, mem_encodeScan, List.map_map, ← List.mem_filter]
  have hid : (cs.filter isLitCode).map (codeOfByte ∘ byteOfCode) = cs.filter isLitCode :=
    (List.map_congr_left fun j hj => codeOfByte_byteOfCode (List.mem_filter.1 hj).2).trans (List.map_id _)
  rw [hid]

/-! ### MATCH and FLUSH as a derivation -/

/-- What the MATCH lines of R149 keep once a byte has been read: the rules of R34, a literal for each byte to come, and the pattern
matched so far in the dictionary. -/
structure MatchInv (T : Dict) (P : Pattern) (s : List Byte) : Prop where
  dict : DictInv T
  covered : ∀ b ∈ s, codeOfByte b ∈ T.ent.map Entry.code
  pattern : P ∈ T.patterns

/-- `encode` goes on from the dictionary `T` and the pattern `P` on the bytes `s` and emits `cs` (R143, R144, R147). -/
inductive Encodes : Dict → Pattern → List Byte → List Code → Prop
  | flush {T P k} : MatchInv T P [] → (⟨k, P⟩ : Entry) ∈ T.ent → Encodes T P [] [k]
  | hit {T P c s cs} : MatchInv T P (c :: s) → Encodes T (P ++ [c]) s cs → P ++ [c] ∈ T.patterns → Encodes T P (c :: s) cs
  | miss {T P c s k cs} : MatchInv T P (c :: s) → (⟨k, P⟩ : Entry) ∈ T.ent → T.full = false →
      Encodes (T.add (P ++ [c])) [c] s cs → Encodes T P (c :: s) (k :: cs)

section
variable {T : Dict} {P : Pattern} {s : List Byte} {cs : List Code} {c b : Byte}

theorem MatchInv.ne_nil (h : MatchInv T P s) : P ≠ [] := List.length_pos_iff.1 (h.dict.length_le h.pattern).1

/-- What a miss adds to the dictionary (R144). -/
theorem MatchInv.add (h : MatchInv T P s) (hroom : T.full = false) (c : Byte) :
    DictInv (T.add (P ++ [c])) ∧ (T.add (P ++ [c])).multi = T.multi ++ [⟨T.next, P ++ [c]⟩] ∧
      (T.add (P ++ [c])).literals = T.literals ∧ (T.add (P ++ [c])).ent = T.ent ++ [⟨T.next, P ++ [c]⟩] :=
  h.dict.add_extension hroom h.pattern List.length_append

theorem MatchInv.hit (h : MatchInv T P (c :: s)) (hmem : P ++ [c] ∈ T.patterns) : MatchInv T (P ++ [c]) s :=
  ⟨h.dict, fun b hb => h.covered b (.tail _ hb), hmem⟩

theorem MatchInv.miss (h : MatchInv T P (c :: s)) (hroom : T.full = false) : MatchInv (T.add (P ++ [c])) [c] s := by
  obtain ⟨hdict, -, -, hent⟩ := h.add hroom c
  have hcodes : ∀ b ∈ c :: s, codeOfByte b ∈ (T.add (P ++ [c])).ent.map Entry.code := fun b hb => by
    rw [hent, List.map_append]
    exact List.mem_append_left _ (h.covered b hb)
  exact ⟨hdict, fun b hb => hcodes b (.tail _ hb), hdict.byte_mem_patterns (hcodes c (.head _))⟩

/-- The pattern matched has a code, whatever else is inserted before it is looked up (R144, R147). -/
theorem MatchInv.findP_add (h : MatchInv T P s) (hroom : T.full = false) (c : Byte) :
    ∃ k, (T.add (P ++ [c])).findP P = some k ∧ (⟨k, P⟩ : Entry) ∈ T.ent := by
  obtain ⟨k, hk⟩ := Option.isSome_iff_exists.1 (Dict.isSome_findP.2 h.pattern)
  have hlen := (h.dict.length_le h.pattern).1
  refine ⟨k, ?_, Dict.mem_of_findP hk⟩
  rw [Dict.add_multi hroom (by rw [List.length_append, List.length_singleton]; omega),
    Dict.findP_append_of_ne _ (by simp), hk]

/-- A successful run of MATCH and FLUSH is a derivation of the codes it emits. -/
theorem Encodes.of_encodeLoop {i : Nat} {out res : List Code} (h : MatchInv T P s)
    (hres : encodeLoop T P i out s = .ok res) : ∃ cs, res = out ++ cs ∧ Encodes T P s cs := by
  induction s generalizing T P i out with
  | nil =>
    obtain ⟨k, hk⟩ := Option.isSome_iff_exists.1 (Dict.isSome_findP.2 h.pattern)
    rw [encodeLoop, if_neg h.ne_nil, hk, Except.ok.injEq] at hres
    exact ⟨[k], hres.symm, .flush h (Dict.mem_of_findP hk)⟩
  | cons c s ih =>
    by_cases hmem : P ++ [c] ∈ T.patterns
    · rw [encodeLoop_hit hmem] at hres
      obtain ⟨cs, rfl, hcs⟩ := ih (h.hit hmem) hres
      exact ⟨cs, rfl, .hit h hcs hmem⟩
    · cases hroom : T.full with
      | true =>
        rw [encodeLoop_full hmem hroom] at hres
        cases hres
      | false =>
        obtain ⟨k, hk, he⟩ := h.findP_add hroom c
        rw [encodeLoop_miss hmem hroom, hk] at hres
        obtain ⟨cs, rfl, hcs⟩ := ih (h.miss hroom) hres
        exact ⟨k :: cs, List.append_assoc .., .miss h he hroom hcs⟩

theorem Encodes.inv (h : Encodes T P s cs) : MatchInv T P s := by
  cases h <;> assumption

/-- After SCAN the first byte of the input is a pattern to go on from. -/
theorem matchInv_encodeScan (b : Byte) (s : List Byte) : MatchInv (encodeScan .empty (b :: s)) [b] s := by
  have hdict := (literalDict_encodeScan (b :: s)).dict
  have hcodes : ∀ c ∈ b :: s, codeOfByte c ∈ (encodeScan .empty (b :: s)).ent.map Entry.code := fun c hc =>
    mem_encodeScan.2 (List.mem_map_of_mem hc)
  exact ⟨hdict, fun c hc => hcodes c (.tail _ hc), hdict.byte_mem_patterns (hcodes b (.head _))⟩

/-- The first byte of the input is a hit on the empty pattern (R153). -/
theorem lzwEncode_cons (b : Byte) (s : List Byte) :
    lzwEncode (b :: s) = encodeLoop (encodeScan .empty (b :: s)) [b] 1 [] s :=
  encodeLoop_hit (matchInv_encodeScan b s).pattern

/-- A successful `encode` of a non-empty input is a derivation from its first byte and the dictionary of SCAN. -/
theorem Encodes.of_lzwEncode (h : lzwEncode (b :: s) = .ok cs) : Encodes (encodeScan .empty (b :: s)) [b] s cs := by
  rw [lzwEncode_cons] at h
  obtain ⟨cs, rfl, hcs⟩ := Encodes.of_encodeLoop (matchInv_encodeScan b s) h
  exact hcs

/-! ### What is emitted -/

/-- R225: at most one code per byte, and one for the pattern matched. -/
theorem Encodes.length_le (h : Encodes T P s cs) : cs.length ≤ s.length + 1 := by
  induction h with
  | flush => exact Nat.le_refl _
  | hit _ _ _ ih => exact Nat.le_succ_of_le ih
  | miss _ _ _ _ ih => exact Nat.succ_le_succ ih

/-- R230: one code per multi-byte entry inserted, and one at the end. -/
theorem Encodes.multi_length_add_le (h : Encodes T P s cs) : T.multi.length + cs.length ≤ 4096 := by
  induction h with
  | flush hinv => exact Nat.succ_le_succ hinv.dict.multi_le
  | hit _ _ _ ih => exact ih
  | @miss T P c s k cs hinv _ hroom _ ih =>
    obtain ⟨-, hmulti, -⟩ := hinv.add hroom c
    rw [hmulti, List.length_append, List.length_singleton] at ih
    rw [List.length_cons]
    omega

/-- R228: every code emitted is that of an entry. -/
theorem Encodes.code_le (h : Encodes T P s cs) : ∀ k ∈ cs, k.toNat ≤ 4350 := by
  induction h with
  | flush hinv he => exact List.forall_mem_singleton.2 (hinv.dict.code_le he)
  | hit _ _ _ ih => exact ih
  | miss hinv he _ _ ih => exact List.forall_mem_cons.2 ⟨hinv.dict.code_le he, ih⟩

/-- R227: a literal code emitted has been in the dictionary since SCAN. -/
theorem Encodes.literal_mem (h : Encodes T P s cs) {k : Code} (hk : isLitCode k = true) (hmem : k ∈ cs) :
    k ∈ T.ent.map Entry.code := by
  induction h with
  | flush _ he =>
    rw [List.mem_singleton.1 hmem]
    exact List.mem_map_of_mem he
  | hit _ _ _ ih => exact ih hmem
  | @miss T P c s j cs hinv he hroom _ ih =>
    obtain rfl | hmem := List.mem_cons.1 hmem
    · exact List.mem_map_of_mem he
    · obtain ⟨-, -, -, hent⟩ := hinv.add hroom c
      have hin := ih hmem
      rw [hent, List.map_append, List.mem_append] at hin
      refine hin.resolve_right fun hnext => ?_
      obtain rfl := List.mem_singleton.1 hnext
      have hlow : T.next.toNat ≤ 255 := isLitCode_iff.1 hk
      have hhigh := hinv.dict.next_bounds.1
      omega

/-- R155: from the first byte on a dictionary of literals, its literal code is emitted, at the end of the input or at the next
byte. -/
theorem Encodes.first_code (h : Encodes T [b] s cs) (hm : T.multi = []) :
    ∃ cs', cs = codeOfByte b :: cs' ∧
      ((s = [] ∧ cs' = []) ∨ ∃ c s', s = c :: s' ∧ T.full = false ∧ Encodes (T.add [b, c]) [c] s' cs') := by
  cases h with
  | flush hinv he => exact ⟨[], by rw [hinv.dict.code_of_byte he], .inl ⟨rfl, rfl⟩⟩
  | miss hinv he hroom hcs => exact ⟨_, by rw [hinv.dict.code_of_byte he], .inr ⟨_, _, rfl, hroom, hcs⟩⟩
  | hit hinv _ hmem =>
    obtain ⟨e, he, hpat⟩ := List.mem_map.1 hmem
    have hlit := (Dict.mem_ent_iff.1 he).resolve_right (by simp [hm])
    rw [hinv.dict.literalPattern e hlit] at hpat
    simp at hpat

end

/-- Settles O59: the bounds of a derivation, from the first byte and no multi-byte entry. -/
theorem encodeOutputBounds : Obligations.EncodeOutputBounds := by
  intro bs cs hcs
  cases bs with
  | nil =>
    cases hcs
    exact ⟨Nat.le_refl _, Nat.zero_le _, by simp, nofun⟩
  | cons b s =>
    have h := Encodes.of_lzwEncode hcs
    have hmulti := (literalDict_encodeScan (b :: s)).multi
    refine ⟨h.length_le, Nat.le_trans (Nat.le_add_left ..) h.multi_length_add_le, h.code_le, ?_⟩
    rintro _ _ ⟨⟩
    obtain ⟨cs', rfl, -⟩ := h.first_code hmulti
    exact ⟨cs', rfl⟩

end Sys2Proof.Machine
end

section
/-! The function `decode` (R180) on what `encode` emits: it follows the derivation one entry behind, and outputs the input (R220). -/

namespace Sys2Proof.Machine

/-! ### `decode` one entry behind -/

/-- `decode` after the codes emitted so far, its last pattern `last`: its dictionary has no literal more than that of `encode` and
lacks the last multi-byte entry, which is `last` and the first byte of the pattern `encode` is matching (R221, R222). -/
structure Lagging (TE : Dict) (P : Pattern) (TD : Dict) (last : Pattern) : Prop where
  dict : DictInv TD
  last_mem : last ∈ TD.patterns
  multi : TE.multi = TD.multi ++ [⟨TD.next, last ++ P.take 1⟩]
  literals : TD.literals.length ≤ TE.literals.length

section
variable {TE TD : Dict} {P last : Pattern} {s : List Byte} {cs : List Code} {k : Code} {c : Byte}

/-- R227: `decode` has room wherever `encode` has kept to the capacity. -/
theorem Lagging.room (h : Lagging TE P TD last) (hE : DictInv TE) : TD.full = false := by
  have hcap := hE.capacity
  have hlit := h.literals
  rw [Dict.nent, DictInv.length_split, h.multi, List.length_append, List.length_singleton] at hcap
  rw [Dict.full_eq_false, DictInv.length_split]
  omega

theorem Lagging.last_ne_nil (h : Lagging TE P TD last) : last ≠ [] :=
  List.length_pos_iff.1 (h.dict.length_le h.last_mem).1

/-- R221, R222: the code of the pattern `encode` has matched gives `decode` that pattern and the entry it lacks, whether it
finds the code or the code is that very entry's. -/
theorem Lagging.decodeNext_eq (h : Lagging TE P TD last) (hE : MatchInv TE P s) (he : (⟨k, P⟩ : Entry) ∈ TE.ent)
    (hlit : isLitCode k = true → k ∈ TD.ent.map Entry.code) : decodeNext TD last k = (P, last ++ P.take 1) := by
  have hfound (hk : TD.findC k = some P) : decodeNext TD last k = (P, last ++ P.take 1) := by simp only [decodeNext, hk]
  cases hk : isLitCode k with
  | true =>
    refine hfound ?_
    rw [hE.dict.pattern_of_literal he hk]
    simpa only [codeOfByte_byteOfCode hk] using h.dict.findC_codeOfByte (b := byteOfCode k)
      (by rw [codeOfByte_byteOfCode hk]; exact hlit hk)
  | false =>
    have hmulti : (⟨k, P⟩ : Entry) ∈ TE.multi := List.mem_filter.2 ⟨he, by simp [Entry.isLiteral, hk]⟩
    rw [h.multi, List.mem_append, List.mem_singleton, Entry.mk.injEq] at hmulti
    obtain hold | ⟨rfl, hP⟩ := hmulti
    · exact hfound (h.dict.findC_of_mem (Dict.mem_multi_iff.1 hold).1)
    · have habsent : TD.findC TD.next = none := by
        rw [Dict.findC_eq_none, h.dict.mem_codes_iff h.dict.next_bounds.1]
        exact Nat.lt_irrefl _
      have htake : P.take 1 = last.take 1 := by
        rw [hP, List.take_append_of_le_length (List.length_pos_iff.2 h.last_ne_nil)]
      simp only [decodeNext, habsent, htake ▸ hP.symm, htake]

/-- What `decode` adds to its dictionary at the next code. -/
theorem Lagging.add (h : Lagging TE P TD last) (hE : MatchInv TE P s) :
    DictInv (TD.add (last ++ P.take 1)) ∧ (TD.add (last ++ P.take 1)).multi = TE.multi ∧
      (TD.add (last ++ P.take 1)).literals = TD.literals ∧
      (TD.add (last ++ P.take 1)).ent = TD.ent ++ [⟨TD.next, last ++ P.take 1⟩] := by
  rw [h.multi]
  refine h.dict.add_extension (h.room hE.dict) h.last_mem ?_
  rw [List.length_append, List.length_take_of_le (List.length_pos_iff.2 hE.ne_nil)]

/-- A hit leaves `decode` where it is. -/
theorem Lagging.hit (h : Lagging TE P TD last) (hE : MatchInv TE P s) (c : Byte) : Lagging TE (P ++ [c]) TD last :=
  ⟨h.dict, h.last_mem, by rw [List.take_append_of_le_length (List.length_pos_iff.2 hE.ne_nil), h.multi], h.literals⟩

/-- A miss emits a code, at which `decode` adds the entry it lacks and falls behind by the new one. -/
theorem Lagging.miss (h : Lagging TE P TD last) (hE : MatchInv TE P (c :: s)) (hroom : TE.full = false)
    (he : (⟨k, P⟩ : Entry) ∈ TE.ent) (hlit : isLitCode k = true → k ∈ TD.ent.map Entry.code) :
    Lagging (TE.add (P ++ [c])) [c] (TD.add (last ++ P.take 1)) P := by
  obtain ⟨-, hmultiE, hlitE, -⟩ := hE.add hroom c
  obtain ⟨hdict, hmulti, hlits, hent⟩ := h.add hE
  have hnext : (TD.add (last ++ P.take 1)).next = TE.next :=
    BitVec.eq_of_toNat_eq (by rw [hdict.next, hE.dict.next, hmulti])
  refine ⟨hdict, ?_, by rw [hmultiE, hmulti, hnext]; rfl, by rw [hlitE, hlits]; exact h.literals⟩
  cases hk : isLitCode k with
  | true =>
    have hbyte := hdict.byte_mem_patterns (b := byteOfCode k) <| by
      rw [codeOfByte_byteOfCode hk, hent, List.map_append]
      exact List.mem_append_left _ (hlit hk)
    rwa [← hE.dict.pattern_of_literal he hk] at hbyte
  | false =>
    have hin : (⟨k, P⟩ : Entry) ∈ (TD.add (last ++ P.take 1)).multi := by
      rw [hmulti]
      exact List.mem_filter.2 ⟨he, by simp [Entry.isLiteral, hk]⟩
    exact Dict.mem_patterns (Dict.mem_multi_iff.1 hin).1

/-- One code of LOOP: the pattern `encode` has matched is output. -/
theorem Lagging.decodeLoop_cons (h : Lagging TE P TD last) (hE : MatchInv TE P s) (he : (⟨k, P⟩ : Entry) ∈ TE.ent)
    (hlit : isLitCode k = true → k ∈ TD.ent.map Entry.code) {B : Nat} {out : List Byte} (hB : out.length + P.length ≤ B)
    (i : Nat) :
    decodeLoop B TD last i out (k :: cs) = decodeLoop B (TD.add (last ++ P.take 1)) P (i + 1) (out ++ P) cs := by
  have hnext := h.decodeNext_eq hE he hlit
  rw [decodeLoop_append (h.room hE.dict) (by rwa [hnext]), hnext]

/-- R220 along a derivation: the LOOP of `decode` outputs the pattern matched and the bytes to come. -/
theorem Encodes.decodeLoop_eq (hcs : Encodes TE P s cs) (h : Lagging TE P TD last)
    (hlit : ∀ k ∈ cs, isLitCode k = true → k ∈ TD.ent.map Entry.code) {B : Nat} (i : Nat) {out : List Byte}
    (hB : out.length + P.length + s.length ≤ B) : decodeLoop B TD last i out cs = .ok (out ++ P ++ s) := by
  induction hcs generalizing TD last i out with
  | flush hE he =>
    rw [h.decodeLoop_cons hE he (hlit _ (.head _)) hB, decodeLoop, List.append_nil]
  | @hit T P c s cs hE _ _ ih =>
    rw [List.length_cons] at hB
    rw [ih (h.hit hE c) hlit i (by rw [List.length_append, List.length_singleton]; omega)]
    simp
  | @miss T P c s k cs hE he hroom _ ih =>
    have hk := hlit k (.head _)
    obtain ⟨-, -, -, hent⟩ := h.add hE
    have hlit' : ∀ j ∈ cs, isLitCode j = true → j ∈ (TD.add (last ++ P.take 1)).ent.map Entry.code := fun j hj hl => by
      rw [hent, List.map_append]
      exact List.mem_append_left _ (hlit j (.tail _ hj) hl)
    rw [List.length_cons] at hB
    rw [h.decodeLoop_cons hE he hk (by omega),
      ih (h.miss hE hroom he hk) hlit' (i + 1) (by rw [List.length_append, List.length_singleton]; omega)]
    simp

end

/-! ### The first code -/

/-- The stream `encode` emits has no literal its input has not (R227). -/
theorem Encodes.decodeScan_literals_le {b : Byte} {s : List Byte} {cs : List Code}
    (h : Encodes (encodeScan .empty (b :: s)) [b] s cs) :
    (decodeScan .empty cs).literals.length ≤ (encodeScan .empty (b :: s)).literals.length := by
  have hD := literalDict_decodeScan cs
  have hE := literalDict_encodeScan (b :: s)
  have hsub : (decodeScan .empty cs).ent.map Entry.code ⊆ (encodeScan .empty (b :: s)).ent.map Entry.code := fun k hk =>
    have hk := mem_decodeScan.1 hk
    h.literal_mem hk.2 hk.1
  have hlen := (hD.dict.codes_nodup.subperm hsub).length_le
  rw [List.length_map, List.length_map, DictInv.length_split, DictInv.length_split, hD.multi, hE.multi] at hlen
  exact hlen

/-- After its first code `decode` lacks the first multi-byte entry of `encode`. -/
theorem Encodes.lagging_first {b c : Byte} {s : List Byte} {cs : List Code}
    (h : Encodes (encodeScan .empty (b :: c :: s)) [b] (c :: s) (codeOfByte b :: cs))
    (hroom : (encodeScan .empty (b :: c :: s)).full = false) :
    Lagging ((encodeScan .empty (b :: c :: s)).add [b, c]) [c] (decodeScan .empty (codeOfByte b :: cs)) [b] := by
  have hD := literalDict_decodeScan (codeOfByte b :: cs)
  have hE := literalDict_encodeScan (b :: c :: s)
  obtain ⟨-, hmulti, hlits, -⟩ := h.inv.add hroom c
  have hnext : (decodeScan .empty (codeOfByte b :: cs)).next = (encodeScan .empty (b :: c :: s)).next :=
    BitVec.eq_of_toNat_eq (by rw [hD.dict.next, hE.dict.next, hD.multi, hE.multi])
  exact ⟨hD.dict, hD.dict.byte_mem_patterns (mem_decodeScan.2 ⟨.head _, isLitCode_codeOfByte b⟩),
    by rw [hD.multi, hnext]; exact hE.multi ▸ hmulti, hlits ▸ h.decodeScan_literals_le⟩

/-- Settles O58: the first code gives the first byte, and from there LOOP follows the derivation. -/
theorem roundTrip : Obligations.RoundTrip := by
  refine ⟨fun bs cs B hne hcs hB => ?_, rfl, fun B => rfl⟩
  obtain ⟨b, s, rfl⟩ := List.exists_cons_of_ne_nil hne
  have h := Encodes.of_lzwEncode hcs
  obtain ⟨cs', rfl, hrest⟩ := h.first_code (literalDict_encodeScan (b :: s)).multi
  have hcode : codeOfByte b ∈ (decodeScan .empty (codeOfByte b :: cs')).ent.map Entry.code :=
    mem_decodeScan.2 ⟨.head _, isLitCode_codeOfByte b⟩
  rw [lzwDecode_eq, decodeFirst_found ((literalDict_decodeScan _).dict.findC_codeOfByte hcode)]
  obtain ⟨rfl, rfl⟩ | ⟨c, s', rfl, hroom, hcs'⟩ := hrest
  · rfl
  · refine hcs'.decodeLoop_eq (h.lagging_first hroom) (fun k hk hl => mem_decodeScan.2 ⟨.tail _ hk, hl⟩) 1 ?_
    rw [List.length_cons, List.length_cons] at hB
    rw [List.length_singleton, List.length_singleton]
    omega

/-- Settles O60: a byte encodes to one code, its literal code by the bounds of O59, and the round trip gives it back. -/
theorem singleByteFidelity : Obligations.SingleByteFidelity := by
  intro b B hB
  obtain ⟨cs, hcs⟩ : ∃ cs, lzwEncode [b] = .ok cs := ⟨_, lzwEncode_cons b []⟩
  obtain ⟨hlen, -, -, hfirst⟩ := encodeOutputBounds [b] cs hcs
  obtain ⟨cs', rfl⟩ := hfirst b [] rfl
  obtain rfl : cs' = [] := List.length_eq_zero_iff.1 (Nat.le_zero.1 (Nat.le_of_succ_le_succ hlen))
  exact ⟨hcs, roundTrip.1 [b] _ B (List.cons_ne_nil b []) hcs hB⟩

end Sys2Proof.Machine
end

section
/-! Every call ends (R237): whatever is interleaved, a schedule that gives an engine the turns its call has left at most (R284)
makes it idle. -/

namespace Sys2Proof.Machine

section
variable {s : State} {g : Engine}

theorem State.left_eq_zero : s.left g = 0 ↔ s.stateNum g = 0 := by
  rw [← not_iff_not, ← ne_eq, ← Nat.pos_iff_ne_zero]
  exact State.left_pos

@[simp] theorem State.left_withScript (s : State) (l : List Event) (g : Engine) : (s.withScript l).left g = s.left g := by
  cases g <;> rfl

/-- An entry of the order of steps that neither starts the engine nor resets adds no step to those left, and the engine's own turn
takes one. -/
theorem State.runEvent_left {t : State} {ev : Event} (h : s.runEvent ev = .next t) (hr : ev ≠ .reset)
    (hs : ev.starts s.cfg g = false) {n : Nat} (hn : s.left g ≤ n + if ev = .turn g then 1 else 0) : t.left g ≤ n := by
  by_cases hidle : s.stateNum g = 0
  · obtain ⟨hstill, -⟩ := State.runEvent_idle h g hidle hr hs
    rw [State.left_eq_zero.2 hstill]
    exact Nat.zero_le n
  · obtain ⟨rfl, hlt, -⟩ | ⟨rfl, -⟩ | ⟨hturn, -, hleft, -⟩ := State.runEvent_busy h g hidle
    · rw [if_pos rfl] at hn
      omega
    · exact absurd rfl hr
    · rw [if_neg hturn] at hn
      omega

/-- A schedule that gives the engine as many turns as it has steps left, and neither starts it nor resets, ends with it idle. -/
theorem Inv.run_to_idle {l rest : List Event} (h : Inv s) (hscript : s.script = l ++ rest)
    (hl : ∀ ev ∈ l, ev ≠ .reset ∧ ev.starts s.cfg g = false) (hturns : s.left g ≤ l.count (.turn g)) :
    ∃ t, core.run l.length s = .next t ∧ t.stateNum g = 0 := by
  induction l generalizing s with
  | nil => exact ⟨s, rfl, State.left_eq_zero.1 (Nat.le_zero.1 hturns)⟩
  | cons ev l ih =>
    rw [List.forall_mem_cons] at hl
    obtain ⟨⟨hr, hs⟩, hl⟩ := hl
    have h' := h.withScript (l ++ rest)
    obtain ⟨t, ht⟩ := h'.runEvent_enabled ev
    obtain ⟨hcfg, hrest, -⟩ := State.runEvent_frame ht
    have hleft : t.left g ≤ l.count (.turn g) :=
      State.runEvent_left (s := s.withScript (l ++ rest)) ht hr hs
        (by simpa only [State.left_withScript, List.count_cons, beq_iff_eq] using hturns)
    obtain ⟨u, hu, hidle⟩ := ih (h'.runEvent ht) hrest (by rwa [hcfg]) hleft
    exact ⟨u, (core_run_succ ((step_cons hscript).trans ht) _).trans hu, hidle⟩

end

/-- Settles O56: the turns R237 allows are at least the steps an engine has left (R284). -/
theorem everyCallEnds : Obligations.EveryCallEnds := by
  intro s n l rest h hscript
  refine ⟨fun ⟨hcount, hl⟩ hn _ => ?_, fun ⟨hcount, hl⟩ hn _ => ?_⟩
  · obtain ⟨t, ht, hidle⟩ := h.run_to_idle (g := .enc) hscript hl (hcount ▸ Nat.le_trans s.enc.left_le hn)
    exact ⟨t, ht, State.stateNum_enc.1 hidle⟩
  · obtain ⟨t, ht, hidle⟩ := h.run_to_idle (g := .dec) hscript hl (hcount ▸ Nat.le_trans s.dec.left_le hn)
    exact ⟨t, ht, State.stateNum_dec.1 hidle⟩

end Sys2Proof.Machine
end

section
/-! The engines apart (R20, R236): a turn is a function of its own engine, the parameters and the number of resets, and a host access
reaches one engine at most. -/

namespace Sys2Proof.Machine

/-! ### What a turn depends on -/

/-- Every row of ENC_FSM is a function of the parameters, the number of resets and ENC (R20). -/
theorem exec_encFsm_eq {i : Instr} (hi : i.format = .encFsm) :
    ∃ f : Config → Nat → EncState → Except Fault EncState, ∀ s, exec i s = s.endEnc (f s.cfg s.resets s.enc) := by
  cases i with
  | encScan => exact ⟨EncState.scanStep, fun _ => rfl⟩
  | encScanEnd => exact ⟨fun _ _ e => e.scanEndStep, fun _ => rfl⟩
  | encHit => exact ⟨EncState.hitStep, fun _ => rfl⟩
  | encMiss => exact ⟨EncState.missStep, fun _ => rfl⟩
  | encFull => exact ⟨EncState.fullStep, fun _ => rfl⟩
  | encEoi => exact ⟨fun _ _ e => e.eoiStep, fun _ => rfl⟩
  | encFlush => exact ⟨fun _ _ e => e.flushStep, fun _ => rfl⟩
  | _ => cases hi

/-- Every row of DEC_FSM is a function of the parameters, the number of resets and DEC (R20). -/
theorem exec_decFsm_eq {i : Instr} (hi : i.format = .decFsm) :
    ∃ f : Config → Nat → DecState → Except Fault DecState, ∀ s, exec i s = s.endDec (f s.cfg s.resets s.dec) := by
  cases i with
  | decScan => exact ⟨fun cfg r d => d.withElement cfg r DecState.scanStep, fun _ => rfl⟩
  | decScanEnd => exact ⟨fun _ _ d => d.scanEndStep, fun _ => rfl⟩
  | decFirst => exact ⟨fun cfg r d => d.withElement cfg r (DecState.firstStep cfg), fun _ => rfl⟩
  | decBadFirst =>
    exact ⟨fun cfg r d => if d.regs.ilen = 0 then d.badFirstStep none
      else d.withElement cfg r (fun k => DecState.badFirstStep (some k)), fun _ => rfl⟩
  | decKnown => exact ⟨fun cfg r d => d.withElement cfg r (DecState.knownStep cfg), fun _ => rfl⟩
  | decKwkwk => exact ⟨fun cfg r d => d.withElement cfg r (DecState.kwkwkStep cfg), fun _ => rfl⟩
  | decFull => exact ⟨fun _ _ d => d.fullStep, fun _ => rfl⟩
  | decOvf => exact ⟨fun cfg r d => d.withElement cfg r (DecState.ovfStep cfg), fun _ => rfl⟩
  | decEnd => exact ⟨fun _ _ d => d.endStep, fun _ => rfl⟩
  | _ => cases hi

/-- ENC's rows of R98 select rows of ENC_FSM. -/
theorem decodeEncCond_format {c : EncCond} {i : Instr} (h : decodeEncCond c = .ok i) : i.format = .encFsm := by
  unfold decodeEncCond at h
  split at h
  case h_3 =>
    cases h
    split
    · rfl
    · split <;> rfl
  case h_6 => cases h
  all_goals cases h; rfl

/-- DEC's rows of R98 select rows of DEC_FSM. -/
theorem decodeDecCond_format {c : DecCond} {i : Instr} (h : decodeDecCond c = .ok i) : i.format = .decFsm := by
  unfold decodeDecCond at h
  split at h
  case h_3 =>
    cases h
    split <;> rfl
  case h_5 =>
    cases h
    split
    · rfl
    · split
      · rfl
      · split <;> rfl
  case h_6 => cases h
  all_goals cases h; rfl

/-- A turn of ENC is a function of the parameters, the number of resets and ENC. -/
theorem exists_encTurn_eq (cfg : Config) (r : Nat) (e : EncState) :
    ∃ res, ∀ s : State, s.cfg = cfg → s.resets = r → s.enc = e → s.encTurn = s.endEnc res := by
  by_cases hp : e.phase = .idle
  · exact ⟨.ok e, by rintro s rfl rfl rfl; exact if_pos hp⟩
  cases hsel : decodeEncCond (e.cond cfg r) with
  | error why =>
    refine ⟨.error .notEnabled, ?_⟩
    rintro s rfl rfl rfl
    rw [State.encTurn, if_neg hp, State.selectEnc, hsel]
    rfl
  | ok i =>
    obtain ⟨f, hf⟩ := exec_encFsm_eq (decodeEncCond_format hsel)
    refine ⟨f cfg r e, ?_⟩
    rintro s rfl rfl rfl
    rw [State.encTurn, if_neg hp, State.selectEnc, hsel]
    exact hf s

/-- A turn of DEC is a function of the parameters, the number of resets and DEC. -/
theorem exists_decTurn_eq (cfg : Config) (r : Nat) (d : DecState) :
    ∃ res, ∀ s : State, s.cfg = cfg → s.resets = r → s.dec = d → s.decTurn = s.endDec res := by
  by_cases hp : d.phase = .idle
  · exact ⟨.ok d, by rintro s rfl rfl rfl; exact if_pos hp⟩
  cases hcode : if d.consumesCode then d.element cfg r else none with
  | some k =>
    refine ⟨d.consume cfg k, ?_⟩
    rintro s rfl rfl rfl
    rw [State.decTurn, if_neg hp, State.fetchedCode, hcode]
    exact exec_decodeCode s k
  | none =>
    cases hsel : decodeDecCond (d.cond cfg r) with
    | error why =>
      refine ⟨.error .notEnabled, ?_⟩
      rintro s rfl rfl rfl
      rw [State.decTurn, if_neg hp, State.fetchedCode, hcode, State.selectDec, hsel]
      rfl
    | ok i =>
      obtain ⟨f, hf⟩ := exec_decFsm_eq (decodeDecCond_format hsel)
      refine ⟨f cfg r d, ?_⟩
      rintro s rfl rfl rfl
      rw [State.decTurn, if_neg hp, State.fetchedCode, hcode, State.selectDec, hsel]
      exact hf s

/-- R236: a turn of ENC does to any state with the same ENC, parameters and number of resets what it does to this one. -/
theorem State.encTurn_congr {s s' t : State} (hcfg : s'.cfg = s.cfg) (hres : s'.resets = s.resets) (henc : s'.enc = s.enc)
    (ht : s.encTurn = .next t) : s'.encTurn = .next (s'.withEnc t.enc) := by
  obtain ⟨res, hturn⟩ := exists_encTurn_eq s.cfg s.resets s.enc
  rw [hturn s rfl rfl rfl] at ht
  obtain ⟨e, rfl, rfl⟩ := State.endEnc_eq_next.1 ht
  exact hturn s' hcfg hres henc

/-- R236: a turn of DEC does to any state with the same DEC, parameters and number of resets what it does to this one. -/
theorem State.decTurn_congr {s s' t : State} (hcfg : s'.cfg = s.cfg) (hres : s'.resets = s.resets) (hdec : s'.dec = s.dec)
    (ht : s.decTurn = .next t) : s'.decTurn = .next (s'.withDec t.dec) := by
  obtain ⟨res, hturn⟩ := exists_decTurn_eq s.cfg s.resets s.dec
  rw [hturn s rfl rfl rfl] at ht
  obtain ⟨d, rfl, rfl⟩ := State.endDec_eq_next.1 ht
  exact hturn s' hcfg hres hdec

/-- Settles O46: the frame of a turn, and what it depends on. -/
theorem enginesDoNotInterfere : Obligations.EnginesDoNotInterfere := by
  intro s t rest
  refine ⟨fun hs ht => ?_, fun hs ht => ?_⟩ <;> rw [step_cons hs] at ht
  · refine ⟨State.encTurn_frame ht, fun s' hs' hcfg hres henc => ?_⟩
    rw [step_cons hs']
    exact State.encTurn_congr (s := s.withScript rest) hcfg hres henc ht
  · refine ⟨State.decTurn_frame ht, fun s' hs' hcfg hres hdec => ?_⟩
    rw [step_cons hs']
    exact State.decTurn_congr (s := s.withScript rest) hcfg hres hdec ht

/-! ### What a host access reaches -/

theorem State.writeIlen_other (s : State) (g : Engine) (v : Word) :
    (s.writeIlen g v).enc = s.enc ∨ (s.writeIlen g v).dec = s.dec := by
  cases g with
  | enc => right; rw [State.writeIlen]; split <;> rfl
  | dec => left; rw [State.writeIlen]; split <;> rfl

theorem State.writeElem_other (s : State) (S : Space) (i : Nat) (v : BitVec 16) :
    (s.writeElem S i v).enc = s.enc ∨ (s.writeElem S i v).dec = s.dec := by
  cases S with
  | encIbuf => right; rw [State.writeElem]; split <;> rfl
  | decIbuf => left; rw [State.writeElem]; split <;> rfl
  | encObuf | decObuf => exact .inl rfl

/-- R236: whatever the host's access, it leaves one engine as it is. -/
theorem State.hostAccess_other {s t : State} {a : BusAccess} (h : s.hostAccess a = .next t) : t.enc = s.enc ∨ t.dec = s.dec := by
  obtain ⟨-, g, -, rfl⟩ | ⟨g, v, -, rfl⟩ | ⟨S, i, v, -, -, -, rfl⟩ | ⟨r, n, rfl⟩ := State.hostAccess_cases h
  · cases g
    exacts [.inr rfl, .inl rfl]
  · exact s.writeIlen_other g v
  · exact s.writeElem_other S i v
  · exact .inl rfl

/-- Settles O48: the effects a host access can have, and that of a read. -/
theorem hostAccessReachesOneEngine : Obligations.HostAccessReachesOneEngine := by
  intro s t a rest hs ht
  rw [step_cons hs] at ht
  obtain ⟨-, hscript, -⟩ := State.hostAccess_frame ht
  refine ⟨State.hostAccess_other (s := s.withScript rest) ht, fun hread => ?_, hscript⟩
  obtain ⟨n, hn⟩ := (s.withScript rest).hostAccess_read hread
  cases hn.symm.trans ht
  exact ⟨rfl, rfl⟩

end Sys2Proof.Machine
end

section
/-! The steps whose own effect is the error entry (R250): `ENC.FULL` (R145), `DEC.FULL` (R177) and `DEC.OVF` (R178). -/

namespace Sys2Proof.Machine

/-- R145: the miss on the byte at the cursor needs an entry that a full dictionary has no room for. -/
theorem EncState.fullStep_fails {cfg : Config} {r : Nat} {e : EncState} (hp : e.phase = .matching)
    (hb : e.regs.ipos < e.regs.ilen) (hin : e.regs.ipos.toNat < cfg.encInMax)
    (hf : e.dict.findP (e.p ++ [e.inByte r e.regs.ipos.toNat]) = none) (hfull : e.dict.full = true) :
    e.fullStep cfg r = .ok (e.fail .capacity e.regs.ipos) := by
  obtain ⟨e', he⟩ := EncState.full_enabled hp (CallRegs.cursor_before.2 hb) (EncState.element_eq hin)
    (Option.isNone_iff_eq_none.2 hf) hfull
  obtain ⟨-, -, -, -, -, rfl⟩ := EncState.fullStep_ok he
  exact he

/-- R177: the code at the cursor needs an entry, whatever its value. -/
theorem DecState.fullStep_fails {d : DecState} (hp : d.phase = .loop) (hb : d.regs.ipos < d.regs.ilen)
    (hfull : d.dict.full = true) : d.fullStep = .ok (d.fail .capacity d.regs.ipos) :=
  if_pos ⟨hp, CallRegs.cursor_before.2 hb, hfull⟩

/-- R178: `next` of the code `k` does not fit into the output buffer. -/
theorem DecState.ovfStep_fails {cfg : Config} {k : Code} {d : DecState} (hp : d.phase = .loop)
    (hb : d.regs.ipos < d.regs.ilen) (hroom : d.dict.full = false)
    (hover : cfg.decOutMax < d.regs.opos.toNat + d.nextLen k) :
    d.ovfStep cfg k = .ok (d.fail .overflow d.regs.ipos) :=
  if_pos ⟨hp, CallRegs.cursor_before.2 hb, hroom, DecState.fits_eq_false.2 hover⟩

/-- Settles O35: under the condition of its row each step is the error entry at `IPOS`; `DEC.OVF` reads its code at the cursor. -/
theorem failingStepsTakeTheErrorEntry : Obligations.FailingStepsTakeTheErrorEntry := by
  intro s
  refine ⟨fun hp hb hin hf hn => ?encFull, fun hp hb hn => ?decFull, fun hp hb hin hn hover => ?decOvf⟩
  case encFull => exact congrArg s.endEnc (EncState.fullStep_fails hp hb hin hf (Dict.full_of_nent_eq hn))
  case decFull => exact congrArg s.endDec (DecState.fullStep_fails hp hb (Dict.full_of_nent_eq hn))
  case decOvf =>
    have hidx : s.dec.codeIndex = s.dec.regs.ipos.toNat := DecState.codeIndex_ne (by simp [hp])
    have hstep : s.dec.withElement s.cfg s.resets (DecState.ovfStep s.cfg) = .ok (s.dec.fail .overflow s.dec.regs.ipos) := by
      rw [DecState.withElement_eq (hidx ▸ hin), hidx]
      exact DecState.ovfStep_fails hp hb (Dict.full_eq_false.2 hn) hover
    exact congrArg s.endDec hstep

end Sys2Proof.Machine
end

section
/-! RESET, the order of the engines and the life of a result (R270, R272, R281, R286): one entry of the order of steps, for an engine
that is idle, and for two turns in either order. -/

namespace Sys2Proof.Machine

/-! ### RESET -/

/-- Settles O38: RESET is enabled in every state, and the two reset engines list no input and count no output. -/
theorem resetEventAbandonsEverything : Obligations.ResetEventAbandonsEverything := by
  intro s rest hs
  refine ⟨(s.withScript rest).resetBlock, step_cons hs, rfl, rfl, rfl, rfl, fun _ => rfl, fun _ => rfl, ?_⟩
  rintro S i (rfl | rfl)
  · exact State.specifiedElem_encObuf_beyond (Nat.zero_le i)
  · exact State.specifiedElem_decObuf_beyond (Nat.zero_le i)

/-! ### The turns of the two engines -/

section
variable {s s' t : State} {rest : List Event}

/-- R236 for a step: a turn of ENC does to `s'` what it does to a state with the same ENC, parameters and number of resets. -/
theorem step_encTurn_congr (hs : s'.script = .turn .enc :: rest) (hcfg : s'.cfg = s.cfg) (hres : s'.resets = s.resets)
    (henc : s'.enc = s.enc) (ht : s.encTurn = .next t) : step s' = .next ((s'.withScript rest).withEnc t.enc) :=
  (step_cons hs).trans (State.encTurn_congr (s' := s'.withScript rest) hcfg hres henc ht)

/-- R236 for a step: a turn of DEC does to `s'` what it does to a state with the same DEC, parameters and number of resets. -/
theorem step_decTurn_congr (hs : s'.script = .turn .dec :: rest) (hcfg : s'.cfg = s.cfg) (hres : s'.resets = s.resets)
    (hdec : s'.dec = s.dec) (ht : s.decTurn = .next t) : step s' = .next ((s'.withScript rest).withDec t.dec) :=
  (step_cons hs).trans (State.decTurn_congr (s' := s'.withScript rest) hcfg hres hdec ht)

end

/-- Settles O47: each engine's turn is enabled, and each does the same whether the other engine's turn came before it or not. -/
theorem engineTurnsCommute : Obligations.EngineTurnsCommute := by
  intro s rest h
  obtain ⟨u, hu⟩ := h.encTurn_enabled
  obtain ⟨v, hv⟩ := h.decTurn_enabled
  refine ⟨((s.withScript rest).withEnc u.enc).withDec v.dec, ?_, ?_⟩
  · have henc := step_encTurn_congr (s := s) (s' := s.withScript (.turn .enc :: .turn .dec :: rest)) rfl rfl rfl rfl hu
    have hdec := step_decTurn_congr (s := s) (s' := (s.withScript (.turn .dec :: rest)).withEnc u.enc) rfl rfl rfl rfl hv
    exact (core_run_succ henc 1).trans (core_run_succ hdec 0)
  · have hdec := step_decTurn_congr (s := s) (s' := s.withScript (.turn .dec :: .turn .enc :: rest)) rfl rfl rfl rfl hv
    have henc := step_encTurn_congr (s := s) (s' := (s.withScript (.turn .enc :: rest)).withDec v.dec) rfl rfl rfl rfl hu
    exact (core_run_succ hdec 1).trans (core_run_succ henc 0)

/-! ### The life of a result -/

section
variable {s t : State} {ev : Event}

/-- An entry of the order of steps that neither starts idle ENC nor resets changes nothing of it but its length and its input. -/
theorem State.runEvent_enc_idle (h : s.runEvent ev = .next t) (hr : ev ≠ .reset) (hp : s.enc.phase = .idle)
    (hs : ev.startsEnc s.cfg = false) :
    ∃ l b, t.enc = { s.enc with regs := { s.enc.regs with ilen := l }, ibuf := b } := by
  cases ev with
  | host a =>
    obtain ⟨-, -, henc, -⟩ := State.hostAccess_engine h
    exact henc hp hs
  | turn g =>
    cases g with
    | enc =>
      obtain ⟨-, rfl⟩ | ⟨hb, -⟩ := State.encTurn_cases h
      · exact ⟨_, _, rfl⟩
      · exact absurd hp hb
    | dec =>
      rw [State.decTurn_frame h]
      exact ⟨_, _, rfl⟩
  | reset => exact absurd rfl hr

/-- An entry of the order of steps that neither starts idle DEC nor resets changes nothing of it but its length and its input. -/
theorem State.runEvent_dec_idle (h : s.runEvent ev = .next t) (hr : ev ≠ .reset) (hp : s.dec.phase = .idle)
    (hs : ev.startsDec s.cfg = false) :
    ∃ l b, t.dec = { s.dec with regs := { s.dec.regs with ilen := l }, ibuf := b } := by
  cases ev with
  | host a =>
    obtain ⟨-, -, -, hdec⟩ := State.hostAccess_engine h
    exact hdec hp hs
  | turn g =>
    cases g with
    | enc =>
      rw [State.encTurn_frame h]
      exact ⟨_, _, rfl⟩
    | dec =>
      obtain ⟨-, rfl⟩ | ⟨hb, -⟩ := State.decTurn_cases h
      · exact ⟨_, _, rfl⟩
      · exact absurd hp hb
  | reset => exact absurd rfl hr

end

/-- Settles O49: of an idle engine only the length and the input change. -/
theorem resultLivesUntilTheNextStart : Obligations.ResultLivesUntilTheNextStart := by
  intro s t ev rest hs hr ht
  rw [step_cons hs] at ht
  refine ⟨fun hp hstart => ?_, fun hp hstart => ?_⟩
  · obtain ⟨l, b, henc⟩ := State.runEvent_enc_idle (s := s.withScript rest) ht hr hp hstart
    rw [henc]
    exact ⟨hp, rfl, rfl⟩
  · obtain ⟨l, b, hdec⟩ := State.runEvent_dec_idle (s := s.withScript rest) ht hr hp hstart
    rw [hdec]
    exact ⟨hp, rfl, rfl⟩

end Sys2Proof.Machine
end

section
/-! No busy engine is starved (R282): in a fair infinite run every call ends, and a host that polls for ever reads its end. The
machine's own runs are fair, since a round of them gives each engine a turn (log 3). -/

namespace Sys2Proof.Machine

/-! ### One entry of the order of steps -/

/-- An idle engine shows how its call ended: exactly one of DONE and ERR (R29). -/
def State.Concluded (s : State) (g : Engine) : Prop := s.stateNum g = 0 → (s.regsOf g).done = !(s.regsOf g).err

section
variable {s t : State} {ev : Event} {g : Engine}

theorem State.Concluded.of_busy (hb : s.stateNum g ≠ 0) : s.Concluded g := fun hidle => absurd hidle hb

/-- Short of a RESET, an entry that makes a busy engine idle is the end of its call. -/
theorem Inv.concluded_of_busy (h : Inv s) (ht : s.runEvent ev = .next t) (hr : ev ≠ .reset) (hb : s.stateNum g ≠ 0) :
    t.Concluded g := by
  obtain ⟨-, -, hend⟩ | ⟨rfl, -⟩ | ⟨-, -, -, hstate, -⟩ := State.runEvent_busy ht g hb
  · obtain ⟨hdone, herr, -⟩ := h.busy_flags hb
    exact hend ⟨hdone, herr⟩
  · exact absurd rfl hr
  · exact .of_busy (hstate ▸ hb)

theorem Inv.runEvent_concluded (h : Inv s) (ht : s.runEvent ev = .next t) (hr : ev ≠ .reset)
    (hs : ev.starts s.cfg g = false) (hc : s.Concluded g) : t.Concluded g := by
  by_cases hidle : s.stateNum g = 0
  · obtain ⟨-, hdone, herr⟩ := State.runEvent_idle ht g hidle hr hs
    intro _
    rw [hdone, herr, hc hidle]
  · exact h.concluded_of_busy ht hr hidle

/-- No entry of the order of steps gives a busy engine more steps to take (R284). -/
theorem State.runEvent_left_le (ht : s.runEvent ev = .next t) (hb : s.stateNum g ≠ 0) : t.left g ≤ s.left g := by
  obtain ⟨-, hlt, -⟩ | ⟨-, hidle⟩ | ⟨-, -, hleft, -⟩ := State.runEvent_busy ht g hb
  · exact Nat.le_of_lt hlt
  · rw [State.left_eq_zero.2 hidle]
    exact Nat.zero_le _
  · exact Nat.le_of_eq hleft

theorem State.runEvent_left_lt (ht : s.runEvent (.turn g) = .next t) (hb : s.stateNum g ≠ 0) : t.left g < s.left g := by
  obtain ⟨-, hlt, -⟩ | ⟨hreset, -⟩ | ⟨hturn, -⟩ := State.runEvent_busy ht g hb
  · exact hlt
  · cases hreset
  · exact absurd rfl hturn

/-- A poll is a read of the status register. -/
theorem Event.polls_eq_true {cfg : Config} (h : ev.polls cfg g = true) :
    ∃ a, ev = .host a ∧ decodeBus cfg a = .ok (.hostRdreg (.status g)) := by
  cases ev with
  | host a =>
    rw [Event.polls] at h
    split at h
    · rename_i hdec
      exact ⟨a, rfl, of_decide_eq_true h ▸ hdec⟩
    · cases h
  | turn | reset => cases h

/-- A poll is answered with the status word. -/
theorem State.runEvent_poll (ht : s.runEvent ev = .next t) (hpoll : ev.polls s.cfg g = true) :
    t.reply = .reg (s.readReg (.status g)) := by
  obtain ⟨a, rfl, hdec⟩ := Event.polls_eq_true hpoll
  cases (State.hostAccess_ok hdec).symm.trans ht
  rfl

end

/-! ### Infinite runs -/

section
variable {ev : Nat → Event} {r : Nat → State} {g : Engine} {n : Nat}

theorem InfiniteRun.runEvent (hrun : InfiniteRun ev r) (n : Nat) :
    ∃ rest, ((r n).withScript rest).runEvent (ev n) = .next (r (n + 1)) := by
  obtain ⟨rest, hstep⟩ := hrun n
  exact ⟨rest, (step_cons (s := (r n).withScript (ev n :: rest)) rfl).symm.trans hstep⟩

theorem InfiniteRun.inv (hrun : InfiniteRun ev r) (h : Inv (r 0)) : ∀ n, Inv (r n)
  | 0 => h
  | n + 1 => by
    obtain ⟨rest, ht⟩ := hrun.runEvent n
    exact ((hrun.inv h n).withScript rest).runEvent ht

theorem InfiniteRun.cfg (hrun : InfiniteRun ev r) : ∀ n, (r n).cfg = (r 0).cfg
  | 0 => rfl
  | n + 1 => by
    obtain ⟨rest, ht⟩ := hrun.runEvent n
    exact (State.runEvent_frame ht).1.trans (hrun.cfg n)

/-- While the engine is busy its steps left never grow. -/
theorem InfiniteRun.left_le (hrun : InfiniteRun ev r) (hbusy : ∀ k, n ≤ k → (r k).stateNum g ≠ 0) {k m : Nat} (hk : n ≤ k)
    (hm : k ≤ m) : (r m).left g ≤ (r k).left g := by
  induction m, hm using Nat.le_induction with
  | base => exact Nat.le_refl _
  | succ m hm ih =>
    obtain ⟨rest, ht⟩ := hrun.runEvent m
    exact Nat.le_trans (State.runEvent_left_le (s := (r m).withScript rest) ht (hbusy m (Nat.le_trans hk hm))) ih

/-- An engine busy for ever would take infinitely many turns, each one of the finitely many steps it has left. -/
theorem InfiniteRun.exists_idle (hrun : InfiniteRun ev r) (hfair : FairRun ev r) (g : Engine) (n : Nat) :
    ∃ m, n ≤ m ∧ (r m).stateNum g = 0 := by
  by_contra! hbusy
  have descent : ∀ b k, n ≤ k → (r k).left g ≠ b := by
    intro b
    induction b using Nat.strong_induction_on with
    | h b ih =>
      rintro k hk rfl
      obtain ⟨m, hm, hturn | hidle⟩ := hfair g k
      · obtain ⟨rest, ht⟩ := hrun.runEvent m
        rw [hturn] at ht
        have hlt : (r (m + 1)).left g < (r m).left g :=
          State.runEvent_left_lt (s := (r m).withScript rest) ht (hbusy m (Nat.le_trans hk hm))
        exact ih _ (Nat.lt_of_lt_of_le hlt (hrun.left_le hbusy hk hm)) (m + 1) (by omega) rfl
      · exact hbusy m (Nat.le_trans hk hm) hidle
  exact descent _ n (Nat.le_refl n) rfl

/-- In a fair infinite run a busy engine stays busy up to a later step, at which its call has ended unless a RESET cut it short. -/
theorem InfiniteRun.call_ends (hrun : InfiniteRun ev r) (hfair : FairRun ev r) (h : Inv (r 0)) (hb : (r n).stateNum g ≠ 0) :
    ∃ m, n < m ∧ (∀ k, n ≤ k → k < m → (r k).stateNum g ≠ 0) ∧ (r m).stateNum g = 0 ∧
      ((∀ k, n ≤ k → k < m → ev k ≠ .reset) → (r m).Concluded g) := by
  obtain ⟨m, ⟨hle, hidle⟩, hfirst⟩ := Nat.findX (hrun.exists_idle hfair g n)
  have hbusy : ∀ k, n ≤ k → k < m → (r k).stateNum g ≠ 0 := fun k hk hkm hi => hfirst k hkm ⟨hk, hi⟩
  have hlt : n < m := Nat.lt_of_le_of_ne hle (by rintro rfl; exact hb hidle)
  refine ⟨m, hlt, hbusy, hidle, fun hr => ?_⟩
  obtain ⟨k, rfl⟩ := Nat.exists_eq_add_one_of_ne_zero (Nat.ne_zero_of_lt hlt)
  have hk : n ≤ k := Nat.le_of_lt_succ hlt
  obtain ⟨rest, ht⟩ := hrun.runEvent k
  exact ((hrun.inv h k).withScript rest).concluded_of_busy ht (hr k hk k.lt_succ_self) (hbusy k hk k.lt_succ_self)

/-- Without a START or a RESET an idle engine stays idle, and keeps showing how its call ended. -/
theorem InfiniteRun.stays_idle (hrun : InfiniteRun ev r) (h : Inv (r 0))
    (hquiet : ∀ k, n ≤ k → ev k ≠ .reset ∧ (ev k).starts (r 0).cfg g = false) (hidle : (r n).stateNum g = 0)
    (hc : (r n).Concluded g) {m : Nat} (hm : n ≤ m) : (r m).stateNum g = 0 ∧ (r m).Concluded g := by
  induction m, hm using Nat.le_induction with
  | base => exact ⟨hidle, hc⟩
  | succ m hm ih =>
    obtain ⟨hidle, hc⟩ := ih
    obtain ⟨hr, hs⟩ := hquiet m hm
    obtain ⟨rest, ht⟩ := hrun.runEvent m
    rw [← hrun.cfg m] at hs
    obtain ⟨hidle', -⟩ := State.runEvent_idle (s := (r m).withScript rest) ht g hidle hr hs
    exact ⟨hidle', ((hrun.inv h m).withScript rest).runEvent_concluded ht hr hs hc⟩

/-- A host that polls for ever reads the end of the call. -/
theorem InfiniteRun.poll_sees_end (hrun : InfiniteRun ev r) (hfair : FairRun ev r) (h : Inv (r 0))
    (hb : (r n).stateNum g ≠ 0) (hquiet : ∀ k, n ≤ k → ev k ≠ .reset ∧ (ev k).starts (r 0).cfg g = false)
    (hpolls : ∀ k, ∃ m, k ≤ m ∧ (ev m).polls (r 0).cfg g = true) :
    ∃ m v, n ≤ m ∧ (ev m).polls (r 0).cfg g = true ∧ (r (m + 1)).reply = .reg v ∧
      v.extractLsb' 0 3 = 0 ∧ v.getLsbD 4 = !v.getLsbD 5 := by
  obtain ⟨e, hne, -, hidle, hc⟩ := hrun.call_ends hfair h hb
  obtain ⟨m, hem, hpoll⟩ := hpolls e
  have hle : n ≤ e := Nat.le_of_lt hne
  obtain ⟨hidle, hc⟩ := hrun.stays_idle h (fun k hk => hquiet k (Nat.le_trans hle hk)) hidle
    (hc fun k hk _ => (hquiet k hk).1) hem
  obtain ⟨rest, ht⟩ := hrun.runEvent m
  have hreply := State.runEvent_poll (s := (r m).withScript rest) ht ((hrun.cfg m).symm ▸ hpoll)
  obtain ⟨hstate, -, hdone, herr, -⟩ := ((r m).regsOf g).statusWord_fields ((r m).stateNum g)
  exact ⟨m, _, Nat.le_trans hle hem, hpoll, hreply, hstate.trans hidle, hdone.trans ((hc hidle).trans (congrArg _ herr.symm))⟩

end

/-! ### The machine's own run -/

/-- A round of the order of steps after the script has ended: what `cycle` repeats, then a turn of each engine (log 3). -/
def State.round (s : State) : List Event := s.cycle ++ [.turn .enc, .turn .dec]

/-- The entries that come next: the rest of the script and a round. -/
def State.upcoming (s : State) : List Event := s.script ++ s.round

/-- The state after a step, where there is one. -/
def State.succ (s : State) : State :=
  match step s with
  | .next t => t
  | _ => s

theorem State.turn_mem_round (s : State) (g : Engine) : .turn g ∈ s.round := by
  cases g <;> simp [State.round]

theorem Inv.step_succ {s : State} (h : Inv s) : step s = .next s.succ := by
  obtain ⟨t, ht⟩ := noReachableStateStops s h
  rw [State.succ, ht]

theorem Inv.step_iterate {s : State} (h : Inv s) : ∀ n, step (State.succ^[n] s) = .next (State.succ^[n + 1] s)
  | 0 => h.step_succ
  | n + 1 => Inv.step_iterate (stepKeepsTheInvariant s _ h h.step_succ) n

/-- A step takes the first of the entries that come next, and leaves the others. -/
theorem step_upcoming {s t : State} (h : step s = .next t) : s.upcoming <+: s.nextEvent.1 :: t.upcoming := by
  obtain ⟨-, hscript, hcycle⟩ := step_frame h
  rw [State.upcoming, State.upcoming, State.round, State.round, hscript, hcycle, State.nextEvent]
  cases hs : s.script with
  | cons ev rest => exact List.prefix_rfl
  | nil => cases hc : s.cycle <;> exact List.prefix_append _ _

section
variable {r : Nat → State} (hstep : ∀ n, step (r n) = .next (r (n + 1)))
include hstep

theorem infiniteRun_of_steps : InfiniteRun (fun n => (r n).nextEvent.1) r :=
  fun n => ⟨(r n).nextEvent.2, (step_cons rfl).trans (hstep n)⟩

/-- Each of the entries that come next is taken. -/
theorem upcoming_taken {ev : Event} (l : List Event) {n : Nat} (hl : l ++ [ev] <+: (r n).upcoming) :
    ∃ m, n ≤ m ∧ (r m).nextEvent.1 = ev := by
  induction l generalizing n with
  | nil => exact ⟨n, Nat.le_refl n, (List.cons_prefix_cons.1 (hl.trans (step_upcoming (hstep n)))).1.symm⟩
  | cons x l ih =>
    obtain ⟨m, hm, hev⟩ := ih (List.cons_prefix_cons.1 (hl.trans (step_upcoming (hstep n)))).2
    exact ⟨m, Nat.le_of_succ_le hm, hev⟩

/-- A run of the machine by itself is fair, since the entries that come next hold a turn of each engine. -/
theorem fairRun_of_steps : FairRun (fun n => (r n).nextEvent.1) r := by
  intro g n
  obtain ⟨l, rest, hsplit⟩ := List.append_of_mem (List.mem_append_right (r n).script ((r n).turn_mem_round g))
  obtain ⟨m, hm, hev⟩ := upcoming_taken hstep (ev := .turn g) l (n := n) ⟨rest, by simp [State.upcoming, hsplit]⟩
  exact ⟨m, hm, .inl hev⟩

end

/-! ### Rounds -/

/-- Does the entry neither reset nor start an engine? -/
def Event.Quiet (cfg : Config) (ev : Event) : Prop := ev ≠ .reset ∧ ∀ g, ev.starts cfg g = false

theorem Event.quiet_turn (cfg : Config) (g : Engine) : (Event.turn g).Quiet cfg := ⟨nofun, fun h => by cases h <;> rfl⟩

/-- What the entries `l`, none of which starts an engine or resets, make of `s`: each turn takes one of its engine's steps left. -/
structure State.After (l : List Event) (s t : State) : Prop where
  inv : Inv t
  cfg : t.cfg = s.cfg
  cycle : t.cycle = s.cycle
  left : ∀ g n, s.left g ≤ n + l.count (.turn g) → t.left g ≤ n
  concluded : ∀ g, s.Concluded g → t.Concluded g

section
variable {s t u : State} {ev : Event} {l rest : List Event}

/-- The script that `s` carries is no part of what the entries make of it. -/
theorem State.After.of_withScript {k : List Event} (h : State.After l (s.withScript k) t) : State.After l s t :=
  ⟨h.inv, h.cfg, h.cycle, fun g => h.left g, h.concluded⟩

theorem State.After.cons (h : Inv s) (ht : s.runEvent ev = .next t) (hev : ev.Quiet s.cfg) (hu : State.After l t u) :
    State.After (ev :: l) s u := by
  obtain ⟨hr, hs⟩ := hev
  obtain ⟨hcfg, -, hcycle⟩ := State.runEvent_frame ht
  refine ⟨hu.inv, hu.cfg.trans hcfg, hu.cycle.trans hcycle, fun g n hn => ?_, fun g hc => ?_⟩
  · rw [List.count_cons, ← Nat.add_assoc] at hn
    exact hu.left g n (State.runEvent_left ht hr (hs g) (by simpa only [beq_iff_eq] using hn))
  · exact hu.concluded g (h.runEvent_concluded ht hr (hs g) hc)

theorem Inv.run_quiet (h : Inv s) (hscript : s.script = l ++ rest) (hl : ∀ ev ∈ l, ev.Quiet s.cfg) :
    ∃ t, core.run l.length s = .next t ∧ t.script = rest ∧ State.After l s t := by
  induction l generalizing s with
  | nil => exact ⟨s, rfl, hscript, h, rfl, rfl, fun _ _ hn => hn, fun _ hc => hc⟩
  | cons ev l ih =>
    rw [List.forall_mem_cons] at hl
    obtain ⟨hev, hl⟩ := hl
    have h' := h.withScript (l ++ rest)
    obtain ⟨t, ht⟩ := h'.runEvent_enabled ev
    obtain ⟨hcfg, hrest, -⟩ := State.runEvent_frame ht
    obtain ⟨u, hu, hend, hafter⟩ := ih (h'.runEvent ht) hrest (by rwa [hcfg])
    exact ⟨u, (core_run_succ ((step_cons hscript).trans ht) _).trans hu, hend, (State.After.cons h' ht hev hafter).of_withScript⟩

/-- A run goes on from the state it has reached. -/
theorem core_run_add {m : Nat} (hm : core.run m s = .next t) (n : Nat) : core.run (m + n) s = core.run n t := by
  induction m generalizing s with
  | zero =>
    cases hm
    rw [Nat.zero_add]
  | succ m ih =>
    cases hs : step s with
    | next v =>
      rw [core_run_succ hs] at hm
      rw [Nat.add_right_comm, core_run_succ hs]
      exact ih hm
    | fault f => simp [Host.Core.run, core, hs] at hm
    | refused f => simp [Host.Core.run, core, hs] at hm

/-- When the script has ended a round is run as if the script held it. -/
theorem core_run_round (hs : s.script = []) :
    core.run (s.cycle.length + 2) s = core.run s.round.length (s.withScript s.round) := by
  rw [State.round, List.length_append, List.length_cons, List.length_singleton]
  simp only [Host.Core.run, core, step_nil hs]

theorem Inv.run_round (h : Inv s) (hs : s.script = []) (hc : ∀ ev ∈ s.cycle, ev.Quiet s.cfg) :
    ∃ t, core.run (s.cycle.length + 2) s = .next t ∧ t.script = [] ∧ State.After s.round s t := by
  have hround : ∀ ev ∈ s.round, ev.Quiet s.cfg :=
    List.forall_mem_append.2 ⟨hc, by simp [Event.quiet_turn]⟩
  obtain ⟨t, ht, hend, hafter⟩ := (h.withScript s.round).run_quiet (rest := []) (List.append_nil _).symm hround
  exact ⟨t, (core_run_round hs).trans ht, hend, hafter.of_withScript⟩

/-- A round takes one of the steps each engine has left, so as many rounds as either has steps left make both idle. -/
theorem Inv.run_rounds {k : Nat} (h : Inv s) (hs : s.script = []) (hc : ∀ ev ∈ s.cycle, ev.Quiet s.cfg)
    (hk : ∀ g, s.left g ≤ k) :
    ∃ t, core.run ((s.cycle.length + 2) * k) s = .next t ∧ ∀ g, t.stateNum g = 0 ∧ (s.Concluded g → t.Concluded g) := by
  induction k generalizing s with
  | zero => exact ⟨s, rfl, fun g => ⟨State.left_eq_zero.1 (Nat.le_zero.1 (hk g)), id⟩⟩
  | succ k ih =>
    obtain ⟨t, ht, hend, hafter⟩ := h.run_round hs hc
    have hleft (g : Engine) : t.left g ≤ k :=
      hafter.left g k (Nat.le_trans (hk g) (Nat.add_le_add_left (List.count_pos_iff.2 (s.turn_mem_round g)) k))
    obtain ⟨u, hu, hidle⟩ := ih hafter.inv hend (by rwa [hafter.cycle, hafter.cfg]) hleft
    rw [hafter.cycle] at hu
    refine ⟨u, ?_, fun g => ⟨(hidle g).1, fun hconcluded => (hidle g).2 (hafter.concluded g hconcluded)⟩⟩
    rw [Nat.mul_succ, Nat.add_comm, core_run_add ht, hu]

/-- R282 for the rounds: both engines are idle within as many of them as R237 allows an engine steps. -/
theorem Inv.rounds_end_calls (h : Inv s) (hs : s.script = []) (hc : ∀ ev ∈ s.cycle, ev.Quiet s.cfg) :
    ∃ n t, n ≤ (s.cycle.length + 2) * max (2 * s.enc.regs.ilen.toNat + 3) (2 * s.dec.regs.ilen.toNat + 2) ∧
      core.run n s = .next t ∧ ∀ g, t.stateNum g = 0 ∧ (s.stateNum g ≠ 0 → (t.regsOf g).done = !(t.regsOf g).err) := by
  have hk (g : Engine) : s.left g ≤ max (2 * s.enc.regs.ilen.toNat + 3) (2 * s.dec.regs.ilen.toNat + 2) := by
    cases g with
    | enc => exact Nat.le_trans s.enc.left_le (Nat.le_max_left _ _)
    | dec => exact Nat.le_trans s.dec.left_le (Nat.le_max_right _ _)
  obtain ⟨t, ht, hidle⟩ := h.run_rounds hs hc hk
  exact ⟨_, t, Nat.le_refl _, ht, fun g => ⟨(hidle g).1, fun hb => (hidle g).2 (.of_busy hb) (hidle g).1⟩⟩

end

/-- Settles O57: a turn of a busy engine takes one of the finitely many steps it has left, and fairness and the machine's own rounds
each give it turn after turn. -/
theorem busyEnginesRunToIdle : Obligations.BusyEnginesRunToIdle := by
  refine ⟨fun s h => ?own, fun ev r g n hrun hfair h hb => ?ends, fun ev r g n hrun hfair h hb hquiet hpolls => ?polled,
    fun s h hs hc => ?rounds⟩
  case own =>
    have hstep := h.step_iterate
    exact ⟨_, fun n => State.succ^[n] s, rfl, hstep, infiniteRun_of_steps hstep, fairRun_of_steps hstep⟩
  case ends =>
    obtain ⟨m, hlt, hbusy, hidle, hconcluded⟩ := hrun.call_ends hfair h hb
    exact ⟨m, hlt, hbusy, hidle, fun hr => hconcluded hr hidle⟩
  case polled => exact hrun.poll_sees_end hfair h hb hquiet hpolls
  case rounds =>
    have hquiet : ∀ ev ∈ s.cycle, ev.Quiet s.cfg := fun ev hev => by
      obtain ⟨hr, henc, hdec⟩ := hc ev hev
      exact ⟨hr, fun g => by cases g; exacts [henc, hdec]⟩
    obtain ⟨n, t, hn, ht, hidle⟩ := h.rounds_end_calls hs hquiet
    obtain ⟨henc, hencFlags⟩ := hidle .enc
    obtain ⟨hdec, hdecFlags⟩ := hidle .dec
    exact ⟨n, t, hn, ht, State.stateNum_enc.1 henc, State.stateNum_dec.1 hdec,
      fun hb => hencFlags (State.stateNum_enc.not.2 hb), fun hb => hdecFlags (State.stateNum_dec.not.2 hb)⟩

end Sys2Proof.Machine
end
